-- ==== Sys2Proof/Word.lean ====
section
/-! DEFINITION. The word types of SJF-SPCORE (00 R8, R16; 20 R104) and the index types of its arrays.
Everything a test could show wrong (arithmetic, byte order, bit fields) lives under Machine/ and in Decode.lean. -/

namespace Sys2Proof

/-- One 32-bit word of a port (20 R104) or of the LFO and noise integers (00 R8). -/
abbrev Word := BitVec 32

/-- One byte of a delay word as a byte-wide medium carries it (20 R107). -/
abbrev Byte := BitVec 8

/-- A binary32 value, held as its IEEE 754 bit pattern (00 R16, 20 R107). -/
abbrev F32 := BitVec 32

/-- `NB`, the number of bands (00 R7): the 4-bit BAND field names every band and nothing else (30 R141; log 1). -/
abbrev NB : Nat := 16

/-- `NC`, the number of channels (00 R7): a frame is two words (20 R104; log 1). -/
abbrev NC : Nat := 2

/-- `NSEC`, the number of sections of a filter, half the highest order (00 R7, 10 R56; log 1). -/
abbrev NSEC : Nat := 4

/-- `NDESIGN`, the number of design families (00 R7, 10 R52; log 1). -/
abbrev NDESIGN : Nat := 3

/-- A band index b in 0..NB-1 (00 R7, R21). -/
abbrev Band := Fin NB

/-- A channel index c in 0..NC-1: 0 left, 1 right (00 R7). -/
abbrev Chan := Fin NC

/-- A biquad section index k in 0..NSEC-1 (00 R7). -/
abbrev Sec := Fin NSEC

/-- A band index is below 16, as omega reads it. -/
theorem band_lt (b : Band) : b.val < 16 := b.isLt

/-- A channel index is below 2, as omega reads it. -/
theorem chan_lt (c : Chan) : c.val < 2 := c.isLt

/-- A section index is below 4, as omega reads it. -/
theorem sec_lt (k : Sec) : k.val < 4 := k.isLt

/-- One value for each band. -/
abbrev Bank (α : Type) := Vector α NB

/-- One value for each channel and band (c, b). -/
abbrev Lanes (α : Type) := Vector (Bank α) NC

/-- One frame of a stream: the sample of channel 0, then that of channel 1 (20 R104). -/
abbrev AudioFrame := F32 × F32

end Sys2Proof
end

