-- ==== Sys2Proof/Config.lean ====
section
/-! DEFINITION. What an implementation fixes: the types of the parameters a machine takes as arguments (00 R7, 93 I1 to I3; log 1
to 4), and the uninterpreted constants that stand for what the spec leaves to an implementation (log 4, 6, 11). The spec's defaults
stand in Machine/Tables.lean. -/

namespace Sys2Proof

/-- The response type of a band (10 R43). -/
inductive BandType where
  | lp | bp | hp
  deriving DecidableEq, Repr, Inhabited

/-- The filter design family register, legal values 0, 1, 2 (10 R52). -/
inductive Design where
  | d0 | d1 | d2
  deriving DecidableEq, Repr, Inhabited

/-- The filter order register, legal values 2, 4, 6, 8 (10 R52). -/
inductive FilterOrder where
  | o2 | o4 | o6 | o8
  deriving DecidableEq, Repr, Inhabited

/-- The routing mode register: 0 ALL, 1 ODD, 2 EVEN (10 R52). -/
inductive Route where
  | all | odd | even
  deriving DecidableEq, Repr, Inhabited

/-- The LFO waveform register: 0 SINE, 1 NOISE (10 R52). -/
inductive Wave where
  | sine | noise
  deriving DecidableEq, Repr, Inhabited

/-- The five coefficients of one biquad section (10 R56). -/
structure Coef where
  b0 : F32
  b1 : F32
  b2 : F32
  a1 : F32
  a2 : F32
  deriving DecidableEq, Repr, Inhabited

/-- Who can take a step (60 R530): the host's transfers, the command decoder, the engine. -/
inductive Agent where
  | host | decoder | engine
  deriving DecidableEq, Repr, Inhabited

/-- The parameter DENORM (00 R18): subnormals kept, or flushed to zero. -/
inductive Denorm where
  | ieee | ftz
  deriving DecidableEq, Repr, Inhabited

/-- Which implementation of the four configuration functions (00 R20) a machine has: the spec's reference, or a platform's own,
told apart by a number (93 I2; log 4). -/
inductive CoefUnit where
  | reference
  | platform (n : Nat)
  deriving DecidableEq, Repr, Inhabited

/-- The literals of 00 R7 that a machine takes as arguments (93 I1; log 1), and the DESIGN_Q table (93 I3; log 4). Floats are
binary32 bit patterns. The counts NB, NC, NSEC and NDESIGN stand in Word.lean as named constants: the encodings and the
register file fix them (log 1). -/
structure Literals where
  /-- `FREQ[0..15]` in Hz (00 R7, 10 R42). -/
  freq      : Bank F32
  /-- `NOISE_SEED[b]` (41 R248). -/
  noiseSeed : Bank Word
  /-- `DESIGN_Q[d][o][k]`, by the design, by the order's half less one, by the section (40 R203). Entries of inactive sections are
  never read (40 R206). -/
  designQ   : Vector (Vector (Vector F32 NSEC) 4) NDESIGN
  /-- `ORDER_MIN` (46 R473). -/
  orderMin  : FilterOrder
  /-- `ORDER_MAX` (46 R473), at most 2·NSEC. -/
  orderMax  : FilterOrder
  /-- `FC_GAIN` in Hz (43 R321). -/
  fcGain    : F32
  /-- `FC_LFO` in Hz (43 R321). -/
  fcLfo     : F32
  /-- `FC_SLOW` in Hz (43 R321). -/
  fcSlow    : F32
  /-- `FS_MIN` in Hz (45 R402). -/
  fsMin     : F32
  /-- `FS_MAX` in Hz (45 R402). -/
  fsMax     : F32
  /-- `BLOCK_MAX` in frames (45 R403). -/
  blockMax  : Nat
  /-- `DLEN`, the words of each delay line (42 R280). -/
  dlen      : Nat
  /-- `DELAY_MAX_S` in seconds (10 R50, R61). -/
  delayMaxS : F32
  /-- `GAIN_MAX` (10 R50). -/
  gainMax   : F32
  /-- `FB_MAX` (10 R50). -/
  fbMax     : F32
  /-- `LFO_T_MIN` in seconds (41 R242). -/
  lfoTMin   : F32
  /-- `LFO_T_MAX` in seconds (41 R242). -/
  lfoTMax   : F32
  /-- `FREQ_CLAMP` (40 R201). -/
  freqClamp : F32
  /-- `DC_R` (44 R356). -/
  dcR       : F32
  deriving DecidableEq, Repr

/-- The parameters that a machine takes as arguments: DENORM (D4), STREAM_DEPTH (D49; `none` is a stream without bound, 20 R105),
the implementation of 00 R20 (93 I2) and the literals of 00 R7 (93 I1, I3).
They stand in State because exec's form has no other place for an argument. No step writes them (log 1, 2, 3, 4). -/
structure Platform where
  denorm : Denorm
  depth  : Option Nat
  unit   : CoefUnit
  lits   : Literals
  deriving DecidableEq, Repr

namespace Config

/-! ### What an implementation decides: constants with no body, so that no proof can lean on a value. -/

/-- `SMOOTH_COEF(fc, fs)` of an implementation, and of the reference where it states no value (00 R20; log 4, 6). -/
opaque smoothCoef : CoefUnit → F32 → F32 → F32
/-- `BIQUAD_COEF(type, f, fs, Q)` likewise (00 R20; log 4, 6). -/
opaque biquadCoef : CoefUnit → BandType → F32 → F32 → F32 → Coef
/-- `LFO_INC(rate, fs)` likewise, for each LFO_T_MIN and LFO_T_MAX, the first two arguments (00 R20, 41 R242; log 4, 6). -/
opaque lfoInc : CoefUnit → F32 → F32 → F32 → F32 → Word
/-- `LFO_SIN(p)` likewise (00 R20; log 4, 6). -/
opaque lfoSin : CoefUnit → Word → F32
/-- Which agent moves at the n-th contested step that `State.sched` does not settle (20 R113; log 11). -/
opaque arbiter : Nat → Agent

end Config

end Sys2Proof
end

