-- ==== Sys2Proof/Syntax.lean ====
section
/-! DEFINITION. The SPCORE command set, version 1: one constructor for each row of spec/opcode_table.json (30 R143). -/

namespace Sys2Proof

/-- A decoded command. Operands are those of 30 R145: a band index b, an unsigned immediate (a natural number, below
65536 in a well-formed command), a float operand as its binary32 pattern. DATA is no operand where R142 ignores it. -/
inductive Instr where
  -- system commands (45)
  | nop
  | init (fs : F32)
  | block (n : Nat)
  | getStatus
  | clrStatus
  | getSr
  -- per-band setters (46 R452 to R461)
  | setGain (b : Band) (x : F32)
  | setPol (b : Band) (imm : Nat)
  | setLfoRate (b : Band) (x : F32)
  | setLfoDepth (b : Band) (x : F32)
  | setLfoOfs (b : Band) (x : F32)
  | setLfoEn (b : Band) (imm : Nat)
  | setDlyTime (b : Band) (x : F32)
  | setDlyFb (b : Band) (x : F32)
  | setDlyMix (b : Band) (x : F32)
  | setDlyEn (b : Band) (imm : Nat)
  -- per-band getters (46 R462 to R471)
  | getGain (b : Band)
  | getPol (b : Band)
  | getLfoRate (b : Band)
  | getLfoDepth (b : Band)
  | getLfoOfs (b : Band)
  | getLfoEn (b : Band)
  | getDlyTime (b : Band)
  | getDlyFb (b : Band)
  | getDlyMix (b : Band)
  | getDlyEn (b : Band)
  -- global setters (46 R472 to R475)
  | setDesign (imm : Nat)
  | setOrder (imm : Nat)
  | setRoute (imm : Nat)
  | setWave (imm : Nat)
  -- global getters (46 R476 to R479)
  | getDesign
  | getOrder
  | getRoute
  | getWave
  deriving DecidableEq, Repr

end Sys2Proof
end

