-- ==== Sys2Proof/WellFormed.lean ====
section
/-! DEFINITION. Which commands have an encoding: an immediate is an integer in 0..65535 (30 R145; R153: an operand out
of range is no encoding). A band index is in 0..15 by its type (30 R141), and every 32-bit pattern is a float operand. -/

namespace Sys2Proof

/-- The immediate fits CW[15:0] (30 R141). -/
def immFits (imm : Nat) : Bool := decide (imm < 65536)

/-- The command can be encoded. -/
def Instr.wellFormed : Instr → Bool
  | .nop => true
  | .init _ => true
  | .block n => immFits n
  | .getStatus => true
  | .clrStatus => true
  | .getSr => true
  | .setGain _ _ => true
  | .setPol _ imm => immFits imm
  | .setLfoRate _ _ => true
  | .setLfoDepth _ _ => true
  | .setLfoOfs _ _ => true
  | .setLfoEn _ imm => immFits imm
  | .setDlyTime _ _ => true
  | .setDlyFb _ _ => true
  | .setDlyMix _ _ => true
  | .setDlyEn _ imm => immFits imm
  | .getGain _ => true
  | .getPol _ => true
  | .getLfoRate _ => true
  | .getLfoDepth _ => true
  | .getLfoOfs _ => true
  | .getLfoEn _ => true
  | .getDlyTime _ => true
  | .getDlyFb _ => true
  | .getDlyMix _ => true
  | .getDlyEn _ => true
  | .setDesign imm => immFits imm
  | .setOrder imm => immFits imm
  | .setRoute imm => immFits imm
  | .setWave imm => immFits imm
  | .getDesign => true
  | .getOrder => true
  | .getRoute => true
  | .getWave => true

end Sys2Proof
end

