-- ==== Sys2Proof/Decode.lean ====
section
/-! DEFINITION. Decoding a command pair (30 R140 to R148) and, after it, the encoder written from the same table
(30 R141, R143, R153). Decoding is total: a pair is a command, an ILLEGAL_OP or an RSV_FIELD. -/

namespace Sys2Proof

/-- Why a command pair is no command (30 R147, R148; 60 R501). -/
inductive DecodeError where
  /-- ILLEGAL_OP: CW[31:24] is not an assigned opcode. -/
  | illegalOp
  /-- RSV_FIELD: the opcode is assigned, and a field its class does not use is not zero. -/
  | rsvField
  deriving DecidableEq, Repr

/-- The operand classes of 30 R143. -/
inductive FieldClass where
  | s0 | sd | si | bf | bi | bg | gi
  deriving DecidableEq, Repr

/-! ### The fields of CW (30 R141) -/

/-- OP = CW[31:24]. -/
def opField (cw : Word) : BitVec 8 := cw.extractLsb' 24 8

/-- BAND = CW[23:20], unsigned: every value names a band. -/
def bandField (cw : Word) : Band := (cw.extractLsb' 20 4).toFin

/-- IMM = CW[15:0], zero-extended (30 R145). -/
def immField (cw : Word) : Nat := (cw.extractLsb' 0 16).toNat

/-! ### Match and mask (30 R144) -/

/-- The mask of a class over CW: OP and every field that must be zero. -/
def FieldClass.mask : FieldClass → Word
  | .s0 => 0xFFFFFFFF#32
  | .sd => 0xFFFFFFFF#32
  | .si => 0xFFFF0000#32
  | .gi => 0xFFFF0000#32
  | .bf => 0xFF0FFFFF#32
  | .bg => 0xFF0FFFFF#32
  | .bi => 0xFF0F0000#32

/-- The match word of an opcode: OP << 24. -/
def matchWord (op : BitVec 8) : Word := op.setWidth 32 <<< 24

/-- One row of the opcode map: opcode, class, and the command it stands for given b, imm and DATA. -/
structure OpRow where
  code  : BitVec 8
  cls   : FieldClass
  instr : Band → Nat → F32 → Instr

/-- The opcode map of 30 R143, in its order. -/
def opTable : List OpRow :=
  [ ⟨0x00#8, .s0, fun _ _ _ => .nop⟩,
    ⟨0x01#8, .sd, fun _ _ x => .init x⟩,
    ⟨0x02#8, .si, fun _ n _ => .block n⟩,
    ⟨0x03#8, .s0, fun _ _ _ => .getStatus⟩,
    ⟨0x04#8, .s0, fun _ _ _ => .clrStatus⟩,
    ⟨0x05#8, .s0, fun _ _ _ => .getSr⟩,
    ⟨0x10#8, .bf, fun b _ x => .setGain b x⟩,
    ⟨0x11#8, .bi, fun b n _ => .setPol b n⟩,
    ⟨0x12#8, .bf, fun b _ x => .setLfoRate b x⟩,
    ⟨0x13#8, .bf, fun b _ x => .setLfoDepth b x⟩,
    ⟨0x14#8, .bf, fun b _ x => .setLfoOfs b x⟩,
    ⟨0x15#8, .bi, fun b n _ => .setLfoEn b n⟩,
    ⟨0x16#8, .bf, fun b _ x => .setDlyTime b x⟩,
    ⟨0x17#8, .bf, fun b _ x => .setDlyFb b x⟩,
    ⟨0x18#8, .bf, fun b _ x => .setDlyMix b x⟩,
    ⟨0x19#8, .bi, fun b n _ => .setDlyEn b n⟩,
    ⟨0x20#8, .bg, fun b _ _ => .getGain b⟩,
    ⟨0x21#8, .bg, fun b _ _ => .getPol b⟩,
    ⟨0x22#8, .bg, fun b _ _ => .getLfoRate b⟩,
    ⟨0x23#8, .bg, fun b _ _ => .getLfoDepth b⟩,
    ⟨0x24#8, .bg, fun b _ _ => .getLfoOfs b⟩,
    ⟨0x25#8, .bg, fun b _ _ => .getLfoEn b⟩,
    ⟨0x26#8, .bg, fun b _ _ => .getDlyTime b⟩,
    ⟨0x27#8, .bg, fun b _ _ => .getDlyFb b⟩,
    ⟨0x28#8, .bg, fun b _ _ => .getDlyMix b⟩,
    ⟨0x29#8, .bg, fun b _ _ => .getDlyEn b⟩,
    ⟨0x30#8, .gi, fun _ n _ => .setDesign n⟩,
    ⟨0x31#8, .gi, fun _ n _ => .setOrder n⟩,
    ⟨0x32#8, .gi, fun _ n _ => .setRoute n⟩,
    ⟨0x33#8, .gi, fun _ n _ => .setWave n⟩,
    ⟨0x38#8, .s0, fun _ _ _ => .getDesign⟩,
    ⟨0x39#8, .s0, fun _ _ _ => .getOrder⟩,
    ⟨0x3A#8, .s0, fun _ _ _ => .getRoute⟩,
    ⟨0x3B#8, .s0, fun _ _ _ => .getWave⟩ ]

/-- The row of an opcode, if it is assigned. -/
def rowOf (op : BitVec 8) : Option OpRow := opTable.find? (fun r => r.code == op)

/-- Decoding a command pair (30 R147): ILLEGAL_OP is checked before RSV_FIELD. -/
def decode (cw data : Word) : Except DecodeError Instr :=
  match rowOf (opField cw) with
  | none => .error .illegalOp
  | some r =>
    if cw &&& r.cls.mask = matchWord r.code then .ok (r.instr (bandField cw) (immField cw) data)
    else .error .rsvField

/-! ### Byte order (20 R107): over a byte-wide medium a word goes least significant byte first. -/

/-- The word of four bytes, the first being the least significant. -/
def wordOfBytes (b0 b1 b2 b3 : Byte) : Word :=
  b0.setWidth 32 ||| b1.setWidth 32 <<< 8 ||| b2.setWidth 32 <<< 16 ||| b3.setWidth 32 <<< 24

/-- Byte i of a word, i = 0 being the least significant. -/
def byteOfWord (w : Word) (i : Nat) : Byte := w.extractLsb' (8 * i) 8

/-- The eight bytes of a command pair on a byte-wide medium: CW first, then DATA (30 R140, 20 R107). -/
def bytesOfPair (cw data : Word) : List Byte :=
  [ byteOfWord cw 0, byteOfWord cw 1, byteOfWord cw 2, byteOfWord cw 3,
    byteOfWord data 0, byteOfWord data 1, byteOfWord data 2, byteOfWord data 3 ]

/-- Taking one command pair off a list of bytes: none while fewer than eight are there (the decoder always takes two
words, 30 R140), else the decoded command and the bytes after it. -/
def decodeBytes : List Byte → Option (Except DecodeError Instr × List Byte)
  | c0 :: c1 :: c2 :: c3 :: d0 :: d1 :: d2 :: d3 :: rest =>
    some (decode (wordOfBytes c0 c1 c2 c3) (wordOfBytes d0 d1 d2 d3), rest)
  | _ => none

/-! ### The encoder -/

/-- A control word with opcode OP, band b and immediate imm (30 R141); RSV is 0. -/
def controlWord (op : BitVec 8) (b : Band) (imm : Nat) : Word :=
  op.setWidth 32 <<< 24 ||| (BitVec.ofNat 32 b.val) <<< 20 ||| BitVec.ofNat 32 imm

/-- The opcode of a command (30 R143). -/
def Instr.opcode : Instr → BitVec 8
  | .nop => 0x00#8
  | .init _ => 0x01#8
  | .block _ => 0x02#8
  | .getStatus => 0x03#8
  | .clrStatus => 0x04#8
  | .getSr => 0x05#8
  | .setGain _ _ => 0x10#8
  | .setPol _ _ => 0x11#8
  | .setLfoRate _ _ => 0x12#8
  | .setLfoDepth _ _ => 0x13#8
  | .setLfoOfs _ _ => 0x14#8
  | .setLfoEn _ _ => 0x15#8
  | .setDlyTime _ _ => 0x16#8
  | .setDlyFb _ _ => 0x17#8
  | .setDlyMix _ _ => 0x18#8
  | .setDlyEn _ _ => 0x19#8
  | .getGain _ => 0x20#8
  | .getPol _ => 0x21#8
  | .getLfoRate _ => 0x22#8
  | .getLfoDepth _ => 0x23#8
  | .getLfoOfs _ => 0x24#8
  | .getLfoEn _ => 0x25#8
  | .getDlyTime _ => 0x26#8
  | .getDlyFb _ => 0x27#8
  | .getDlyMix _ => 0x28#8
  | .getDlyEn _ => 0x29#8
  | .setDesign _ => 0x30#8
  | .setOrder _ => 0x31#8
  | .setRoute _ => 0x32#8
  | .setWave _ => 0x33#8
  | .getDesign => 0x38#8
  | .getOrder => 0x39#8
  | .getRoute => 0x3A#8
  | .getWave => 0x3B#8

/-- The command pair (CW, DATA) of a well-formed command; DATA is 0 where it is ignored (30 R142, R153). -/
def encode (i : Instr) : Word × Word :=
  match i with
  | .nop => (controlWord i.opcode 0 0, 0#32)
  | .init x => (controlWord i.opcode 0 0, x)
  | .block n => (controlWord i.opcode 0 n, 0#32)
  | .getStatus => (controlWord i.opcode 0 0, 0#32)
  | .clrStatus => (controlWord i.opcode 0 0, 0#32)
  | .getSr => (controlWord i.opcode 0 0, 0#32)
  | .setGain b x => (controlWord i.opcode b 0, x)
  | .setPol b n => (controlWord i.opcode b n, 0#32)
  | .setLfoRate b x => (controlWord i.opcode b 0, x)
  | .setLfoDepth b x => (controlWord i.opcode b 0, x)
  | .setLfoOfs b x => (controlWord i.opcode b 0, x)
  | .setLfoEn b n => (controlWord i.opcode b n, 0#32)
  | .setDlyTime b x => (controlWord i.opcode b 0, x)
  | .setDlyFb b x => (controlWord i.opcode b 0, x)
  | .setDlyMix b x => (controlWord i.opcode b 0, x)
  | .setDlyEn b n => (controlWord i.opcode b n, 0#32)
  | .getGain b => (controlWord i.opcode b 0, 0#32)
  | .getPol b => (controlWord i.opcode b 0, 0#32)
  | .getLfoRate b => (controlWord i.opcode b 0, 0#32)
  | .getLfoDepth b => (controlWord i.opcode b 0, 0#32)
  | .getLfoOfs b => (controlWord i.opcode b 0, 0#32)
  | .getLfoEn b => (controlWord i.opcode b 0, 0#32)
  | .getDlyTime b => (controlWord i.opcode b 0, 0#32)
  | .getDlyFb b => (controlWord i.opcode b 0, 0#32)
  | .getDlyMix b => (controlWord i.opcode b 0, 0#32)
  | .getDlyEn b => (controlWord i.opcode b 0, 0#32)
  | .setDesign n => (controlWord i.opcode 0 n, 0#32)
  | .setOrder n => (controlWord i.opcode 0 n, 0#32)
  | .setRoute n => (controlWord i.opcode 0 n, 0#32)
  | .setWave n => (controlWord i.opcode 0 n, 0#32)
  | .getDesign => (controlWord i.opcode 0 0, 0#32)
  | .getOrder => (controlWord i.opcode 0 0, 0#32)
  | .getRoute => (controlWord i.opcode 0 0, 0#32)
  | .getWave => (controlWord i.opcode 0 0, 0#32)

/-! ### The host's question about one row of the opcode table -/

/-- The command this decoder reads from a row's bits: CW is bits 31..0, DATA bits 63..32, every bit above nbits 0. -/
def decodeTableWord (nbits w : Nat) : Option Instr :=
  let v := w % 2 ^ nbits
  match decodeBytes (bytesOfPair (BitVec.ofNat 32 v) (BitVec.ofNat 32 (v / 2 ^ 32))) with
  | some (.ok i, _) => some i
  | _ => none

end Sys2Proof
end

