-- ==== Sys2Proof/Machine/Float.lean ====
section
/-! DEFINITION. The binary32 primitives of 00 R17 to R19. A finite value is an exact integer count of the smallest
subnormal, 2^-149: operands are turned into integers, the result is computed exactly, and one rounding (to nearest, ties
to even) narrows it. NaN results are 0x7FC00000 (R19). DENORM acts on operands and results (R18). -/

namespace Sys2Proof.Machine

/-! ### Reading a bit pattern (20 R107) -/

/-- Bit 31. -/
def signOf (x : F32) : Bool := x.msb

/-- The pattern without its sign: it orders the magnitudes of all values that are not NaN. -/
def magBits (x : F32) : Nat := x.toNat % 2 ^ 31

/-- The biased exponent, bits 30..23. -/
def expOf (x : F32) : Nat := magBits x / 2 ^ 23

/-- The fraction, bits 22..0. -/
def fracOf (x : F32) : Nat := magBits x % 2 ^ 23

/-- The pattern is a NaN, of any sign and payload. -/
def isNaN (x : F32) : Bool := decide (0x7F800000 < magBits x)

/-- The pattern is an infinity. -/
def isInf (x : F32) : Bool := decide (magBits x = 0x7F800000)

/-- The pattern is a zero. -/
def isZero (x : F32) : Bool := decide (magBits x = 0)

/-- The pattern is neither a NaN nor an infinity. -/
def isFinite (x : F32) : Bool := decide (magBits x < 0x7F800000)

/-- The pattern is a subnormal or a zero: the biased exponent is 0. -/
def isTiny (x : F32) : Bool := decide (expOf x = 0)

/-- The magnitude of a finite value, in units of 2^-149. -/
def magOf (x : F32) : Nat :=
  if expOf x = 0 then fracOf x else (2 ^ 23 + fracOf x) * 2 ^ (expOf x - 1)

/-- A finite value as an exact integer, in units of 2^-149. -/
def valueOf (x : F32) : Int := if signOf x then -(magOf x : Int) else (magOf x : Int)

/-! ### Building a bit pattern -/

/-- The default quiet NaN (00 R19). -/
def qNaN : F32 := 0x7FC00000#32

/-- The pattern with the given sign and magnitude bits. -/
def packSign (neg : Bool) (mag : Nat) : F32 := BitVec.ofNat 32 (mag + if neg then 2 ^ 31 else 0)

/-- +0.0. -/
def posZero : F32 := 0x00000000#32

/-- 1.0. -/
def one : F32 := 0x3F800000#32

/-- The integer nearest n/d, ties to even. -/
def roundHalfEven (n d : Nat) : Nat :=
  let q := n / d
  let r := n % d
  if 2 * r < d then q else if d < 2 * r then q + 1 else q + q % 2

/-- The magnitude bits of the binary32 value nearest (n/d)·2^-149, ties to even: 24 significant bits, fewer below the
normal range, infinity above it. The exponent field and the fraction are one number, so a carry out of the
fraction is an exponent one higher. -/
def roundMag (n d : Nat) : Nat :=
  let s := Nat.log2 (n / d) - 23
  min 0x7F800000 (s * 2 ^ 23 + roundHalfEven n (d * 2 ^ s))

/-! ### DENORM (00 R18) -/

/-- A subnormal operand or result is a zero of the same sign under FTZ, and itself under IEEE. -/
def flush (dn : Denorm) (x : F32) : F32 :=
  match dn with
  | .ieee => x
  | .ftz => if isTiny x then packSign (signOf x) 0 else x

/-! ### Addition, subtraction, multiplication, division, square root (00 R17) -/

/-- The correctly rounded sum, before DENORM. An exact zero sum is +0.0 unless both operands are negative. -/
def faddExact (a b : F32) : F32 :=
  if isNaN a || isNaN b then qNaN
  else if isInf a then (if isInf b && (signOf a != signOf b) then qNaN else a)
  else if isInf b then b
  else
    let z := valueOf a + valueOf b
    if z = 0 then packSign (signOf a && signOf b) 0
    else packSign (decide (z < 0)) (roundMag z.natAbs 1)

/-- The correctly rounded product, before DENORM. -/
def fmulExact (a b : F32) : F32 :=
  if isNaN a || isNaN b then qNaN
  else if isInf a || isInf b then
    (if isZero a || isZero b then qNaN else packSign (signOf a != signOf b) 0x7F800000)
  else packSign (signOf a != signOf b) (roundMag (magOf a * magOf b) (2 ^ 149))

/-- The correctly rounded quotient, before DENORM. -/
def fdivExact (a b : F32) : F32 :=
  if isNaN a || isNaN b then qNaN
  else if isInf a then (if isInf b then qNaN else packSign (signOf a != signOf b) 0x7F800000)
  else if isInf b then packSign (signOf a != signOf b) 0
  else if isZero b then (if isZero a then qNaN else packSign (signOf a != signOf b) 0x7F800000)
  else packSign (signOf a != signOf b) (roundMag (magOf a * 2 ^ 149) (magOf b))

/-- One bit of the integer square root after another, from bit k-1 down: the largest r' >= r that differs from r only in
those bits and has r'·r' <= x. -/
def isqrtFrom : Nat → Nat → Nat → Nat
  | 0, _, r => r
  | k + 1, x, r => isqrtFrom k x (if (r + 2 ^ k) * (r + 2 ^ k) ≤ x then r + 2 ^ k else r)

/-- The integer square root of x < 2^428. -/
def isqrt (x : Nat) : Nat := isqrtFrom 214 x 0

/-- The correctly rounded square root, before DENORM. The root of m·2^-149 is the root of m·2^149 in units of 2^-149; its
integer part has at least 75 bits, and one more bit says whether anything was left, so one rounding is exact. -/
def fsqrtExact (a : F32) : F32 :=
  if isNaN a then qNaN
  else if isZero a then a
  else if signOf a then qNaN
  else if isInf a then a
  else
    let m := magOf a * 2 ^ 149
    let r := isqrt m
    packSign false (roundMag (2 * r + if r * r = m then 0 else 1) 2)

/-- `fadd(a, b)`. -/
def fadd (dn : Denorm) (a b : F32) : F32 := flush dn (faddExact (flush dn a) (flush dn b))

/-- Flipping the sign bit. -/
def flipSign (a : F32) : F32 := a ^^^ 0x80000000#32

/-- `fsub(a, b)`: the sum of a and b with its sign flipped. -/
def fsub (dn : Denorm) (a b : F32) : F32 := fadd dn a (flipSign b)

/-- `fmul(a, b)`. -/
def fmul (dn : Denorm) (a b : F32) : F32 := flush dn (fmulExact (flush dn a) (flush dn b))

/-- `fdiv(a, b)`. -/
def fdiv (dn : Denorm) (a b : F32) : F32 := flush dn (fdivExact (flush dn a) (flush dn b))

/-- `fsqrt(a)`. -/
def fsqrt (dn : Denorm) (a : F32) : F32 := flush dn (fsqrtExact (flush dn a))

/-- `fneg(a)` flips the sign bit. -/
def fneg (dn : Denorm) (a : F32) : F32 := flush dn (flipSign (flush dn a))

/-! ### Comparison, clamping, conversion (00 R17) -/

/-- The order of values that are not NaN: both zeros count 0. -/
def orderKey (x : F32) : Int := if signOf x then -(magBits x : Int) else (magBits x : Int)

/-- a < b; false when either is NaN. -/
def flt (a b : F32) : Bool := !isNaN a && !isNaN b && decide (orderKey a < orderKey b)

/-- a <= b; false when either is NaN. -/
def fle (a b : F32) : Bool := !isNaN a && !isNaN b && decide (orderKey a ≤ orderKey b)

/-- `fclamp(v, lo, hi)`: lo for a NaN. The operands are compared as DENORM reads them (R18). A pattern that lies in the domain
itself is kept as it is, subnormals included (46 R451); any other comes out as DENORM reads it (log 18). -/
def fclamp (dn : Denorm) (v lo hi : F32) : F32 :=
  if isNaN v then lo
  else if flt (flush dn v) (flush dn lo) then lo
  else if flt (flush dn hi) (flush dn v) then hi
  else if fle lo v && fle v hi then v
  else flush dn v

/-- `fmin(a, b)` of two values that are not NaN (40 R201). -/
def fmin (a b : F32) : F32 := if flt b a then b else a

/-- `ffloor(v)` for v >= 0. -/
def ffloor (v : F32) : Nat := magOf v / 2 ^ 149

/-- `u2f(i)`: an integer below 2^24, exactly. -/
def u2f (i : Nat) : F32 := packSign false (roundMag (i * 2 ^ 149) 1)

/-- `i2f(i)`: rounded to nearest, ties to even (41 R247). -/
def i2f (i : Int) : F32 := packSign (decide (i < 0)) (roundMag (i.natAbs * 2 ^ 149) 1)

/-- The integer nearest a finite value, ties to even (41 R243). -/
def roundToInt (v : F32) : Int :=
  if signOf v then -(roundHalfEven (magOf v) (2 ^ 149) : Int) else (roundHalfEven (magOf v) (2 ^ 149) : Int)

end Sys2Proof.Machine
end

