-- ==== Sys2Proof/Machine/Reference.lean ====
section
/-! DEFINITION. The reference of the four configuration functions (00 R20): the real formulas of 43 R321, 40 R205, 41 R242
and 41 R245, evaluated in fixed point with 192 fraction bits and rounded once. UNVERIFIED (log 5): the distance between the
fixed-point value and the real one is claimed, not proved, to be below the bound each function gives; a value is
answered only if everything within that bound rounds alike. Where nothing is answered (a tie too close to call, or operands
outside the range the formula is stated for) the value is free (log 6). -/

namespace Sys2Proof.Machine

/-- 1 in fixed point: 192 fraction bits. -/
def fxOne : Nat := 2 ^ 192

/-- π in fixed point, rounded down. -/
def fxPi : Nat := 19720096697726538562396133364228268891463450865190089732560

/-- RN32 of a real within e of v/2^192, if every such real rounds alike. An exact 0 gives +0.0. -/
def fxRound32 (v : Int) (e : Nat) : Option F32 :=
  if v = 0 then some posZero
  else
    let a := v.natAbs
    let lo := roundMag ((a - e) * 2 ^ 149) fxOne
    let hi := roundMag ((a + e) * 2 ^ 149) fxOne
    if e < a ∧ lo = hi then some (packSign (decide (v < 0)) lo) else none

/-- The integer nearest a real within e of v/2^192, ties to even, if every such real rounds alike. -/
def fxRoundNat (v e : Nat) : Option Nat :=
  let lo := roundHalfEven (v - e) fxOne
  let hi := roundHalfEven (v + e) fxOne
  if e < v ∧ lo = hi then some lo else none

/-- The operand is a finite number greater than zero. -/
def isPositive (x : F32) : Bool := isFinite x && !signOf x && !isZero x

/-! ### Series, in Horner form: n terms, the first of index k. -/

/-- 1 − x/k·(1 − x/(k+1)·(…)). -/
def expSeriesDown (x : Nat) : Nat → Nat → Nat
  | 0, _ => fxOne
  | n + 1, k => fxOne - x * expSeriesDown x n (k + 1) / (fxOne * k)

/-- 1 + x/k·(1 + x/(k+1)·(…)). -/
def expSeriesUp (x : Nat) : Nat → Nat → Nat
  | 0, _ => fxOne
  | n + 1, k => fxOne + x * expSeriesUp x n (k + 1) / (fxOne * k)

/-- 1 − y/((k+1)(k+2))·(1 − y/((k+3)(k+4))·(…)), for y = θ². -/
def trigSeries (y : Nat) : Nat → Nat → Nat
  | 0, _ => fxOne
  | n + 1, k => fxOne - y * trigSeries y n (k + 2) / (fxOne * ((k + 1) * (k + 2)))

/-- 1/k + y·(1/(k+2) + y·(…)), for y = z²: times z and from k = 1 it is artanh z. -/
def artanhSeries (y : Nat) : Nat → Nat → Nat
  | 0, _ => 0
  | n + 1, k => fxOne / k + y * artanhSeries y n (k + 2) / fxOne

/-- artanh(n/d) in fixed point, for 0 <= n/d <= 1/3. -/
def fxArtanh (n d : Nat) : Nat :=
  let z := n * fxOne / d
  z * artanhSeries (z * z / fxOne) 66 1 / fxOne

/-- ln(n/d) in fixed point, for n/d >= 1: the powers of two are taken off, and ln q = 2·artanh((q−1)/(q+1)) for q in [1, 2). -/
def fxLn (n d : Nat) : Nat :=
  let e := Nat.log2 (n / d)
  let d2 := d * 2 ^ e
  2 * (e * fxArtanh 1 3 + fxArtanh (n - d2) (n + d2))

/-- (sin θ, cos θ) for 0 <= θ <= π/4. -/
def sinCosSmall (th : Nat) : Nat × Nat :=
  let y := th * th / fxOne
  (th * trigSeries y 26 1 / fxOne, trigSeries y 26 0)

/-- (sin, cos) of n/m turns. The quadrant and the nearer end of it are taken off exactly, so the zeros and the ones of
both functions at multiples of a quarter turn are exact. -/
def sinCosTurns (n m : Nat) : Int × Int :=
  let r := (4 * n) % m
  let sc :=
    if 2 * r ≤ m then sinCosSmall (fxPi * r / (2 * m))
    else ((sinCosSmall (fxPi * (m - r) / (2 * m))).2, (sinCosSmall (fxPi * (m - r) / (2 * m))).1)
  match (4 * n) / m % 4 with
  | 0 => ((sc.1 : Int), (sc.2 : Int))
  | 1 => ((sc.2 : Int), -(sc.1 : Int))
  | 2 => (-(sc.1 : Int), -(sc.2 : Int))
  | _ => (-(sc.2 : Int), (sc.1 : Int))

/-! ### The four references -/

/-- `SMOOTH_COEF(fc, fs)` = RN32(1 − e^(−2π·fc/fs)), for 0 < 2π·fc/fs < 1 (43 R321). -/
def refSmoothCoef (fc fs : F32) : Option F32 :=
  if isPositive fc && isPositive fs then
    let x := 2 * fxPi * magOf fc / magOf fs
    if fxOne / 2 ^ 40 ≤ x ∧ x < fxOne then fxRound32 (x * expSeriesDown x 60 2 / fxOne : Nat) (2 ^ 32) else none
  else none

/-- One section's real coefficients over a0, in fixed point (40 R205): b0, b1, b2, a1, a2 from sin, cos and α. -/
def biquadReal (t : BandType) (cw : Int) (al : Nat) : Int × Int × Int × Int × Int :=
  let a0 : Int := (fxOne + al : Nat)
  let one : Int := (fxOne : Nat)
  let quot (x : Int) (d : Int) : Int := (x * one).tdiv d
  let a1 := quot (-2 * cw) a0
  let a2 := quot (one - (al : Int)) a0
  match t with
  | .lp => (quot (one - cw) (2 * a0), quot (one - cw) a0, quot (one - cw) (2 * a0), a1, a2)
  | .hp => (quot (one + cw) (2 * a0), -(quot (one + cw) a0), quot (one + cw) (2 * a0), a1, a2)
  | .bp => (quot (al : Int) a0, 0, -(quot (al : Int) a0), a1, a2)

/-- `BIQUAD_COEF(t, f, fs, Q)` = each real coefficient of 40 R205 rounded to binary32, for 0 < f < fs/2 and Q > 0. -/
def refBiquadCoef (t : BandType) (f fs q : F32) : Option Coef :=
  if isPositive f && isPositive fs && isPositive q
      && decide (2 * magOf f < magOf fs ∧ magOf fs ≤ 2 ^ 40 * magOf f ∧ 2 ^ 140 ≤ magOf q ∧ magOf q ≤ 2 ^ 158) then
    let sc := sinCosTurns (magOf f) (magOf fs)
    let al := sc.1.natAbs * 2 ^ 149 / (2 * magOf q)
    let r := biquadReal t sc.2 al
    match fxRound32 r.1 (2 ^ 42), fxRound32 r.2.1 (2 ^ 42), fxRound32 r.2.2.1 (2 ^ 42), fxRound32 r.2.2.2.1 (2 ^ 42),
        fxRound32 r.2.2.2.2 (2 ^ 42) with
    | some b0, some b1, some b2, some a1, some a2 => some ⟨b0, b1, b2, a1, a2⟩
    | _, _, _, _, _ => none
  else none

/-- `LFO_INC(rate, fs)` = round_half_even(2^32 / (T·fs)), T = LFO_T_MAX·(LFO_T_MIN/LFO_T_MAX)^rate (41 R242), for a rate
in [0, 1], periods 0 < LFO_T_MIN <= LFO_T_MAX <= 2^20·LFO_T_MIN and LFO_T_MIN·fs >= 1, where the increment is a u32 but for 2^32
itself, which is left out. Here 1/T = e^(rate·ln(LFO_T_MAX/LFO_T_MIN)) / LFO_T_MAX. -/
def refLfoInc (tMin tMax rate fs : F32) : Option Word :=
  if fle posZero rate && fle rate one && isPositive fs && isPositive tMin && isPositive tMax
      && decide (magOf tMin ≤ magOf tMax ∧ magOf tMax ≤ 2 ^ 20 * magOf tMin ∧ 2 ^ 298 ≤ magOf tMin * magOf fs) then
    let x := fxLn (magOf tMax) (magOf tMin) * magOf rate / 2 ^ 149
    let ex := expSeriesUp x 120 1
    let v := ex * 2 ^ 32 * 2 ^ 149 * 2 ^ 149 / (magOf tMax * magOf fs)
    match fxRoundNat v (2 ^ 72) with
    | some n => if n < 2 ^ 32 then some (BitVec.ofNat 32 n) else none
    | none => none
  else none

/-- `LFO_SIN(p)` = RN32(sin(2π·p/2^32)) (41 R245). -/
def refLfoSin (p : Word) : Option F32 := fxRound32 (sinCosTurns p.toNat (2 ^ 32)).1 (2 ^ 32)

/-! ### The configuration functions a machine has (00 R20): the reference, or a platform's own (log 4, 6). -/

/-- `SMOOTH_COEF`. -/
def smoothCoef (u : CoefUnit) (fc fs : F32) : F32 :=
  match u with
  | .reference => (refSmoothCoef fc fs).getD (Config.smoothCoef u fc fs)
  | .platform n => Config.smoothCoef (.platform n) fc fs

/-- `BIQUAD_COEF`. -/
def biquadCoef (u : CoefUnit) (t : BandType) (f fs q : F32) : Coef :=
  match u with
  | .reference => (refBiquadCoef t f fs q).getD (Config.biquadCoef u t f fs q)
  | .platform n => Config.biquadCoef (.platform n) t f fs q

/-- `LFO_INC`, with the machine's LFO_T_MIN and LFO_T_MAX. -/
def lfoInc (cfg : Platform) (rate fs : F32) : Word :=
  let own := Config.lfoInc cfg.unit cfg.lits.lfoTMin cfg.lits.lfoTMax rate fs
  match cfg.unit with
  | .reference => (refLfoInc cfg.lits.lfoTMin cfg.lits.lfoTMax rate fs).getD own
  | .platform _ => own

/-- `LFO_SIN`. -/
def lfoSin (u : CoefUnit) (p : Word) : F32 :=
  match u with
  | .reference => (refLfoSin p).getD (Config.lfoSin u p)
  | .platform n => Config.lfoSin (.platform n) p

end Sys2Proof.Machine
end

