-- ==== Sys2Proof/Machine/Tables.lean ====
section
/-! DEFINITION. The constant tables of the hardware: FREQ (00 R7), TYPE (10 R43), DESIGN_Q (40 R203) and NOISE_SEED
(41 R248), which have no address and which no command reads (20 R101), and the defaults of all that a machine takes as arguments. -/

namespace Sys2Proof.Machine

/-- The bands in ascending order, the order of every loop over b (00 R14). -/
def bands : List Band := [0, 1, 2, 3, 4, 5, 6, 7, 8, 9, 10, 11, 12, 13, 14, 15]

/-- The channels in ascending order. -/
def chans : List Chan := [0, 1]

/-- The sections in ascending order. -/
def secs : List Sec := [0, 1, 2, 3]

/-- The default of `FREQ[0..15]` in Hz (00 R7): 100, 150, 250, 350, 500, 630, 800, 1000, 1300, 1600, 2000, 2600, 3500, 5000, 8000, 10000. -/
def freqTable : Bank F32 :=
  #v[0x42C80000#32, 0x43160000#32, 0x437A0000#32, 0x43AF0000#32, 0x43FA0000#32, 0x441D8000#32, 0x44480000#32, 0x447A0000#32,
     0x44A28000#32, 0x44C80000#32, 0x44FA0000#32, 0x45228000#32, 0x455AC000#32, 0x459C4000#32, 0x45FA0000#32, 0x461C4000#32]

/-- `TYPE[b]` (10 R43): band 0 low-pass, band 15 high-pass, the others band-pass. -/
def bandType (b : Band) : BandType := if b = 0 then .lp else if b = 15 then .hp else .bp

/-- The default of NOISE_SEED: `NOISE_SEED[b] = (0x9E3779B9·(b+1)) mod 2^32` (41 R248). -/
def noiseSeed (b : Band) : Word := 0x9E3779B9#32 * BitVec.ofNat 32 (b.val + 1)

/-- The number of active sections, order/2 (10 R56, 40 R202). -/
def activeSections (o : FilterOrder) : Nat :=
  match o with
  | .o2 => 1
  | .o4 => 2
  | .o6 => 3
  | .o8 => 4

/-- The place of a design in DESIGN_Q. -/
def designIndex (d : Design) : Fin NDESIGN :=
  match d with
  | .d0 => 0
  | .d1 => 1
  | .d2 => 2

/-- The place of an order in a row of DESIGN_Q. -/
def orderIndex (o : FilterOrder) : Fin 4 :=
  match o with
  | .o2 => 0
  | .o4 => 1
  | .o6 => 2
  | .o8 => 3

/-- `DESIGN_Q[d][o][k]` of a machine (40 R203). -/
def designQ (p : Literals) (d : Design) (o : FilterOrder) (k : Sec) : F32 := p.designQ[designIndex d][orderIndex o][k]

/-- The default DESIGN_Q table of 40 R203 (bit patterns as there and in 95 V-FB-0). An inactive section has no Q; its entry 0 is
never read, since FILTER.CONFIGURE writes only active sections (40 R206). -/
def designQTable : Vector (Vector (Vector F32 NSEC) 4) NDESIGN :=
  #v[#v[#v[0x3F3504F3#32, 0, 0, 0],
        #v[0x3F0A8BD4#32, 0x3FA73D75#32, 0, 0],
        #v[0x3F0483EE#32, 0x3F3504F3#32, 0x3FF746EA#32, 0],
        #v[0x3F0281F7#32, 0x3F19F1BD#32, 0x3F6664D7#32, 0x402406CF#32]],
     #v[#v[0x3F000000#32, 0, 0, 0],
        #v[0x3F3504F3#32, 0x3F3504F3#32, 0, 0],
        #v[0x3F000000#32, 0x3F800000#32, 0x3F800000#32, 0],
        #v[0x3F0A8BD4#32, 0x3FA73D75#32, 0x3F0A8BD4#32, 0x3FA73D75#32]],
     #v[#v[0x3F13C9EF#32, 0, 0, 0],
        #v[0x3F059B3D#32, 0x3F4E353F#32, 0, 0],
        #v[0x3F02A305#32, 0x3F1C779A#32, 0x3F82FEC5#32, 0],
        #v[0x3F018937#32, 0x3F0F41F2#32, 0x3F35FD8B#32, 0x3F9CE704#32]]]

/-- The spec's defaults of the literals (00 R7). A decimal enters as its nearest binary32 value (00 R20). -/
def Literals.default : Literals :=
  { freq := freqTable
    noiseSeed := #v[noiseSeed 0, noiseSeed 1, noiseSeed 2, noiseSeed 3, noiseSeed 4, noiseSeed 5, noiseSeed 6, noiseSeed 7,
      noiseSeed 8, noiseSeed 9, noiseSeed 10, noiseSeed 11, noiseSeed 12, noiseSeed 13, noiseSeed 14, noiseSeed 15]
    designQ := designQTable
    orderMin := .o2
    orderMax := .o8
    fcGain := 0x40A00000#32      -- 5.0
    fcLfo := 0x3F800000#32       -- 1.0
    fcSlow := 0x3DCCCCCD#32      -- 0.1
    fsMin := 0x45FA0000#32       -- 8000.0
    fsMax := 0x483B8000#32       -- 192000.0
    blockMax := 4096
    dlen := 524288
    delayMaxS := 0x40000000#32   -- 2.0
    gainMax := 0x40000000#32     -- 2.0
    fbMax := 0x3F7D70A4#32       -- 0.99
    lfoTMin := 0x3DCCCCCD#32     -- 0.1
    lfoTMax := 0x42C80000#32     -- 100.0
    freqClamp := 0x3EE66666#32   -- 0.45
    dcR := 0x3F7EB852#32 }       -- 0.995

/-- The parameters at the values that State.reset has: the spec's defaults, and for the two that have none (D4, D49) IEEE, the
spec's reference setting, and streams without bound (log 1 to 4). -/
def Platform.default : Platform := { denorm := .ieee, depth := none, unit := .reference, lits := Literals.default }

/-- `FEFF(b) = fmin(FREQ[b], fmul(FREQ_CLAMP, SR))` (40 R201). -/
def effFreq (cfg : Platform) (sr : F32) (b : Band) : F32 := fmin cfg.lits.freq[b] (fmul cfg.denorm cfg.lits.freqClamp sr)

end Sys2Proof.Machine
end

