-- ==== Sys2Proof/Machine/State.lean ====
section
/-! DEFINITION. The state of SJF-SPCORE (10_state.md), its faults and refusals, and its power-on reset (10 R80, 70 R550).
INVENTORY.md lists every field with the rule that names it. -/

namespace Sys2Proof.Machine

/-- The ten parameter fields of one band (10 R50). -/
structure BandParams where
  gain     : F32
  pol      : Bool
  lfoRate  : F32
  lfoDepth : F32
  lfoOfs   : F32
  lfoEn    : Bool
  dlyTime  : F32
  dlyFb    : F32
  dlyMix   : F32
  dlyEn    : Bool
  deriving DecidableEq, Repr, Inhabited

/-- One set of parameters: the per-band register file (10 R50) and the global selectors (10 R52). State holds two of
them, staging and active (10 R51). -/
structure ParamSet where
  band   : Bank BandParams
  design : Design
  order  : FilterOrder
  route  : Route
  wave   : Wave
  deriving DecidableEq, Repr

/-- The stored bits of STATUS (10 R54). BUSY is E.mode and bits 31..16 are hardwired 0, so neither is stored. -/
structure Status where
  initDone : Bool
  err      : Bool
  errOvf   : Bool
  errCode  : BitVec 4
  errOp    : BitVec 8
  deriving DecidableEq, Repr

/-- `E.mode` (10 R41). -/
inductive Mode where
  | idle | running
  deriving DecidableEq, Repr

/-- One biquad section: its coefficients and its two transposed-direct-form-II taps (10 R56). -/
structure Section where
  coef : Coef
  s1   : F32
  s2   : F32
  deriving DecidableEq, Repr, Inhabited

/-- `F[c][b]`: the four sections of one filter (10 R56). -/
abbrev Filter := Vector Section NSEC

/-- The coefficient key K (10 R58). -/
structure CoefKey where
  valid  : Bool
  design : Design
  order  : FilterOrder
  fs     : F32
  deriving DecidableEq, Repr

/-- `L[b]`: one LFO (10 R59). -/
structure Lfo where
  ph  : Word
  inc : Word
  rng : Word
  np  : F32
  nn  : F32
  deriving DecidableEq, Repr, Inhabited

/-- `D[c][b]`: the write cursor and the last feedback sample of one delay line (10 R60), and the model's own mark
`known`: a DELAY.CLEAR has defined the line's words since power-on (10 R80, 93 I7; log 8). -/
structure DelayLine where
  w     : Nat
  fb    : F32
  known : Bool
  deriving DecidableEq, Repr, Inhabited

/-- The delay RAM (20 R100): (byte address, byte) pairs, addresses strictly rising, no byte listed that equals what an
unlisted address reads as (log 9, 10). -/
abbrev Memory := List Host.Cell

/-- The three smoother coefficients A (10 R62). -/
structure SmoothCoefs where
  gain : F32
  lfo  : F32
  slow : F32
  deriving DecidableEq, Repr

/-- `Y[b]`: the six smoother outputs of one band (10 R62). -/
structure Smoothers where
  gain : F32
  lfo  : F32
  dt   : F32
  fb   : F32
  wet  : F32
  dry  : F32
  deriving DecidableEq, Repr, Inhabited

/-- `DC[c]`: previous input and previous output of one DC blocker (10 R63). -/
structure DcState where
  x1 : F32
  y1 : F32
  deriving DecidableEq, Repr, Inhabited

/-- A transfer of the host, one word on one port (20 R104): a word to CMD, a word to AIN, a word from RESP, a word from AOUT. -/
inductive HostAct where
  | sendCmd (w : Word)
  | sendSample (w : Word)
  | takeResp
  | takeSample
  deriving DecidableEq, Repr

/-- The whole machine. -/
structure State where
  /-- The parameters a machine takes as arguments (the model's own field; no step writes it; log 1, 2, 3, 4). -/
  cfg     : Platform
  /-- S: the staging set (10 R51, R52). -/
  staging : ParamSet
  /-- P and G: the active set (10 R51, R52). -/
  active  : ParamSet
  /-- SR (10 R53). -/
  sr      : F32
  /-- STATUS (10 R54). -/
  status  : Status
  /-- E.mode (10 R41). -/
  mode    : Mode
  /-- E.left (10 R41). -/
  left    : Nat
  /-- The output frame the engine has computed and is waiting to push (44 R350, 20 R112; log 13). -/
  out     : Option AudioFrame
  /-- F (10 R56). -/
  filters : Lanes Filter
  /-- K (10 R58). -/
  key     : CoefKey
  /-- L (10 R59). -/
  lfo     : Bank Lfo
  /-- D (10 R60). -/
  lines   : Lanes DelayLine
  /-- The delay RAM (20 R100). -/
  mem     : Memory
  /-- DMAX (10 R61). -/
  dmax    : Nat
  /-- A (10 R62). -/
  coefs   : SmoothCoefs
  /-- Y (10 R62). -/
  smooth  : Bank Smoothers
  /-- DC (10 R63). -/
  dc      : Vector DcState 2
  /-- CMD (20 R104): the words of command pairs, oldest first, CW before DATA (30 R140). -/
  cmd     : List Word
  /-- RESP (20 R104): response words, oldest first. -/
  resp    : List Word
  /-- AIN (20 R104): the words of input frames, oldest first, channel 0 before channel 1. -/
  ain     : List Word
  /-- AOUT (20 R104): the words of output frames, oldest first, channel 0 before channel 1. -/
  aout    : List Word
  /-- The transfers the host is still going to make, first one first (the model's own field; log 12). -/
  host    : List HostAct
  /-- Which agents win the next contested steps (the model's own field; log 11). -/
  sched   : List Agent
  /-- How many contested steps there have been (the model's own field; log 11). -/
  turns   : Nat
  deriving DecidableEq, Repr

/-- Why the machine stops. The spec has no trap (60 R510); its errors are next states (60 R503). -/
inductive Fault where
  /-- Raised by the engine when a frame would read a delay line whose words nothing has defined since power-on. The spec:
  "a read of it before that overwrite is a fault in the model" (10 R80). Safe: no run from reset reaches it. -/
  | unspecifiedDelayWord
  deriving DecidableEq, Repr

/-- Why a step has no meaning. -/
inductive Refusal where
  /-- Raised by exec for a command that has no meaning yet. Safe: nothing is claimed of it. -/
  | notModelled (mnemonic : String)
  deriving DecidableEq, Repr

/-- What a step answers. -/
abbrev Result := Host.Outcome State Fault Refusal

/-! ### Power-on reset (10 R80, 70 R550) -/

/-- The reset parameters of a band. -/
def BandParams.reset : BandParams :=
  { gain := one, pol := false, lfoRate := posZero, lfoDepth := posZero, lfoOfs := posZero, lfoEn := false,
    dlyTime := posZero, dlyFb := posZero, dlyMix := posZero, dlyEn := false }

/-- The reset parameter set, of both copies. -/
def ParamSet.reset : ParamSet :=
  { band := Vector.replicate 16 BandParams.reset, design := .d0, order := .o2, route := .all, wave := .sine }

/-- A section after reset: taps +0.0; the coefficients are unspecified and the model names zeros (DESIGN CHOICE, log 7). -/
def Section.reset : Section := { coef := ⟨posZero, posZero, posZero, posZero, posZero⟩, s1 := posZero, s2 := posZero }

/-- The LFO of a band with this seed after reset. -/
def Lfo.reset (seed : Word) : Lfo := { ph := 0#32, inc := 0#32, rng := seed, np := posZero, nn := posZero }

/-- The smoother outputs of a band after reset: the targets of the reset parameters (10 R81). -/
def Smoothers.reset : Smoothers :=
  { gain := one, lfo := posZero, dt := posZero, fb := posZero, wet := posZero, dry := one }

/-- The machine with these parameters right after power-on reset. -/
def State.resetOf (cfg : Platform) : State :=
  { cfg := cfg
    staging := ParamSet.reset
    active := ParamSet.reset
    sr := posZero
    status := { initDone := false, err := false, errOvf := false, errCode := 0#4, errOp := 0#8 }
    mode := .idle
    left := 0
    out := none
    filters := Vector.replicate 2 (Vector.replicate 16 (Vector.replicate 4 Section.reset))
    key := { valid := false, design := .d0, order := .o2, fs := posZero }   -- all but valid: DESIGN CHOICE, log 7
    lfo :=
      let r (b : Band) := Lfo.reset cfg.lits.noiseSeed[b]
      #v[r 0, r 1, r 2, r 3, r 4, r 5, r 6, r 7, r 8, r 9, r 10, r 11, r 12, r 13, r 14, r 15]
    lines := Vector.replicate 2 (Vector.replicate 16 { w := 0, fb := posZero, known := false })
    mem := []
    dmax := 0   -- DESIGN CHOICE, log 7
    coefs := { gain := posZero, lfo := posZero, slow := posZero }   -- DESIGN CHOICE, log 7
    smooth := Vector.replicate 16 Smoothers.reset
    dc := Vector.replicate 2 { x1 := posZero, y1 := posZero }
    cmd := []
    resp := []
    ain := []
    aout := []
    host := []
    sched := []
    turns := 0 }

/-- The machine right after power-on reset, with the parameters at their defaults (DESIGN CHOICE, log 1, 2, 3, 4). -/
def State.reset : State := State.resetOf Platform.default

end Sys2Proof.Machine
end

