-- ==== Sys2Proof/Machine/Ops.lean ====
section
/-! DEFINITION. The named operations over the delay RAM, the register arrays and the ports, taking a command off CMD, and
`raise Error(code)`, the one way this hardware records an error (60 R503). -/

namespace Sys2Proof.Machine

/-! ### Arrays by channel and band -/

/-- Entry (c, b). -/
def laneGet {α : Type} (g : Lanes α) (c : Chan) (b : Band) : α := g[c][b]

/-- The array with entry (c, b) replaced. -/
def laneSet {α : Type} (g : Lanes α) (c : Chan) (b : Band) (x : α) : Lanes α := g.set c (g[c].set b x)

/-- The array whose entry b is f b. -/
def bankOf {α : Type} (f : Band → α) : Bank α :=
  #v[f 0, f 1, f 2, f 3, f 4, f 5, f 6, f 7, f 8, f 9, f 10, f 11, f 12, f 13, f 14, f 15]

/-- The array whose entry (c, b) is f c b. -/
def lanesOf {α : Type} (f : Chan → Band → α) : Lanes α := #v[bankOf (f 0), bankOf (f 1)]

/-! ### The delay RAM (20 R100), byte by byte -/

/-- What a byte that is not listed reads as: a cleared line is +0.0 throughout (42 R287; log 10). -/
def unlistedByte : Byte := 0x00#8

/-- The memory has its canonical form: addresses strictly rising, no entry equal to what an unlisted address reads as. -/
abbrev Memory.wf (m : Memory) : Prop := m.Pairwise (fun x y => x.1 < y.1) ∧ ∀ x ∈ m, x.2 ≠ unlistedByte

/-- Reading one byte. -/
def readByte : Memory → Nat → Byte
  | [], _ => unlistedByte
  | (k, x) :: rest, a => if k = a then x else readByte rest a

/-- An entry in front of a memory, unless it says what an unlisted address reads as anyway. -/
def listByte (a : Nat) (v : Byte) (m : Memory) : Memory := if v = unlistedByte then m else (a, v) :: m

/-- Writing one byte. -/
def writeByte : Memory → Nat → Byte → Memory
  | [], a, v => listByte a v []
  | (k, x) :: rest, a, v =>
    if a < k then listByte a v ((k, x) :: rest)
    else if a = k then listByte a v rest
    else (k, x) :: writeByte rest a v

/-- Every byte whose address p picks set to what an unlisted address reads as. -/
def clearBytes (m : Memory) (p : Nat → Bool) : Memory := m.filter (fun x => !p x.1)

/-- The byte address of word i of line (c, b): four bytes a word, the words i of all 32 lines together (log 9). -/
def wordAddr (c : Chan) (b : Band) (i : Nat) : Nat := 128 * i + 64 * c.val + 4 * b.val

/-- The byte at address a belongs to line (c, b): to one of its words 0 to DLEN - 1 (20 R100; log 9). -/
abbrev inLine (dlen : Nat) (c : Chan) (b : Band) (a : Nat) : Prop := a / 4 % 32 = 16 * c.val + b.val ∧ a < 128 * dlen

/-- `DRead(c, b, i)` = `MemRead((c,b,i), 4)` (00 R11), least significant byte first (20 R107). -/
def dRead (m : Memory) (c : Chan) (b : Band) (i : Nat) : F32 :=
  let a := wordAddr c b i
  wordOfBytes (readByte m a) (readByte m (a + 1)) (readByte m (a + 2)) (readByte m (a + 3))

/-- `DWrite(c, b, i, v)` = `MemWrite((c,b,i), 4, v)` (00 R11). -/
def dWrite (m : Memory) (c : Chan) (b : Band) (i : Nat) (v : F32) : Memory :=
  let a := wordAddr c b i
  writeByte (writeByte (writeByte (writeByte m a (byteOfWord v 0)) (a + 1) (byteOfWord v 1)) (a + 2) (byteOfWord v 2))
    (a + 3) (byteOfWord v 3)

/-- `for i in 0 .. DLEN-1: DWrite(c, b, i, +0.0)` (42 R287). -/
def clearWords (m : Memory) (dlen : Nat) (c : Chan) (b : Band) : Memory :=
  clearBytes m (fun a => decide (inLine dlen c b a))

/-! ### Ports (20 R105) -/

/-- The words that pass CMD, AIN and AOUT as one unit at the core's end: a command pair, a frame (20 R109). -/
abbrev pairWords : Nat := 2

/-- A stream can hold n words, when the core takes or puts `unit` words at once. STREAM_DEPTH counts words and is at least 1;
a stream always has room for one unit (log 3). -/
def streamHolds (cfg : Platform) (unit n : Nat) : Bool :=
  match cfg.depth with
  | none => true
  | some d => decide (n ≤ max d unit)

/-- RESP cannot accept a word. -/
def respFull (s : State) : Bool := !streamHolds s.cfg 1 (s.resp.length + 1)

/-- AOUT cannot accept a frame. -/
def aoutFull (s : State) : Bool := !streamHolds s.cfg pairWords (s.aout.length + pairWords)

/-- The command at the head of CMD is taken off it: its two words are consumed (30 R140, 60 R504). -/
def retire (s : State) : State := { s with cmd := s.cmd.drop pairWords }

/-- The words of a frame on AIN and AOUT: channel 0, then channel 1 (20 R104). -/
def frameWords (y : AudioFrame) : List Word := [y.1, y.2]

/-- `RespPush(w)` (00 R13). -/
def respPush (w : Word) (s : State) : State := { s with resp := s.resp ++ [w] }

/-- A GET command that answers w: `hold while RESP full; RespPush(w)` (20 R112, 46 R462). Held, it stays on CMD. -/
def answerGet (w : Word) (s : State) : Result :=
  if respFull s then .next s else .next (respPush w (retire s))

/-! ### Errors (60 R501, R503) -/

/-- The error codes of 60 R501. -/
inductive ErrorCode where
  | illegalOp | rsvField | badRate | notInit | badLength
  deriving DecidableEq, Repr

/-- The number of an error, as written to STATUS.ERRCODE. -/
def errorNumber (e : ErrorCode) : BitVec 4 :=
  match e with
  | .illegalOp => 1#4
  | .rsvField => 2#4
  | .badRate => 3#4
  | .notInit => 4#4
  | .badLength => 5#4

/-- STATUS after `raise Error(code)` by a command with opcode op: the first error is kept, a later one sets ERR_OVF. -/
def Status.record (e : ErrorCode) (op : BitVec 8) (st : Status) : Status :=
  if st.err then { st with errOvf := true } else { st with err := true, errCode := errorNumber e, errOp := op }

/-- `raise Error(code)` (00 R12, 60 R503): the command at the head of CMD is discarded, STATUS records the error, nothing
else changes, and the stream goes on with the next command. There is no handler to go to and nothing to return
from (60 R510). -/
def raiseError (e : ErrorCode) (op : BitVec 8) (s : State) : State :=
  { retire s with status := s.status.record e op }

/-- The error of a pair that does not decode (30 R147). -/
def decodeErrorCode (e : DecodeError) : ErrorCode :=
  match e with
  | .illegalOp => .illegalOp
  | .rsvField => .rsvField

/-! ### The staging set (10 R51) -/

/-- The staged parameters of band b changed by f. -/
def stageBand (b : Band) (f : BandParams → BandParams) (s : State) : State :=
  { s with staging := { s.staging with band := s.staging.band.set b (f s.staging.band[b]) } }

/-- The staged global selectors changed by f. -/
def stageGlobal (f : ParamSet → ParamSet) (s : State) : State := { s with staging := f s.staging }

/-- The staged parameters of band b. -/
def staged (s : State) (b : Band) : BandParams := s.staging.band[b]

/-- The active parameters of band b. -/
def param (s : State) (b : Band) : BandParams := s.active.band[b]

end Sys2Proof.Machine
end

