-- ==== Sys2Proof/Machine/Operands.lean ====
section
/-! DEFINITION. The operand forms of 30 R145 and the clamps of 46 R451 and R472 to R475. -/

namespace Sys2Proof.Machine

/-- A flag operand: any non-zero immediate means 1 (30 R145). -/
def flagOf (imm : Nat) : Bool := decide (imm ≠ 0)

/-- `(imm != 0) ? 1 : 0` read back by a getter: `zext_32` of a flag (30 R146). -/
def flagWord (f : Bool) : Word := if f then 1#32 else 0#32

/-- -1.0, the lower bound of the LFO offset (10 R50). -/
def negOne : F32 := 0xBF800000#32

/-! ### The domains of the float fields (10 R50), each with its clamp (46 R451), under the machine's parameters -/

/-- gain: [0.0, GAIN_MAX]. -/
def clampGain (cfg : Platform) (x : F32) : F32 := fclamp cfg.denorm x posZero cfg.lits.gainMax
/-- lfoRate: [0.0, 1.0]. -/
def clampLfoRate (cfg : Platform) (x : F32) : F32 := fclamp cfg.denorm x posZero one
/-- lfoDepth: [0.0, 1.0]. -/
def clampLfoDepth (cfg : Platform) (x : F32) : F32 := fclamp cfg.denorm x posZero one
/-- lfoOfs: [-1.0, 1.0]. -/
def clampLfoOfs (cfg : Platform) (x : F32) : F32 := fclamp cfg.denorm x negOne one
/-- dlyTime: [0.0, DELAY_MAX_S]. -/
def clampDlyTime (cfg : Platform) (x : F32) : F32 := fclamp cfg.denorm x posZero cfg.lits.delayMaxS
/-- dlyFb: [0.0, FB_MAX]. -/
def clampDlyFb (cfg : Platform) (x : F32) : F32 := fclamp cfg.denorm x posZero cfg.lits.fbMax
/-- dlyMix: [0.0, 1.0]. -/
def clampDlyMix (cfg : Platform) (x : F32) : F32 := fclamp cfg.denorm x posZero one

/-! ### The global selectors (10 R52): clamped on write, `zext_32` of the integer value on read -/

/-- `min(imm, 2)` (46 R472). -/
def clampDesign (imm : Nat) : Design :=
  match min imm 2 with
  | 0 => .d0
  | 1 => .d1
  | _ => .d2

/-- `clamp(2·floor(imm/2), ORDER_MIN, ORDER_MAX)` (46 R473, 00 R7). -/
def clampOrder (p : Literals) (imm : Nat) : FilterOrder :=
  match max (2 * activeSections p.orderMin) (min (2 * (imm / 2)) (2 * activeSections p.orderMax)) with
  | 2 => .o2
  | 4 => .o4
  | 6 => .o6
  | _ => .o8

/-- `min(imm, 2)` (46 R474): 0 ALL, 1 ODD, 2 EVEN. -/
def clampRoute (imm : Nat) : Route :=
  match min imm 2 with
  | 0 => .all
  | 1 => .odd
  | _ => .even

/-- `min(imm, 1)` (46 R475): 0 SINE, 1 NOISE. -/
def clampWave (imm : Nat) : Wave :=
  match min imm 1 with
  | 0 => .sine
  | _ => .noise

/-- The register value of a design family (10 R52). -/
def designWord (d : Design) : Word :=
  match d with
  | .d0 => 0#32
  | .d1 => 1#32
  | .d2 => 2#32

/-- The register value of an order (10 R52). -/
def orderWord (o : FilterOrder) : Word :=
  match o with
  | .o2 => 2#32
  | .o4 => 4#32
  | .o6 => 6#32
  | .o8 => 8#32

/-- The register value of a routing mode (10 R52). -/
def routeWord (r : Route) : Word :=
  match r with
  | .all => 0#32
  | .odd => 1#32
  | .even => 2#32

/-- The register value of a waveform (10 R52). -/
def waveWord (w : Wave) : Word :=
  match w with
  | .sine => 0#32
  | .noise => 1#32

end Sys2Proof.Machine
end

