-- ==== Sys2Proof/Machine/Flags.lean ====
section
/-! DEFINITION. STATUS, the only flags of this hardware (10 R54). There are no condition flags and no arithmetic flags
(60 R506). -/

namespace Sys2Proof.Machine

/-- A flag as the bit at position n of a word. -/
def bitAt (f : Bool) (n : Nat) : Word := if f then 1#32 <<< n else 0#32

/-- BUSY: E.mode = RUNNING (10 R54). -/
def busy (s : State) : Bool := decide (s.mode = .running)

/-- The STATUS word as GET_STATUS reads it (10 R54): INIT_DONE bit 0, BUSY bit 1, ERR bit 2, ERR_OVF bit 3, ERRCODE bits
7:4, ERROP bits 15:8, zeros above. -/
def statusWord (s : State) : Word :=
  bitAt s.status.initDone 0 ||| bitAt (busy s) 1 ||| bitAt s.status.err 2 ||| bitAt s.status.errOvf 3
    ||| s.status.errCode.setWidth 32 <<< 4 ||| s.status.errOp.setWidth 32 <<< 8

/-- STATUS with its error fields cleared (45 R405). -/
def Status.cleared (st : Status) : Status :=
  { st with err := false, errOvf := false, errCode := 0#4, errOp := 0#8 }

end Sys2Proof.Machine
end

