-- ==== Sys2Proof/Machine/Delay.lean ====
section
/-! DEFINITION. The delay lines (42_delay_line.md): DELAY.SETTIME, READ, WRITE and CLEAR. -/

namespace Sys2Proof.Machine

/-- DELAY.SETTIME (42 R281): a time in seconds as a delay in samples, between 1 and DMAX. -/
def delaySetTime (dn : Denorm) (sr : F32) (dmax : Nat) (t : F32) : F32 := fclamp dn (fmul dn t sr) one (u2f dmax)

/-- The index j words behind the cursor: `(w - j) mod DLEN` (00 R15). -/
def behind (dlen w j : Nat) : Nat := (w + dlen - j % dlen) % dlen

/-- The value of DELAY.READ (42 R283): linear interpolation between the words written di and di+1 frames ago. -/
def delayValue (cfg : Platform) (m : Memory) (c : Chan) (b : Band) (w : Nat) (d : F32) : F32 :=
  let dn := cfg.denorm
  let di := ffloor d
  let fr := fsub dn d (u2f di)
  let s0 := dRead m c b (behind cfg.lits.dlen w di)
  let s1 := dRead m c b (behind cfg.lits.dlen w (di + 1))
  fadd dn s0 (fmul dn fr (fsub dn s1 s0))

/-- DELAY.READ(c, b, d) (42 R283): the value read is also kept as the line's last feedback sample; the cursor stays. -/
def delayRead (c : Chan) (b : Band) (d : F32) (s : State) : State × F32 :=
  let l := laneGet s.lines c b
  let r := delayValue s.cfg s.mem c b l.w d
  ({ s with lines := laneSet s.lines c b { l with fb := r } }, r)

/-- DELAY.WRITE(c, b, v) (42 R285): v at the cursor, unchanged, and the cursor one further, modulo DLEN. -/
def delayWrite (c : Chan) (b : Band) (v : F32) (s : State) : State :=
  let l := laneGet s.lines c b
  { s with mem := dWrite s.mem c b l.w v, lines := laneSet s.lines c b { l with w := (l.w + 1) % s.cfg.lits.dlen } }

/-- DELAY.CLEAR(c, b) (42 R287): every word +0.0, cursor and feedback sample zero. The line's words are defined from here
on (log 8). -/
def delayClear (c : Chan) (b : Band) (s : State) : State :=
  { s with mem := clearWords s.mem s.cfg.lits.dlen c b, lines := laneSet s.lines c b { w := 0, fb := posZero, known := true } }

/-- DELAY.CLEAR of all 32 lines (45 R402). -/
def delayClearAll (s : State) : State := chans.foldl (fun s c => bands.foldl (fun s b => delayClear c b s) s) s

/-- Step 4 of BLOCK.START (44 R381, 42 R289): both lines of each band whose active delay enable is 0 are cleared. -/
def delayClearDisabled (s : State) : State :=
  bands.foldl (fun s b => if (param s b).dlyEn then s else delayClear 1 b (delayClear 0 b s)) s

end Sys2Proof.Machine
end

