-- ==== Sys2Proof/Machine/Filter.lean ====
section
/-! DEFINITION. The band filter bank (40_filter_bank.md): FILTER.PROCESS, CONFIGURE, SECTION_CLEAR and UPDATE, and what R210 asks of BIQUAD_COEF. -/

namespace Sys2Proof.Machine

/-- A section with these coefficients is stable (40 R210): |a2| < 1 and |a1| < 1 + a2, on the exact values. 1.0 is 2^149 units. -/
def stableCoef (q : Coef) : Bool :=
  isFinite q.a1 && isFinite q.a2 &&
    decide ((valueOf q.a2).natAbs < 2 ^ 149 ∧ ((valueOf q.a1).natAbs : Int) < 2 ^ 149 + valueOf q.a2)

/-- One biquad section, transposed direct form II (40 R208): the section with its new taps, and its output. Each operation
is one rounding, in the written order (00 R17). -/
def sectionProcess (dn : Denorm) (q : Section) (v : F32) : Section × F32 :=
  let y := fadd dn (fmul dn q.coef.b0 v) q.s1
  ({ q with
      s1 := fadd dn (fsub dn (fmul dn q.coef.b1 v) (fmul dn q.coef.a1 y)) q.s2
      s2 := fsub dn (fmul dn q.coef.b2 v) (fmul dn q.coef.a2 y) }, y)

/-- FILTER.PROCESS (40 R208) of one filter with n active sections, in ascending order. -/
def filterProcess (dn : Denorm) (n : Nat) (f : Filter) (x : F32) : Filter × F32 :=
  (secs.take n).foldl (fun (acc : Filter × F32) (k : Sec) =>
    let r := sectionProcess dn acc.1[k] acc.2
    (acc.1.set k r.1, r.2)) (f, x)

/-- The filter whose section k is f k. -/
def secOf (f : Sec → Section) : Filter := #v[f 0, f 1, f 2, f 3]

/-- FILTER.CONFIGURE (40 R206) of one filter: the coefficients of its active sections are written, its taps and the
coefficients of inactive sections are left as they were. -/
def filterConfigure (cfg : Platform) (d : Design) (o : FilterOrder) (freq sr : F32) (t : BandType) (f : Filter) : Filter :=
  secOf fun k =>
    if k.val < activeSections o then { f[k] with coef := biquadCoef cfg.unit t freq sr (designQ cfg.lits d o k) } else f[k]

/-- FILTER.SECTION_CLEAR (40 R209) of one filter: the taps of sections kLo to kHi, both included, are zeroed. -/
def sectionClear (kLo kHi : Nat) (f : Filter) : Filter :=
  secOf fun k => if kLo ≤ k.val ∧ k.val ≤ kHi then { f[k] with s1 := posZero, s2 := posZero } else f[k]

/-- The coefficient key of the active parameters (10 R58). -/
def wantedKey (s : State) : CoefKey :=
  { valid := true, design := s.active.design, order := s.active.order, fs := s.sr }

/-- The first loop of FILTER.UPDATE (40 R207): an order decrease zeroes the sections it deactivates, in all 32 filters. -/
def filterDeactivate (s : State) : Lanes Filter :=
  if s.key.valid && decide (activeSections s.active.order < activeSections s.key.order) then
    lanesOf fun c b =>
      sectionClear (activeSections s.active.order) (activeSections s.key.order - 1) (laneGet s.filters c b)
  else s.filters

/-- FILTER.UPDATE (40 R207): nothing when the key agrees (a valid key of the same design, order and sample rate), else
the deactivated sections are cleared, all 32 filters are configured and the key is set. -/
def filterUpdate (s : State) : State :=
  if s.key = wantedKey s then s
  else
    let cleared := filterDeactivate s
    { s with
      filters := lanesOf fun c b =>
        filterConfigure s.cfg s.active.design s.active.order (effFreq s.cfg s.sr b) s.sr (bandType b)
          (laneGet cleared c b)
      key := wantedKey s }

/-- Every tap of every section zeroed, coefficients kept (45 R402). -/
def clearTaps (f : Filter) : Filter := sectionClear 0 3 f

end Sys2Proof.Machine
end

