-- ==== Sys2Proof/Machine/Lfo.lean ====
section
/-! DEFINITION. The LFO oscillators (41_lfo.md): LFO.SETRATE, SETOFFSET, SETTYPE, OUTPUT, ADVANCE and NOISE.NEXT. -/

namespace Sys2Proof.Machine

/-- `carry32(a, b)` = 1 (00 R15). -/
def carry32 (a b : Word) : Bool := decide (2 ^ 32 ≤ a.toNat + b.toNat)

/-- `XS32(s)` (41 R247): the 32-bit xorshift with shifts 13, 17, 5. -/
def xs32 (s : Word) : Word :=
  let s := s ^^^ (s <<< 13)
  let s := s ^^^ (s >>> 17)
  s ^^^ (s <<< 5)

/-- The noise point of a generator state (41 R247): the state as an int32, times 2^-31. -/
def noisePoint (dn : Denorm) (rng : Word) : F32 := fmul dn (i2f rng.toInt) 0x30000000#32

/-- LFO.ADVANCE with NOISE.NEXT (41 R247): the phase moves by the increment; a wrap draws the next noise point. -/
def lfoAdvance (dn : Denorm) (l : Lfo) : Lfo :=
  if carry32 l.ph l.inc then
    { l with ph := l.ph + l.inc, np := l.nn, rng := xs32 l.rng, nn := noisePoint dn (xs32 l.rng) }
  else { l with ph := l.ph + l.inc }

/-- `OFS32(o)` (41 R243, LFO.SETOFFSET): the offset in phase units, half a cycle at ±1. -/
def ofs32 (dn : Denorm) (o : F32) : Word := BitVec.ofInt 32 (roundToInt (fmul dn o 0x4F000000#32))

/-- The sine value at the present phase plus the offset (41 R245). -/
def sineValue (cfg : Platform) (ofs : F32) (l : Lfo) : F32 := lfoSin cfg.unit (l.ph + ofs32 cfg.denorm ofs)

/-- The noise value at the present phase (41 R246): from the previous noise point to the next. -/
def noiseValue (dn : Denorm) (l : Lfo) : F32 :=
  let fr := fmul dn (u2f (l.ph.toNat / 2 ^ 8)) 0x33800000#32
  fadd dn l.np (fmul dn (fsub dn l.nn l.np) fr)

/-- The value of LFO.OUTPUT (41 R245, R246): the waveform register selects the formula (LFO.SETTYPE, R244). -/
def lfoValue (cfg : Platform) (wave : Wave) (ofs : F32) (l : Lfo) : F32 :=
  match wave with
  | .sine => sineValue cfg ofs l
  | .noise => noiseValue cfg.denorm l

/-- LFO.SETRATE (41 R241) of every band (44 R381 step 3): the increment only, never the phase. LFO_INC takes the stored
rate as the datapath reads it, under FTZ a subnormal as a zero of its sign (46 R451, 00 R20; log 28). -/
def lfoSetRates (s : State) : State :=
  { s with lfo := bankOf fun b => { s.lfo[b] with inc := lfoInc s.cfg (flush s.cfg.denorm (param s b).lfoRate) s.sr } }

end Sys2Proof.Machine
end

