-- ==== Sys2Proof/Machine/Smoother.lean ====
section
/-! DEFINITION. The parameter smoothers (43_smoother.md): SMOOTH.SETCUTOFF and SMOOTH.PROCESS. -/

namespace Sys2Proof.Machine

/-- SMOOTH.SETCUTOFF (43 R321): the three coefficients from the sample rate; no smoother output is touched. -/
def smoothSetCutoff (s : State) : State :=
  { s with coefs := { gain := smoothCoef s.cfg.unit s.cfg.lits.fcGain s.sr
                      lfo := smoothCoef s.cfg.unit s.cfg.lits.fcLfo s.sr
                      slow := smoothCoef s.cfg.unit s.cfg.lits.fcSlow s.sr } }

/-- SMOOTH.PROCESS (43 R322): y + a·(t − y). -/
def smoothStep (dn : Denorm) (y a t : F32) : F32 := fadd dn y (fmul dn a (fsub dn t y))

/-- The signed gain target (43 R325): the polarity sign is applied before smoothing. -/
def gainTarget (dn : Denorm) (p : BandParams) : F32 := if p.pol then fneg dn p.gain else p.gain

/-- The six smoothers of a band after one frame (43 R325, R327; 44 R351), v being the LFO value of the frame. -/
def smoothBand (dn : Denorm) (a : SmoothCoefs) (p : BandParams) (v : F32) (y : Smoothers) : Smoothers :=
  { gain := smoothStep dn y.gain a.gain (gainTarget dn p)
    lfo := smoothStep dn y.lfo a.lfo (fmul dn p.lfoDepth v)
    dt := smoothStep dn y.dt a.slow p.dlyTime
    fb := smoothStep dn y.fb a.slow p.dlyFb
    wet := smoothStep dn y.wet a.slow (fsqrt dn p.dlyMix)
    dry := smoothStep dn y.dry a.slow (fsqrt dn (fsub dn one p.dlyMix)) }

end Sys2Proof.Machine
end

