-- ==== Sys2Proof/Machine/Mixdown.lean ====
section
/-! DEFINITION. One frame (44 R350 to R359): BAND.MODULATE, BAND.FILTER, BAND.DELAY, ROUTE.SELECT, MIX.SUM and
DCBLOCK.PROCESS. -/

namespace Sys2Proof.Machine

/-- BAND.MODULATE(b) (44 R351): the band's LFO gives its value and advances, and its six smoothers advance once, whatever
the enables and the routing are (41 R249, 43 R327). -/
def modulate (s : State) (b : Band) : State :=
  let v := lfoValue s.cfg s.active.wave (param s b).lfoOfs s.lfo[b]
  { s with
    lfo := s.lfo.set b (lfoAdvance s.cfg.denorm s.lfo[b])
    smooth := s.smooth.set b (smoothBand s.cfg.denorm s.coefs (param s b) v s.smooth[b]) }

/-- The per-frame value g[b] (44 R351), read off the smoother outputs that BAND.MODULATE has just advanced (10 R64). -/
def bandGain (s : State) (b : Band) : F32 :=
  let y := s.smooth[b]
  if (param s b).lfoEn then fmul s.cfg.denorm y.gain (fadd s.cfg.denorm one y.lfo) else y.gain

/-- The per-frame value d[b] (44 R351): the delay in samples. -/
def bandTime (s : State) (b : Band) : F32 := delaySetTime s.cfg.denorm s.sr s.dmax s.smooth[b].dt

/-- BAND.FILTER(c, b, x) (44 R352). -/
def bandFilter (c : Chan) (b : Band) (x : F32) (s : State) : State × F32 :=
  let r := filterProcess s.cfg.denorm (activeSections s.active.order) (laneGet s.filters c b) x
  ({ s with filters := laneSet s.filters c b r.1 }, fmul s.cfg.denorm r.2 (bandGain s b))

/-- BAND.DELAY(c, b, f) (44 R353): read, then write, then mix when the delay is enabled; else the filtered sample. -/
def bandDelay (c : Chan) (b : Band) (f : F32) (s : State) : State × F32 :=
  if (param s b).dlyEn then
    let dn := s.cfg.denorm
    let y := s.smooth[b]
    let rd := delayRead c b (bandTime s b) s
    let s2 := delayWrite c b (fadd dn f (fmul dn rd.2 y.fb)) rd.1
    (s2, fadd dn (fmul dn rd.2 y.wet) (fmul dn f y.dry))
  else (s, f)

/-- ROUTE.SELECT(route, b) (44 R354). -/
def routeSelect (r : Route) (b : Band) : Bool :=
  match r with
  | .all => true
  | .odd => decide (b.val % 2 = 1)
  | .even => decide (b.val % 2 = 0)

/-- One band of one channel: filter, delay, and the contribution added to the channel sum if it is routed (44 R355). -/
def laneStep (c : Chan) (x : F32) (acc : State × F32) (b : Band) : State × F32 :=
  let f := bandFilter c b x acc.1
  let q := bandDelay c b f.2 f.1
  (q.1, if routeSelect q.1.active.route b then fadd q.1.cfg.denorm acc.2 q.2 else acc.2)

/-- The value of DCBLOCK.PROCESS (44 R356). -/
def dcValue (cfg : Platform) (d : DcState) (x : F32) : F32 :=
  fadd cfg.denorm (fsub cfg.denorm x d.x1) (fmul cfg.denorm cfg.lits.dcR d.y1)

/-- DCBLOCK.PROCESS(c, x) (44 R356). -/
def dcBlock (c : Chan) (x : F32) (s : State) : State × F32 :=
  let y := dcValue s.cfg s.dc[c] x
  ({ s with dc := s.dc.set c { x1 := x, y1 := y } }, y)

/-- One channel of a frame (44 R350): all bands in ascending order, summed from +0.0, then the DC blocker. -/
def channelFrame (c : Chan) (x : F32) (s : State) : State × F32 :=
  let r := bands.foldl (laneStep c x) (s, posZero)
  dcBlock c r.2 r.1

/-- FRAME (44 R350) from the frame taken by InPop to the frame to push: the bands are modulated, then channel 0, then
channel 1. The output frame stands in E.out until OutPush takes it. -/
def frame (x : AudioFrame) (s : State) : State :=
  let s1 := bands.foldl modulate s
  let r0 := channelFrame 0 x.1 s1
  let r1 := channelFrame 1 x.2 r0.1
  { r1.1 with out := some (r0.2, r1.2) }

/-- Every delay line that a frame reads has defined words (10 R80; log 8). -/
def framesReadable (s : State) : Bool :=
  chans.all fun c => bands.all fun b => !(param s b).dlyEn || (laneGet s.lines c b).known

end Sys2Proof.Machine
end

