-- ==== Sys2Proof/Machine/Block.lean ====
section
/-! DEFINITION. The block schedule (44 R380 to R384): BLOCK.START, the engine's moves (FRAME and OutPush), BLOCK.END. -/

namespace Sys2Proof.Machine

/-- Step 1 of BLOCK.START (44 R381): the active set is loaded from the staging set. -/
def latch (s : State) : State := { s with active := s.staging }

/-- BLOCK.START(n) (44 R381): latch, coefficient update, LFO rates, clearing of disabled lines, RUNNING with n frames. -/
def blockStart (n : Nat) (s : State) : State :=
  { delayClearDisabled (lfoSetRates (filterUpdate (latch s))) with mode := .running, left := n }

/-- BLOCK.END (44 R383): only E.mode changes. -/
def blockEnd (s : State) : State := { s with mode := .idle }

/-- `OutPush(y0, y1)`, then `E.left <- E.left - 1`, then BLOCK.END once no frame is left (44 R350, R382, R383). -/
def outPush (y : AudioFrame) (s : State) : State :=
  let s1 := { s with aout := s.aout ++ frameWords y, out := none, left := s.left - 1 }
  if s1.left = 0 then blockEnd s1 else s1

/-- The engine can move: a block runs, and it neither waits in InPop nor in OutPush (20 R112). -/
def engineReady (s : State) : Bool :=
  match s.mode with
  | .idle => false
  | .running =>
    if s.left = 0 then true
    else match s.out with
      | some _ => !aoutFull s
      | none => decide (pairWords ≤ s.ain.length)

/-- One move of the engine (44 R382): the next frame is taken and computed, or a computed frame is pushed. With no frame
left the block ends. Waiting, it leaves everything as it is. -/
def engineMove (s : State) : Result :=
  match s.mode with
  | .idle => .next s
  | .running =>
    if s.left = 0 then .next (blockEnd s)
    else match s.out with
      | some y => if aoutFull s then .next s else .next (outPush y s)
      | none =>
        match s.ain with
        | x0 :: x1 :: rest =>
          if framesReadable s then .next (frame (x0, x1) { s with ain := rest }) else .fault .unspecifiedDelayWord
        | _ => .next s

end Sys2Proof.Machine
end

