-- ==== Sys2Proof/Machine/BandParam.lean ====
section
/-! DEFINITION. The per-band setters and getters (46 R450 to R471). Setters write the staging copy only, getters read it. -/

namespace Sys2Proof.Machine

/-- SET_GAIN b, x (46 R452). -/
def execSetGain (b : Band) (x : F32) (s : State) : Result :=
  .next (stageBand b (fun p => { p with gain := clampGain s.cfg x }) (retire s))

/-- SET_POL b, f (46 R453). -/
def execSetPol (b : Band) (imm : Nat) (s : State) : Result :=
  .next (stageBand b (fun p => { p with pol := flagOf imm }) (retire s))

/-- SET_LFO_RATE b, x (46 R454). -/
def execSetLfoRate (b : Band) (x : F32) (s : State) : Result :=
  .next (stageBand b (fun p => { p with lfoRate := clampLfoRate s.cfg x }) (retire s))

/-- SET_LFO_DEPTH b, x (46 R455). -/
def execSetLfoDepth (b : Band) (x : F32) (s : State) : Result :=
  .next (stageBand b (fun p => { p with lfoDepth := clampLfoDepth s.cfg x }) (retire s))

/-- SET_LFO_OFS b, x (46 R456). -/
def execSetLfoOfs (b : Band) (x : F32) (s : State) : Result :=
  .next (stageBand b (fun p => { p with lfoOfs := clampLfoOfs s.cfg x }) (retire s))

/-- SET_LFO_EN b, f (46 R457). -/
def execSetLfoEn (b : Band) (imm : Nat) (s : State) : Result :=
  .next (stageBand b (fun p => { p with lfoEn := flagOf imm }) (retire s))

/-- SET_DLY_TIME b, x (46 R458). -/
def execSetDlyTime (b : Band) (x : F32) (s : State) : Result :=
  .next (stageBand b (fun p => { p with dlyTime := clampDlyTime s.cfg x }) (retire s))

/-- SET_DLY_FB b, x (46 R459). -/
def execSetDlyFb (b : Band) (x : F32) (s : State) : Result :=
  .next (stageBand b (fun p => { p with dlyFb := clampDlyFb s.cfg x }) (retire s))

/-- SET_DLY_MIX b, x (46 R460). -/
def execSetDlyMix (b : Band) (x : F32) (s : State) : Result :=
  .next (stageBand b (fun p => { p with dlyMix := clampDlyMix s.cfg x }) (retire s))

/-- SET_DLY_EN b, f (46 R461). -/
def execSetDlyEn (b : Band) (imm : Nat) (s : State) : Result :=
  .next (stageBand b (fun p => { p with dlyEn := flagOf imm }) (retire s))

/-- GET_GAIN b (46 R462). -/
def execGetGain (b : Band) (s : State) : Result := answerGet (staged s b).gain s

/-- GET_POL b (46 R463). -/
def execGetPol (b : Band) (s : State) : Result := answerGet (flagWord (staged s b).pol) s

/-- GET_LFO_RATE b (46 R464). -/
def execGetLfoRate (b : Band) (s : State) : Result := answerGet (staged s b).lfoRate s

/-- GET_LFO_DEPTH b (46 R465). -/
def execGetLfoDepth (b : Band) (s : State) : Result := answerGet (staged s b).lfoDepth s

/-- GET_LFO_OFS b (46 R466). -/
def execGetLfoOfs (b : Band) (s : State) : Result := answerGet (staged s b).lfoOfs s

/-- GET_LFO_EN b (46 R467). -/
def execGetLfoEn (b : Band) (s : State) : Result := answerGet (flagWord (staged s b).lfoEn) s

/-- GET_DLY_TIME b (46 R468). -/
def execGetDlyTime (b : Band) (s : State) : Result := answerGet (staged s b).dlyTime s

/-- GET_DLY_FB b (46 R469). -/
def execGetDlyFb (b : Band) (s : State) : Result := answerGet (staged s b).dlyFb s

/-- GET_DLY_MIX b (46 R470). -/
def execGetDlyMix (b : Band) (s : State) : Result := answerGet (staged s b).dlyMix s

/-- GET_DLY_EN b (46 R471). -/
def execGetDlyEn (b : Band) (s : State) : Result := answerGet (flagWord (staged s b).dlyEn) s

end Sys2Proof.Machine
end

