-- ==== Sys2Proof/Machine/Global.lean ====
section
/-! DEFINITION. The global setters and getters (46 R472 to R479). -/

namespace Sys2Proof.Machine

/-- SET_DESIGN (46 R472). -/
def execSetDesign (imm : Nat) (s : State) : Result :=
  .next (stageGlobal (fun g => { g with design := clampDesign imm }) (retire s))

/-- SET_ORDER (46 R473). -/
def execSetOrder (imm : Nat) (s : State) : Result :=
  .next (stageGlobal (fun g => { g with order := clampOrder s.cfg.lits imm }) (retire s))

/-- SET_ROUTE (46 R474). -/
def execSetRoute (imm : Nat) (s : State) : Result :=
  .next (stageGlobal (fun g => { g with route := clampRoute imm }) (retire s))

/-- SET_WAVE (46 R475). -/
def execSetWave (imm : Nat) (s : State) : Result :=
  .next (stageGlobal (fun g => { g with wave := clampWave imm }) (retire s))

/-- GET_DESIGN (46 R476). -/
def execGetDesign (s : State) : Result := answerGet (designWord s.staging.design) s

/-- GET_ORDER (46 R477). -/
def execGetOrder (s : State) : Result := answerGet (orderWord s.staging.order) s

/-- GET_ROUTE (46 R478). -/
def execGetRoute (s : State) : Result := answerGet (routeWord s.staging.route) s

/-- GET_WAVE (46 R479). -/
def execGetWave (s : State) : Result := answerGet (waveWord s.staging.wave) s

end Sys2Proof.Machine
end

