-- ==== Sys2Proof/Machine/System.lean ====
section
/-! DEFINITION. The system commands (45_system_commands.md): NOP, INIT, BLOCK, GET_STATUS, CLR_STATUS, GET_SR. A meaning takes
its command off CMD, or leaves it there while it holds (20 R112). -/

namespace Sys2Proof.Machine

/-- The sample rates INIT accepts (45 R402): FS_MIN <= fs <= FS_MAX, false for a NaN. -/
def legalRate (p : Literals) (fs : F32) : Bool := fle p.fsMin fs && fle fs p.fsMax

/-- The platform's BIQUAD_COEF, DESIGN_Q, FREQ and FREQ_CLAMP conform to 40 R210: every active section of every design, order and band is stable
at every sample rate INIT accepts. A platform that breaks it is non-conforming; a claim that needs stable filters has
this as its premise (log 4). -/
def conformingPlatform (cfg : Platform) : Prop :=
  ∀ (fs : F32) (d : Design) (o : FilterOrder) (b : Band) (k : Sec), legalRate cfg.lits fs = true → k.val < activeSections o →
    stableCoef (biquadCoef cfg.unit (bandType b) (effFreq cfg fs b) fs (designQ cfg.lits d o k)) = true

/-- `min(ffloor(fmul(DELAY_MAX_S, SR)), DLEN - 2)` (10 R61). -/
def dmaxOf (cfg : Platform) (sr : F32) : Nat :=
  min (ffloor (fmul cfg.denorm cfg.lits.delayMaxS sr)) (cfg.lits.dlen - 2)

/-- The effect of an accepted INIT (45 R402). -/
def initEffect (fs : F32) (s : State) : State :=
  let s1 := smoothSetCutoff { s with sr := fs }
  let s2 := delayClearAll { s1 with dmax := dmaxOf s1.cfg s1.sr }
  { s2 with
    filters := lanesOf fun c b => clearTaps (laneGet s2.filters c b)
    dc := Vector.replicate 2 { x1 := posZero, y1 := posZero }
    key := { s2.key with valid := false }
    status := { s2.status with initDone := true } }

/-- NOP (45 R401). -/
def execNop (s : State) : Result := .next (retire s)

/-- INIT fs (45 R402): holds while a block runs, then BAD_RATE or the initialisation. -/
def execInit (fs : F32) (s : State) : Result :=
  if s.mode = .running then .next s
  else if legalRate s.cfg.lits fs then .next (initEffect fs (retire s))
  else .next (raiseError .badRate 0x01#8 s)

/-- BLOCK n (45 R403): holds while a block runs, then NOT_INIT, then BAD_LENGTH, then nothing for n = 0, else BLOCK.START. -/
def execBlock (n : Nat) (s : State) : Result :=
  if s.mode = .running then .next s
  else if !s.status.initDone then .next (raiseError .notInit 0x02#8 s)
  else if s.cfg.lits.blockMax < n then .next (raiseError .badLength 0x02#8 s)
  else if n = 0 then .next (retire s)
  else .next (blockStart n (retire s))

/-- GET_STATUS (45 R404). -/
def execGetStatus (s : State) : Result := answerGet (statusWord s) s

/-- CLR_STATUS (45 R405). -/
def execClrStatus (s : State) : Result := .next { retire s with status := s.status.cleared }

/-- GET_SR (45 R406). -/
def execGetSr (s : State) : Result := answerGet s.sr s

end Sys2Proof.Machine
end

