-- ==== Sys2Proof/Machine/Dispatch.lean ====
section
/-! DEFINITION. One arm for each command: a direct call of its meaning. -/

namespace Sys2Proof.Machine

def exec (i : Instr) (s : State) : Host.Outcome State Fault Refusal :=
  match i with
  | .nop => Sys2Proof.Machine.execNop s
  | .init fs => Sys2Proof.Machine.execInit fs s
  | .block n => Sys2Proof.Machine.execBlock n s
  | .getStatus => Sys2Proof.Machine.execGetStatus s
  | .clrStatus => Sys2Proof.Machine.execClrStatus s
  | .getSr => Sys2Proof.Machine.execGetSr s
  | .setGain b x => Sys2Proof.Machine.execSetGain b x s
  | .setPol b imm => Sys2Proof.Machine.execSetPol b imm s
  | .setLfoRate b x => Sys2Proof.Machine.execSetLfoRate b x s
  | .setLfoDepth b x => Sys2Proof.Machine.execSetLfoDepth b x s
  | .setLfoOfs b x => Sys2Proof.Machine.execSetLfoOfs b x s
  | .setLfoEn b imm => Sys2Proof.Machine.execSetLfoEn b imm s
  | .setDlyTime b x => Sys2Proof.Machine.execSetDlyTime b x s
  | .setDlyFb b x => Sys2Proof.Machine.execSetDlyFb b x s
  | .setDlyMix b x => Sys2Proof.Machine.execSetDlyMix b x s
  | .setDlyEn b imm => Sys2Proof.Machine.execSetDlyEn b imm s
  | .getGain b => Sys2Proof.Machine.execGetGain b s
  | .getPol b => Sys2Proof.Machine.execGetPol b s
  | .getLfoRate b => Sys2Proof.Machine.execGetLfoRate b s
  | .getLfoDepth b => Sys2Proof.Machine.execGetLfoDepth b s
  | .getLfoOfs b => Sys2Proof.Machine.execGetLfoOfs b s
  | .getLfoEn b => Sys2Proof.Machine.execGetLfoEn b s
  | .getDlyTime b => Sys2Proof.Machine.execGetDlyTime b s
  | .getDlyFb b => Sys2Proof.Machine.execGetDlyFb b s
  | .getDlyMix b => Sys2Proof.Machine.execGetDlyMix b s
  | .getDlyEn b => Sys2Proof.Machine.execGetDlyEn b s
  | .setDesign imm => Sys2Proof.Machine.execSetDesign imm s
  | .setOrder imm => Sys2Proof.Machine.execSetOrder imm s
  | .setRoute imm => Sys2Proof.Machine.execSetRoute imm s
  | .setWave imm => Sys2Proof.Machine.execSetWave imm s
  | .getDesign => Sys2Proof.Machine.execGetDesign s
  | .getOrder => Sys2Proof.Machine.execGetOrder s
  | .getRoute => Sys2Proof.Machine.execGetRoute s
  | .getWave => Sys2Proof.Machine.execGetWave s

end Sys2Proof.Machine
end

