-- ==== Sys2Proof/Machine/Agents.lean ====
section
/-! DEFINITION. Who can move and who does: the holds of 20 R112, the host's transfers (20 R105, R112), the choice among agents
that can all move (20 R113; log 11). -/

namespace Sys2Proof.Machine

/-- The command waits on CMD (20 R112): BLOCK and INIT while a block runs, a GET while RESP cannot accept a word. -/
def holds (i : Instr) (s : State) : Bool :=
  match i with
  | .nop => false
  | .init _ => busy s
  | .block _ => busy s
  | .getStatus => respFull s
  | .clrStatus => false
  | .getSr => respFull s
  | .setGain _ _ => false
  | .setPol _ _ => false
  | .setLfoRate _ _ => false
  | .setLfoDepth _ _ => false
  | .setLfoOfs _ _ => false
  | .setLfoEn _ _ => false
  | .setDlyTime _ _ => false
  | .setDlyFb _ _ => false
  | .setDlyMix _ _ => false
  | .setDlyEn _ _ => false
  | .getGain _ => respFull s
  | .getPol _ => respFull s
  | .getLfoRate _ => respFull s
  | .getLfoDepth _ => respFull s
  | .getLfoOfs _ => respFull s
  | .getLfoEn _ => respFull s
  | .getDlyTime _ => respFull s
  | .getDlyFb _ => respFull s
  | .getDlyMix _ => respFull s
  | .getDlyEn _ => respFull s
  | .setDesign _ => false
  | .setOrder _ => false
  | .setRoute _ => false
  | .setWave _ => false
  | .getDesign => respFull s
  | .getOrder => respFull s
  | .getRoute => respFull s
  | .getWave => respFull s

/-- The decoder can move: both words of a command pair are on CMD, and the command does not hold. A pair that does not decode
never holds. -/
def decoderReady (s : State) : Bool :=
  match s.cmd with
  | cw :: data :: _ =>
    match decode cw data with
    | .error _ => true
    | .ok i => !holds i s
  | _ => false

/-- The decoder's move (30 R147): the pair at the head of CMD is decoded and performed, or its error is raised. It takes a pair as
one indivisible action (20 R109), so it waits for the second word of one. -/
def decoderMove (s : State) : Result :=
  match s.cmd with
  | cw :: data :: _ =>
    match decode cw data with
    | .error e => .next (raiseError (decodeErrorCode e) (opField cw) s)
    | .ok i => exec i s
  | _ => .next s

/-- The host can make its next transfer (20 R105): a full stream makes a sender wait, an empty one a receiver. -/
def hostReady (s : State) : Bool :=
  match s.host with
  | [] => false
  | .sendCmd _ :: _ => streamHolds s.cfg pairWords (s.cmd.length + 1)
  | .sendSample _ :: _ => streamHolds s.cfg pairWords (s.ain.length + 1)
  | .takeResp :: _ => !s.resp.isEmpty
  | .takeSample :: _ => !s.aout.isEmpty

/-- The host's next transfer: one word (20 R104). -/
def hostMove (s : State) : State :=
  match s.host with
  | [] => s
  | .sendCmd w :: rest => { s with cmd := s.cmd ++ [w], host := rest }
  | .sendSample w :: rest => { s with ain := s.ain ++ [w], host := rest }
  | .takeResp :: rest => { s with resp := s.resp.tail, host := rest }
  | .takeSample :: rest => { s with aout := s.aout.tail, host := rest }

/-- An agent can move. -/
def agentReady (s : State) (a : Agent) : Bool :=
  match a with
  | .host => hostReady s
  | .decoder => decoderReady s
  | .engine => engineReady s

/-- The agents that can move. -/
def readyAgents (s : State) : List Agent := [Agent.decoder, Agent.engine, Agent.host].filter (agentReady s)

/-- The agent that wins a contested step: the next one State.sched names, or a free choice once that list is used up. -/
def winner (s : State) : Agent :=
  match s.sched with
  | [] => Config.arbiter s.turns
  | a :: _ => a

/-- The agent that moves: the only one that can, or of several the winner (the first of them if the winner cannot move). -/
def pick (s : State) : Option Agent :=
  match readyAgents s with
  | [] => none
  | [a] => some a
  | a :: b :: rest => if winner s ∈ a :: b :: rest then some (winner s) else some a

/-- The choice at a contested step is used up. -/
def afterPick (s : State) : State :=
  match readyAgents s with
  | _ :: _ :: _ => { s with sched := s.sched.tail, turns := s.turns + 1 }
  | _ => s

/-- The move of one agent. -/
def moveOf (a : Agent) (s : State) : Result :=
  match a with
  | .host => .next (hostMove s)
  | .decoder => decoderMove s
  | .engine => engineMove s

end Sys2Proof.Machine
end

