-- ==== Sys2Proof/Machine/Step.lean ====
section
/-! DEFINITION. One step of the machine (70 R580: the steps are the commands, the frames and the host's stream transfers), and
where an instruction is put so that the next step runs it. -/

namespace Sys2Proof.Machine

/-- One step: the agent that `pick` names moves. When none can move every agent waits, and the state stays (20 R112). -/
def step (s : State) : Host.Outcome State Fault Refusal :=
  match pick s with
  | none => .next s
  | some a => moveOf a (afterPick s)

/-- The two words of these bits (CW in bits 31..0, DATA in bits 63..32) at the head of CMD, and the decoder as the agent
that wins the next step if it is contested. -/
def State.withFetchWord (s : State) (nbits w : Nat) : State :=
  let v := w % 2 ^ nbits
  { s with
    cmd := BitVec.ofNat 32 v :: BitVec.ofNat 32 (v / 2 ^ 32) :: s.cmd
    sched := Agent.decoder :: s.sched }

end Sys2Proof.Machine
end

