-- ==== Sys2Proof/Machine/Record.lean ====
section
/-! DEFINITION. The ten fields of a band as an index (10 R50), the serialisation record (46 R490) and the pseudo-instructions
SETALL, BYPASS_DELAYS, SAVE_STATE and LOAD_STATE as the command lists they expand to (30 R154). -/

namespace Sys2Proof.Machine

/-- The field index of 10 R50: setter opcode 0x10 + index, getter opcode 0x20 + index (30 R143). -/
inductive BandField where
  | gain | pol | lfoRate | lfoDepth | lfoOfs | lfoEn | dlyTime | dlyFb | dlyMix | dlyEn
  deriving DecidableEq, Repr

/-- The ten fields in the order of 10 R50. -/
def bandFields : List BandField := [.gain, .pol, .lfoRate, .lfoDepth, .lfoOfs, .lfoEn, .dlyTime, .dlyFb, .dlyMix, .dlyEn]

/-- The four selectors in the order of 10 R52. -/
inductive Selector where
  | design | order | route | wave
  deriving DecidableEq, Repr

/-- The four selectors in the order of 10 R52. -/
def selectors : List Selector := [.design, .order, .route, .wave]

/-- The setter of a field with operand word v: a float field takes the pattern v, a flag the integer v. -/
def BandField.setter (f : BandField) (b : Band) (v : Word) : Instr :=
  match f with
  | .gain => .setGain b v
  | .pol => .setPol b v.toNat
  | .lfoRate => .setLfoRate b v
  | .lfoDepth => .setLfoDepth b v
  | .lfoOfs => .setLfoOfs b v
  | .lfoEn => .setLfoEn b v.toNat
  | .dlyTime => .setDlyTime b v
  | .dlyFb => .setDlyFb b v
  | .dlyMix => .setDlyMix b v
  | .dlyEn => .setDlyEn b v.toNat

/-- The getter of a field. -/
def BandField.getter (f : BandField) (b : Band) : Instr :=
  match f with
  | .gain => .getGain b
  | .pol => .getPol b
  | .lfoRate => .getLfoRate b
  | .lfoDepth => .getLfoDepth b
  | .lfoOfs => .getLfoOfs b
  | .lfoEn => .getLfoEn b
  | .dlyTime => .getDlyTime b
  | .dlyFb => .getDlyFb b
  | .dlyMix => .getDlyMix b
  | .dlyEn => .getDlyEn b

/-- The word of a field as its getter answers it (30 R146). -/
def BandField.word (f : BandField) (p : BandParams) : Word :=
  match f with
  | .gain => p.gain
  | .pol => flagWord p.pol
  | .lfoRate => p.lfoRate
  | .lfoDepth => p.lfoDepth
  | .lfoOfs => p.lfoOfs
  | .lfoEn => flagWord p.lfoEn
  | .dlyTime => p.dlyTime
  | .dlyFb => p.dlyFb
  | .dlyMix => p.dlyMix
  | .dlyEn => flagWord p.dlyEn

/-- The setter of a selector with operand v. -/
def Selector.setter (g : Selector) (v : Word) : Instr :=
  match g with
  | .design => .setDesign v.toNat
  | .order => .setOrder v.toNat
  | .route => .setRoute v.toNat
  | .wave => .setWave v.toNat

/-- The getter of a selector. -/
def Selector.getter (g : Selector) : Instr :=
  match g with
  | .design => .getDesign
  | .order => .getOrder
  | .route => .getRoute
  | .wave => .getWave

/-- The word of a selector as its getter answers it. -/
def Selector.word (g : Selector) (p : ParamSet) : Word :=
  match g with
  | .design => designWord p.design
  | .order => orderWord p.order
  | .route => routeWord p.route
  | .wave => waveWord p.wave

/-- The serialisation record of a parameter set (46 R490): 164 words, entry 10·b + f for field f of band b, then the four
selectors. -/
def recordOf (p : ParamSet) : List Word :=
  (bands.flatMap fun b => bandFields.map fun f => f.word p.band[b]) ++ selectors.map fun g => g.word p

/-- `SETALL <setter>, <operand>`: the setter of bands 0 to 15 in band order; none when the operand is out of range. -/
def setAll (f : BandField) (v : Word) : Option (List Instr) :=
  let is := bands.map fun b => f.setter b v
  if is.all Instr.wellFormed then some is else none

/-- `BYPASS_DELAYS` = `SETALL SET_DLY_EN, 0`. -/
def bypassDelays : Option (List Instr) := setAll .dlyEn 0#32

/-- `SAVE_STATE`: the 164 getters of the record, in its order. -/
def saveState : List Instr := (bands.flatMap fun b => bandFields.map fun f => f.getter b) ++ selectors.map Selector.getter

/-- The setters of the record, in its order, each waiting for its operand. -/
def recordSetters : List (Word → Instr) :=
  (bands.flatMap fun b => bandFields.map fun f => f.setter b) ++ selectors.map Selector.setter

/-- `LOAD_STATE v0, ..., v163`: the 164 setters in the same order; none when an operand is missing, left over or out of
range. -/
def loadState (vs : List Word) : Option (List Instr) :=
  let is := List.zipWith (fun mk v => mk v) recordSetters vs
  if vs.length = recordSetters.length ∧ is.all Instr.wellFormed then some is else none

/-- The commands of a list performed one after another (20 R111), none of them holding. -/
def perform : List Instr → State → Result
  | [], s => .next s
  | i :: is, s =>
    match exec i s with
    | .next t => perform is t
    | .fault f => .fault f
    | .refused r => .refused r

end Sys2Proof.Machine
end

