-- ==== Sys2Proof/Safety.lean ====
section
/-! DEFINITION. What a safe run is, and the properties of states that the spec states for all time, each named so that claims
can say it. -/

namespace Sys2Proof

/-! ### The commands that answer, and those that only the decoder and the parameters see -/

/-- BLOCK and INIT, the commands that reach the engine's state (20 R110, R112). -/
def Instr.reachesEngine : Instr → Bool
  | .init _ => true
  | .block _ => true
  | _ => false

/-- GET_STATUS, the one command whose answer depends on the engine (BUSY, 45 R404). -/
def Instr.readsBusy : Instr → Bool
  | .getStatus => true
  | _ => false

/-- The GET commands (30 R146), by their opcodes. -/
def Instr.isGet (i : Instr) : Bool :=
  let op := i.opcode.toNat
  decide (op = 3 ∨ op = 5 ∨ (0x20 ≤ op ∧ op ≤ 0x29) ∨ (0x38 ≤ op ∧ op ≤ 0x3B))

end Sys2Proof

namespace Sys2Proof.Machine

/-! ### Runs -/

/-- n steps, stopping at the first fault or refusal. -/
def run : Nat → State → Result
  | 0, s => .next s
  | n + 1, s =>
    match step s with
    | .next t => run n t
    | .fault f => .fault f
    | .refused r => .refused r

/-- A state from which no run ever ends in a fault or a refusal. -/
def Safe (s : State) : Prop := ∀ n, ∃ t, run n s = .next t

/-- n moves of the engine alone, stopping at the first fault or refusal. -/
def engineRun : Nat → State → Result
  | 0, s => .next s
  | n + 1, s =>
    match engineMove s with
    | .next t => engineRun n t
    | .fault f => .fault f
    | .refused r => .refused r

/-! ### The frames of a stream -/

/-- The whole frames that words of AIN or AOUT stand for, oldest first: two words each, channel 0 before channel 1 (20 R104). -/
def framesOf : List Word → List AudioFrame
  | x0 :: x1 :: rest => (x0, x1) :: framesOf rest
  | _ => []

/-- The state after these input frames, one FRAME after another (44 R382). -/
def framesRun (xs : List AudioFrame) (s : State) : State := xs.foldl (fun s x => frame x s) s

/-- The words that these input frames, one FRAME after another from s, put on AOUT: the k-th frame of the block gives the k-th output
frame (20 R106). -/
def blockOutput : List AudioFrame → State → List Word
  | [], _ => []
  | x :: xs, s => ((frame x s).out.map frameWords).getD [] ++ blockOutput xs (frame x s)

/-! ### Opcodes -/

/-- The opcodes of 30 R148 that are not assigned. -/
abbrev illegalOpcode (op : Nat) : Prop :=
  (0x06 ≤ op ∧ op ≤ 0x0F) ∨ (0x1A ≤ op ∧ op ≤ 0x1F) ∨ (0x2A ≤ op ∧ op ≤ 0x2F) ∨ (0x34 ≤ op ∧ op ≤ 0x37) ∨ 0x3C ≤ op

/-- The opcodes that use BAND (30 R143: classes BF, BI, BG). -/
abbrev usesBand (op : Nat) : Prop := (0x10 ≤ op ∧ op ≤ 0x19) ∨ (0x20 ≤ op ∧ op ≤ 0x29)

/-- The opcodes that use IMM (30 R143: classes SI, BI, GI). -/
abbrev usesImm (op : Nat) : Prop := op = 0x02 ∨ op = 0x11 ∨ op = 0x15 ∨ op = 0x19 ∨ (0x30 ≤ op ∧ op ≤ 0x33)

/-- The opcodes whose DATA is a float (30 R142, R143: classes SD, BF). -/
abbrev usesData (op : Nat) : Prop :=
  op = 0x01 ∨ op = 0x10 ∨ op = 0x12 ∨ op = 0x13 ∨ op = 0x14 ∨ op = 0x16 ∨ op = 0x17 ∨ op = 0x18

/-- The state s with what the command side of t holds: the staging set, STATUS, CMD and RESP (20 R113). -/
def State.withCommandSide (s t : State) : State :=
  { s with staging := t.staging, status := t.status, cmd := t.cmd, resp := t.resp }

/-- An outcome with its next state changed. -/
def mapNext (f : State → State) (r : Result) : Result :=
  match r with
  | .next s => .next (f s)
  | .fault e => .fault e
  | .refused e => .refused e

/-! ### Domains (10 R50, R451) -/

/-- lo <= x <= hi, so x is not a NaN. -/
abbrev inDomain (x lo hi : F32) : Prop := fle lo x = true ∧ fle x hi = true

/-- A pattern can stand as the upper bound of a domain from 0.0: a number, not negative, that DENORM reads as it stands. -/
abbrev isBound (dn : Denorm) (hi : F32) : Prop := fle posZero hi = true ∧ flush dn hi = hi

/-- The literals make domains (10 R50, R52), and the order range is not empty. The defaults do (00 R7). -/
abbrev LiteralsBounded (cfg : Platform) : Prop :=
  isBound cfg.denorm cfg.lits.gainMax ∧ isBound cfg.denorm cfg.lits.delayMaxS ∧ isBound cfg.denorm cfg.lits.fbMax ∧
  activeSections cfg.lits.orderMin ≤ activeSections cfg.lits.orderMax

/-- Every float field of a band is inside its domain. -/
abbrev BandParams.legal (l : Literals) (p : BandParams) : Prop :=
  inDomain p.gain posZero l.gainMax ∧ inDomain p.lfoRate posZero one ∧ inDomain p.lfoDepth posZero one ∧
  inDomain p.lfoOfs negOne one ∧ inDomain p.dlyTime posZero l.delayMaxS ∧ inDomain p.dlyFb posZero l.fbMax ∧
  inDomain p.dlyMix posZero one

/-- Every float field of every band is inside its domain, and the order is in [ORDER_MIN, ORDER_MAX]. -/
abbrev ParamSet.legal (l : Literals) (p : ParamSet) : Prop :=
  (∀ b : Band, p.band[b].legal l) ∧
  activeSections l.orderMin ≤ activeSections p.order ∧ activeSections p.order ≤ activeSections l.orderMax

/-- The domain of a float field, none for a flag (10 R50). -/
def BandField.domain (l : Literals) (f : BandField) : Option (F32 × F32) :=
  match f with
  | .gain => some (posZero, l.gainMax)
  | .pol => none
  | .lfoRate => some (posZero, one)
  | .lfoDepth => some (posZero, one)
  | .lfoOfs => some (negOne, one)
  | .lfoEn => none
  | .dlyTime => some (posZero, l.delayMaxS)
  | .dlyFb => some (posZero, l.fbMax)
  | .dlyMix => some (posZero, one)
  | .dlyEn => none

/-- What a field's getter answers after its setter with operand v: v clamped, or 1 for any non-zero flag (46 R451). -/
def BandField.stored (cfg : Platform) (f : BandField) (v : Word) : Word :=
  match f.domain cfg.lits with
  | some (lo, hi) => fclamp cfg.denorm v lo hi
  | none => if v = 0#32 then 0#32 else 1#32

/-! ### The value of a band in a channel -/

/-- The contribution of band b to channel c (44 R352, R353) for the input sample x, all of it computed from the state s. -/
def contribution (c : Chan) (x : F32) (s : State) (b : Band) : F32 :=
  (bandDelay c b (bandFilter c b x s).2 (bandFilter c b x s).1).2

/-! ### Properties that every step keeps -/

/-- Every cursor is in [0, DLEN-1] (10 R60). -/
abbrev CursorsInRange (s : State) : Prop := ∀ c b, (laneGet s.lines c b).w < s.cfg.lits.dlen

/-- The memory has its canonical form and lists addresses of the delay space only (20 R100), and the cursors stay in it. -/
abbrev MemoryCanonical (s : State) : Prop :=
  Memory.wf s.mem ∧ (∀ x ∈ s.mem, x.1 < 128 * s.cfg.lits.dlen) ∧ CursorsInRange s

/-- Staged and active parameters are inside their domains (10 R50, R52), which the platform's literals make. -/
abbrev ParamsLegal (s : State) : Prop := LiteralsBounded s.cfg ∧ s.staging.legal s.cfg.lits ∧ s.active.legal s.cfg.lits

/-- No noise generator is 0 (10 R59). -/
abbrev NoiseAlive (s : State) : Prop := ∀ b : Band, s.lfo[b].rng ≠ 0#32

/-- E.left and the frame in OutPush agree with E.mode (10 R41, 44 R380). -/
abbrev Sequenced (s : State) : Prop :=
  (s.mode = .idle → s.left = 0 ∧ s.out = none) ∧ (s.mode = .running → 1 ≤ s.left ∧ s.left ≤ s.cfg.lits.blockMax)

/-- What INIT_DONE says (10 R53, R54, R61): after a successful INIT the rate is legal, DMAX is its delay limit and every delay
line is defined. Before it, SR is 0.0 and no block runs. -/
abbrev InitSound (s : State) : Prop :=
  if s.status.initDone then
    legalRate s.cfg.lits s.sr = true ∧ s.dmax = dmaxOf s.cfg s.sr ∧ ∀ c b, (laneGet s.lines c b).known = true
  else s.sr = posZero ∧ s.mode = .idle

/-- Both taps of a section are +0.0. -/
abbrev Section.quiet (q : Section) : Prop := q.s1 = posZero ∧ q.s2 = posZero

/-- The coefficient key is that of the running block (40 R207), and the taps of inactive sections are +0.0 (10 R56). -/
abbrev FiltersSound (s : State) : Prop :=
  (s.mode = .running → s.key = wantedKey s) ∧
  ∀ c b, ∀ k : Sec, (s.key.valid = true → activeSections s.key.order ≤ k.val) → (laneGet s.filters c b)[k].quiet

/-- The coefficients of both channels of a band are equal (10 R56). -/
abbrev ChannelsAgree (s : State) : Prop :=
  ∀ b, ∀ k : Sec, (laneGet s.filters 0 b)[k].coef = (laneGet s.filters 1 b)[k].coef

/-- On a conforming platform every section that a valid key makes active is stable (40 R210). -/
abbrev SectionsStable (s : State) : Prop :=
  conformingPlatform s.cfg → s.key.valid = true → ∀ c b, ∀ k : Sec, k.val < activeSections s.key.order →
    stableCoef (laneGet s.filters c b)[k].coef = true

/-- STATUS holds an error code of 60 R501 if ERR is 1, and no error field if it is 0 (10 R54, 60 R503). -/
abbrev StatusSound (s : State) : Prop :=
  if s.status.err then 1 ≤ s.status.errCode.toNat ∧ s.status.errCode.toNat ≤ 5
  else s.status.errOvf = false ∧ s.status.errCode = 0#4 ∧ s.status.errOp = 0#8

/-- Line (c, b) is cleared: cursor 0, feedback sample +0.0, every word +0.0 (42 R287). -/
def LineSilent (s : State) (c : Chan) (b : Band) : Prop :=
  (laneGet s.lines c b).w = 0 ∧ (laneGet s.lines c b).fb = posZero ∧
  ∀ i < s.cfg.lits.dlen, dRead s.mem c b i = posZero

/-- While a block runs, the lines of every band whose delay is disabled are clear (42 R289). -/
abbrev DisabledSilent (s : State) : Prop :=
  s.mode = .running → ∀ b, (param s b).dlyEn = false → ∀ c, LineSilent s c b

/-- s and t agree but for what reset leaves unspecified (70 R552) and nothing has overwritten since: DMAX and the smoother
coefficients before INIT; the key's other fields and all filter coefficients while the key is invalid; the coefficients
of sections that have not been active under a valid key. -/
def AgreeUpToUnspecified (s t : State) : Prop :=
  { t with key := s.key, filters := s.filters, dmax := s.dmax, coefs := s.coefs } = s ∧
  s.key.valid = t.key.valid ∧ (s.key.valid = true → s.key = t.key) ∧
  (s.status.initDone = true → s.dmax = t.dmax ∧ s.coefs = t.coefs) ∧
  ∀ c b, ∀ k : Sec,
    (laneGet s.filters c b)[k].s1 = (laneGet t.filters c b)[k].s1 ∧
    (laneGet s.filters c b)[k].s2 = (laneGet t.filters c b)[k].s2 ∧
    (s.key.valid = true → k.val < activeSections s.key.order →
      (laneGet s.filters c b)[k].coef = (laneGet t.filters c b)[k].coef)

/-- Two outcomes are alike: next states related by R, or the same fault or refusal. -/
def AlikeOutcome (R : State → State → Prop) (x y : Result) : Prop :=
  match x, y with
  | .next s, .next t => R s t
  | .fault e, .fault f => e = f
  | .refused e, .refused f => e = f
  | _, _ => False

/-- Every property together. -/
def StateSound (s : State) : Prop :=
  MemoryCanonical s ∧ ParamsLegal s ∧ NoiseAlive s ∧ Sequenced s ∧ InitSound s ∧ FiltersSound s ∧ ChannelsAgree s ∧
  SectionsStable s ∧ StatusSound s ∧ DisabledSilent s

end Sys2Proof.Machine
end

