-- ==== Sys2Proof/Certificates/Slice0/Obligations.lean ====
section
/-! DEFINITION. The statements about SJF-SPCORE that the provers are given. OBLIGATIONS.json lists them with the rules they rest
on. Except where a statement says otherwise it holds for every state, also one that no run reaches. -/

open Sys2Proof Sys2Proof.Machine

/-! ### Encoding (30) -/

/-- Decoding an encoded well-formed command gives the command back, for every command and every operand. -/
def Obligations.DecodeOfEncode : Prop :=
  ∀ i : Instr, i.wellFormed = true → decode (encode i).1 (encode i).2 = .ok i

/-- A pair that decodes is the encoding of a well-formed command, but for a DATA word that the command ignores. -/
def Obligations.DecodedPairsReencode : Prop :=
  ∀ cw data i, decode cw data = .ok i →
    i.wellFormed = true ∧ (encode i).1 = cw ∧ ((encode i).2 = data ∨ ∀ d, decode cw d = .ok i)

/-- R148 and R543: every pair is one of three kinds. An unassigned opcode is ILLEGAL_OP. An assigned one with RSV, an unused BAND or
an unused IMM not zero is RSV_FIELD. Every other pair is a command. -/
def Obligations.EveryPairIsClassified : Prop :=
  ∀ cw data : Word,
    let op := cw.toNat / 2 ^ 24
    let unused := cw.extractLsb' 16 4 ≠ 0#4 ∨ (¬usesBand op ∧ cw.extractLsb' 20 4 ≠ 0#4) ∨
      (¬usesImm op ∧ cw.extractLsb' 0 16 ≠ 0#16)
    (illegalOpcode op → decode cw data = .error .illegalOp) ∧
    (¬illegalOpcode op → unused → decode cw data = .error .rsvField) ∧
    (¬illegalOpcode op → ¬unused → ∃ i, decode cw data = .ok i)

/-- R142: DATA is the float operand of INIT and of the float setters, and is ignored by every other command. -/
def Obligations.DataIsFloatOperandOrIgnored : Prop :=
  (∀ cw d d' : Word, ¬usesData (cw.toNat / 2 ^ 24) → decode cw d = decode cw d') ∧
  (∀ d : Word, decode 0x01000000#32 d = .ok (.init d)) ∧
  (∀ (b : Band) (d : Word),
    decode (0x10000000#32 + BitVec.ofNat 32 b.val <<< 20) d = .ok (.setGain b d) ∧
    decode (0x12000000#32 + BitVec.ofNat 32 b.val <<< 20) d = .ok (.setLfoRate b d) ∧
    decode (0x13000000#32 + BitVec.ofNat 32 b.val <<< 20) d = .ok (.setLfoDepth b d) ∧
    decode (0x14000000#32 + BitVec.ofNat 32 b.val <<< 20) d = .ok (.setLfoOfs b d) ∧
    decode (0x16000000#32 + BitVec.ofNat 32 b.val <<< 20) d = .ok (.setDlyTime b d) ∧
    decode (0x17000000#32 + BitVec.ofNat 32 b.val <<< 20) d = .ok (.setDlyFb b d) ∧
    decode (0x18000000#32 + BitVec.ofNat 32 b.val <<< 20) d = .ok (.setDlyMix b d))

/-- R107 and R140: a command pair on a byte-wide medium is eight bytes, the four of CW before the four of DATA, each word's least
significant byte first; and the decoder takes exactly those eight, leaving what follows for the next command. -/
def Obligations.PairsTravelLittleEndian : Prop :=
  ∀ (cw data : Word) (rest : List Byte),
    bytesOfPair cw data =
      [ cw.extractLsb' 0 8, cw.extractLsb' 8 8, cw.extractLsb' 16 8, cw.extractLsb' 24 8,
        data.extractLsb' 0 8, data.extractLsb' 8 8, data.extractLsb' 16 8, data.extractLsb' 24 8 ] ∧
    decodeBytes (bytesOfPair cw data ++ rest) = some (decode cw data, rest)

/-- Words written out from the tables of 30 R141 and R143 (95 V-EN-1) decode to the commands they stand for. -/
def Obligations.SampleWordsDecode : Prop :=
  decode 0x00000000#32 0xDEADBEEF#32 = .ok .nop ∧
  decode 0x01000000#32 0x473B8000#32 = .ok (.init 0x473B8000#32) ∧
  decode 0x02001000#32 0#32 = .ok (.block 4096) ∧
  decode 0x10300000#32 0x3F666666#32 = .ok (.setGain 3 0x3F666666#32) ∧
  decode 0x11F0FFFF#32 0#32 = .ok (.setPol 15 65535) ∧
  decode 0x29F00000#32 0#32 = .ok (.getDlyEn 15) ∧
  decode 0x31000006#32 0#32 = .ok (.setOrder 6) ∧
  decode 0x3B000000#32 0#32 = .ok .getWave

/-! ### Steps, holds and errors (20, 60) -/

/-- A step runs the decoded command: the pair of words at the head of CMD, if the command does not hold, and if the decoder is the one
agent that can move or wins the contest. Nothing but the two fields of the schedule changes beside what exec does. The schedule is the
model's choice where 20 R113 leaves the interleaving open (log 11). -/
def Obligations.StepRunsDecodedCommand : Prop :=
  ∀ (s : State) (cw data : Word) (rest : List Word) (i : Instr),
    s.cmd = cw :: data :: rest → decode cw data = .ok i → holds i s = false →
    (engineReady s = false → hostReady s = false → step s = exec i s) ∧
    (∀ later, s.sched = Agent.decoder :: later → (engineReady s = true ∨ hostReady s = true) →
      step s = exec i { s with sched := later, turns := s.turns + 1 })

/-- R112, R543: BLOCK and INIT hold while a block runs, a GET holds while RESP cannot accept a word, and nothing else holds. Every other
command completes with a next state: no command ever faults or is refused. That a command that holds answers the same state with
its pair still on CMD, and that one that completes takes the two words of its pair off CMD itself, are the model's reading (log 15, 16:
DEDUCED from R112 and R140). -/
def Obligations.CommandsHoldOrComplete : Prop :=
  ∀ (i : Instr) (s : State),
    (holds i s = true ↔ (i.reachesEngine = true ∧ s.mode = .running) ∨ (i.isGet = true ∧ respFull s = true)) ∧
    (holds i s = true → exec i s = .next s) ∧
    (holds i s = false → ∃ t, exec i s = .next t ∧ t.cmd = s.cmd.drop 2 ∧ t.cfg = s.cfg)

/-- R503: what raising an error writes. The first error is kept, a later one sets ERR_OVF; the pair is taken off CMD and nothing else
changes. -/
def Obligations.ErrorsAreRecorded : Prop :=
  ∀ (s : State) (cw data : Word) (rest : List Word) (e : DecodeError),
    s.cmd = cw :: data :: rest → decode cw data = .error e →
    (s.status.err = false → decoderMove s = .next { s with
      cmd := rest
      status := { s.status with
        err := true
        errCode := if e = .illegalOp then 1#4 else 2#4
        errOp := cw.extractLsb' 24 8 } }) ∧
    (s.status.err = true → decoderMove s = .next { s with cmd := rest, status := { s.status with errOvf := true } })

/-! ### System commands (45) -/

/-- With the default FS_MIN and FS_MAX (R7; log 1) the rates INIT accepts are exactly the patterns from 8000.0 to 192000.0: no NaN, no
infinity, nothing negative, nothing below or above. -/
def Obligations.LegalRatesAreAnInterval : Prop :=
  ∀ fs : F32, legalRate Literals.default fs = true ↔ 0x45FA0000 ≤ fs.toNat ∧ fs.toNat ≤ 0x483B8000

/-- R402, R504: a rejected INIT records BAD_RATE with opcode 0x01 and changes nothing else. -/
def Obligations.InitRejectsBadRates : Prop :=
  ∀ (s : State) (fs : F32), s.mode = .idle → legalRate s.cfg.lits fs = false →
    exec (.init fs) s = .next { s with
      cmd := s.cmd.drop 2
      status := if s.status.err then { s.status with errOvf := true }
        else { s.status with err := true, errCode := 3#4, errOp := 0x01#8 } }

/-- R402: an accepted INIT sets SR, DMAX and the smoother coefficients, clears every delay line, every tap and the DC blockers,
invalidates the key and sets INIT_DONE. Parameters, LFOs, smoother outputs, coefficients and the other fields stay, and so
does every byte outside the delay space (its byte addresses 0 to 128*DLEN - 1 are the model's choice, log 9). The constants are the
machine's literals, whatever they are (log 1). -/
def Obligations.InitReinitialisesDatapath : Prop :=
  ∀ (s : State) (fs : F32), s.mode = .idle → legalRate s.cfg.lits fs = true → ∃ t, exec (.init fs) s = .next t ∧
    t.sr = fs ∧
    t.coefs = { gain := smoothCoef s.cfg.unit s.cfg.lits.fcGain fs
                lfo := smoothCoef s.cfg.unit s.cfg.lits.fcLfo fs
                slow := smoothCoef s.cfg.unit s.cfg.lits.fcSlow fs } ∧
    t.dmax = min (ffloor (fmul s.cfg.denorm s.cfg.lits.delayMaxS fs)) (s.cfg.lits.dlen - 2) ∧
    t.status = { s.status with initDone := true } ∧
    t.key = { s.key with valid := false } ∧
    (∀ c : Chan, t.dc[c] = { x1 := posZero, y1 := posZero }) ∧
    (∀ c b, LineSilent t c b) ∧
    (∀ c b, ∀ k : Sec, (laneGet t.filters c b)[k] =
      { coef := (laneGet s.filters c b)[k].coef, s1 := posZero, s2 := posZero }) ∧
    (∀ a, 128 * s.cfg.lits.dlen ≤ a → readByte t.mem a = readByte s.mem a) ∧
    { t with sr := s.sr, coefs := s.coefs, dmax := s.dmax, status := s.status, key := s.key, dc := s.dc,
             lines := s.lines, filters := s.filters, mem := s.mem, cmd := s.cmd } = s ∧
    t.cmd = s.cmd.drop 2

/-- R403, R501: BLOCK before INIT records NOT_INIT, else a length over BLOCK_MAX records BAD_LENGTH, and n = 0 does nothing. -/
def Obligations.BlockChecksComeInOrder : Prop :=
  ∀ (s : State) (n : Nat), s.mode = .idle →
    (s.status.initDone = false → exec (.block n) s = .next { s with
      cmd := s.cmd.drop 2
      status := if s.status.err then { s.status with errOvf := true }
        else { s.status with err := true, errCode := 4#4, errOp := 0x02#8 } }) ∧
    (s.status.initDone = true → s.cfg.lits.blockMax < n → exec (.block n) s = .next { s with
      cmd := s.cmd.drop 2
      status := if s.status.err then { s.status with errOvf := true }
        else { s.status with err := true, errCode := 5#4, errOp := 0x02#8 } }) ∧
    (s.status.initDone = true → n = 0 → exec (.block n) s = .next { s with cmd := s.cmd.drop 2 })

/-- R381, R207: an accepted BLOCK copies the staging set to the active set, brings the coefficients and the key up to date, sets every
LFO's increment without touching its phase, clears both lines of every band whose delay is disabled, and starts n frames.
Everything else stays, and so does every byte outside the cleared lines (whose byte addresses are the model's choice, log 9).
That LFO_INC takes the rate as the datapath reads it, under FTZ a subnormal as a zero, is read from R451 and R20 (log 28, DEDUCED). -/
def Obligations.BlockStartEffect : Prop :=
  ∀ (s : State) (n : Nat), s.mode = .idle → s.status.initDone = true → 1 ≤ n → n ≤ s.cfg.lits.blockMax →
    ∃ t, exec (.block n) s = .next t ∧
      t.mode = .running ∧ t.left = n ∧ t.active = s.staging ∧
      t.key = { valid := true, design := s.staging.design, order := s.staging.order, fs := s.sr } ∧
      (∀ b : Band, t.lfo[b] = { s.lfo[b] with inc := lfoInc s.cfg (flush s.cfg.denorm s.staging.band[b].lfoRate) s.sr }) ∧
      (∀ c b, s.staging.band[b].dlyEn = false → LineSilent t c b) ∧
      (∀ c b, s.staging.band[b].dlyEn = true → laneGet t.lines c b = laneGet s.lines c b) ∧
      (∀ a, (∀ c b, s.staging.band[b].dlyEn = false → ¬inLine s.cfg.lits.dlen c b a) → readByte t.mem a = readByte s.mem a) ∧
      { t with mode := s.mode, left := s.left, active := s.active, key := s.key, lfo := s.lfo, lines := s.lines,
               mem := s.mem, filters := s.filters, cmd := s.cmd } = s ∧
      t.cmd = s.cmd.drop 2

/-- R207, R206, R209: the filters after an accepted BLOCK. If the key agreed they are as before. Else every active section has the
coefficients of its band, inactive sections keep theirs, and taps stay but for those of sections that an order decrease
under a valid key deactivates, which become +0.0. -/
def Obligations.BlockStartFilters : Prop :=
  ∀ (s : State) (n : Nat), s.mode = .idle → s.status.initDone = true → 1 ≤ n → n ≤ s.cfg.lits.blockMax →
    ∃ t, exec (.block n) s = .next t ∧
      (s.key = { valid := true, design := s.staging.design, order := s.staging.order, fs := s.sr } → t.filters = s.filters) ∧
      (s.key ≠ { valid := true, design := s.staging.design, order := s.staging.order, fs := s.sr } →
        ∀ c b, ∀ k : Sec,
          (laneGet t.filters c b)[k].coef =
            (if k.val < activeSections s.staging.order then
              biquadCoef s.cfg.unit (bandType b) (effFreq s.cfg s.sr b) s.sr
                (designQ s.cfg.lits s.staging.design s.staging.order k)
            else (laneGet s.filters c b)[k].coef) ∧
          (s.key.valid = true ∧ activeSections s.staging.order ≤ k.val ∧ k.val < activeSections s.key.order →
            (laneGet t.filters c b)[k].quiet) ∧
          (¬(s.key.valid = true ∧ activeSections s.staging.order ≤ k.val ∧ k.val < activeSections s.key.order) →
            (laneGet t.filters c b)[k].s1 = (laneGet s.filters c b)[k].s1 ∧
            (laneGet t.filters c b)[k].s2 = (laneGet s.filters c b)[k].s2))

/-- R404 and R54: GET_STATUS pushes one word, laid out as the STATUS register is, and changes nothing else. -/
def Obligations.GetStatusAnswersTheRegister : Prop :=
  ∀ s : State, respFull s = false → ∃ w : Word,
    exec .getStatus s = .next { s with cmd := s.cmd.drop 2, resp := s.resp ++ [w] } ∧
    w.getLsbD 0 = s.status.initDone ∧ w.getLsbD 1 = decide (s.mode = .running) ∧ w.getLsbD 2 = s.status.err ∧
    w.getLsbD 3 = s.status.errOvf ∧ w.extractLsb' 4 4 = s.status.errCode ∧ w.extractLsb' 8 8 = s.status.errOp ∧
    w.extractLsb' 16 16 = 0#16

/-- R401, R405, R406: NOP completes at once, whatever the engine does, and only leaves CMD; CLR_STATUS clears the four error fields and
nothing else; GET_SR pushes the pattern of SR. -/
def Obligations.NopClrStatusAndGetSr : Prop :=
  (∀ s : State, exec .nop s = .next { s with cmd := s.cmd.drop 2 }) ∧
  (∀ s : State, exec .clrStatus s = .next { s with
    cmd := s.cmd.drop 2, status := { s.status with err := false, errOvf := false, errCode := 0#4, errOp := 0#8 } }) ∧
  (∀ s : State, respFull s = false → exec .getSr s = .next { s with cmd := s.cmd.drop 2, resp := s.resp ++ [s.sr] })

/-! ### Parameter commands (46) -/

/-- R452 to R461: each float setter stores its operand, clamped into the field's domain, and each flag setter whether its immediate is
non-zero, in the staging copy of its band's field. It changes no other field, no other band and nothing else, in any
mode. The clamp reads its operand as DENORM says; what it stores for a subnormal outside the domain is the model's reading (log 18). -/
def Obligations.BandSettersStoreClamped : Prop :=
  ∀ (s : State) (b : Band) (x : F32) (imm : Nat),
    let stores (f : BandParams → BandParams) : Result := .next { s with
      cmd := s.cmd.drop 2, staging := { s.staging with band := s.staging.band.set b (f s.staging.band[b]) } }
    exec (.setGain b x) s = stores (fun p => { p with gain := fclamp s.cfg.denorm x 0x00000000#32 s.cfg.lits.gainMax }) ∧
    exec (.setPol b imm) s = stores (fun p => { p with pol := decide (imm ≠ 0) }) ∧
    exec (.setLfoRate b x) s = stores (fun p => { p with lfoRate := fclamp s.cfg.denorm x 0x00000000#32 0x3F800000#32 }) ∧
    exec (.setLfoDepth b x) s = stores (fun p => { p with lfoDepth := fclamp s.cfg.denorm x 0x00000000#32 0x3F800000#32 }) ∧
    exec (.setLfoOfs b x) s = stores (fun p => { p with lfoOfs := fclamp s.cfg.denorm x 0xBF800000#32 0x3F800000#32 }) ∧
    exec (.setLfoEn b imm) s = stores (fun p => { p with lfoEn := decide (imm ≠ 0) }) ∧
    exec (.setDlyTime b x) s = stores (fun p => { p with dlyTime := fclamp s.cfg.denorm x 0x00000000#32 s.cfg.lits.delayMaxS }) ∧
    exec (.setDlyFb b x) s = stores (fun p => { p with dlyFb := fclamp s.cfg.denorm x 0x00000000#32 s.cfg.lits.fbMax }) ∧
    exec (.setDlyMix b x) s = stores (fun p => { p with dlyMix := fclamp s.cfg.denorm x 0x00000000#32 0x3F800000#32 }) ∧
    exec (.setDlyEn b imm) s = stores (fun p => { p with dlyEn := decide (imm ≠ 0) })

/-- R472 to R475: each global setter writes one staged selector and changes nothing else; the register then holds the clamped
immediate. -/
def Obligations.GlobalSettersClamp : Prop :=
  ∀ (s : State) (imm : Nat),
    (∃ d, exec (.setDesign imm) s = .next { s with cmd := s.cmd.drop 2, staging := { s.staging with design := d } } ∧
      designWord d = BitVec.ofNat 32 (min imm 2)) ∧
    (∃ o, exec (.setOrder imm) s = .next { s with cmd := s.cmd.drop 2, staging := { s.staging with order := o } } ∧
      orderWord o = BitVec.ofNat 32 (max (2 * activeSections s.cfg.lits.orderMin)
        (min (2 * (imm / 2)) (2 * activeSections s.cfg.lits.orderMax)))) ∧
    (∃ r, exec (.setRoute imm) s = .next { s with cmd := s.cmd.drop 2, staging := { s.staging with route := r } } ∧
      routeWord r = BitVec.ofNat 32 (min imm 2)) ∧
    (∃ w, exec (.setWave imm) s = .next { s with cmd := s.cmd.drop 2, staging := { s.staging with wave := w } } ∧
      waveWord w = BitVec.ofNat 32 (min imm 1))

/-- R462 to R471, R476 to R479: each getter pushes the staging value of its field or selector, a float as its pattern, a flag, an
enumeration or an order as its integer value, and changes nothing else. -/
def Obligations.GettersAnswerStaging : Prop :=
  ∀ (s : State) (b : Band), respFull s = false →
    let answers (w : Word) : Result := .next { s with cmd := s.cmd.drop 2, resp := s.resp ++ [w] }
    exec (.getGain b) s = answers s.staging.band[b].gain ∧
    exec (.getPol b) s = answers (if s.staging.band[b].pol then 1#32 else 0#32) ∧
    exec (.getLfoRate b) s = answers s.staging.band[b].lfoRate ∧
    exec (.getLfoDepth b) s = answers s.staging.band[b].lfoDepth ∧
    exec (.getLfoOfs b) s = answers s.staging.band[b].lfoOfs ∧
    exec (.getLfoEn b) s = answers (if s.staging.band[b].lfoEn then 1#32 else 0#32) ∧
    exec (.getDlyTime b) s = answers s.staging.band[b].dlyTime ∧
    exec (.getDlyFb b) s = answers s.staging.band[b].dlyFb ∧
    exec (.getDlyMix b) s = answers s.staging.band[b].dlyMix ∧
    exec (.getDlyEn b) s = answers (if s.staging.band[b].dlyEn then 1#32 else 0#32) ∧
    exec .getDesign s = answers (designWord s.staging.design) ∧
    exec .getOrder s = answers (BitVec.ofNat 32 (2 * activeSections s.staging.order)) ∧
    exec .getRoute s = answers (routeWord s.staging.route) ∧
    exec .getWave s = answers (waveWord s.staging.wave)

/-- R560, R111: after a per-band setter, the getter of the same field and band answers the value the setter stores. -/
def Obligations.GetterAnswersSetter : Prop :=
  ∀ (f : BandField) (b : Band) (v : Word) (s t : State), exec (f.setter b v) s = .next t → respFull t = false →
    ∃ u, exec (f.getter b) t = .next u ∧ u.resp = s.resp ++ [f.stored s.cfg v] ∧ u.staging = t.staging

/-- R451, R17, R18: fclamp with bounds that are neither NaN nor subnormal under FTZ: its value lies in the domain; a pattern in the
domain is stored unchanged; a NaN gives the lower bound; a value that DENORM reads below or above gives the bound it passed. Under FTZ a
subnormal outside the domain that is read as a zero inside it gives that zero: this clause is the model's reading (log 18, DEDUCED). -/
def Obligations.ClampStaysInDomain : Prop :=
  ∀ (dn : Denorm) (x lo hi : F32), isNaN lo = false → isNaN hi = false → fle lo hi = true →
    flush dn lo = lo → flush dn hi = hi →
    inDomain (fclamp dn x lo hi) lo hi ∧ (inDomain x lo hi → fclamp dn x lo hi = x) ∧
    (isNaN x = true → fclamp dn x lo hi = lo) ∧
    (flt (flush dn x) lo = true → fclamp dn x lo hi = lo) ∧ (flt hi (flush dn x) = true → fclamp dn x lo hi = hi) ∧
    (¬inDomain x lo hi → inDomain (flush dn x) lo hi → isNaN x = false → fclamp dn x lo hi = flush dn x)

/-- R491, derived: the record of any state whose staged parameters are in the domains of another machine, loaded into any state of that
machine and saved again, is the same record, and the load restores every staged parameter. Nothing but CMD and RESP changes beside. Two
premises are the model's: the 164 getters are performed one after another with no host in between, so RESP must have room for 164 words
(log 3); and each command takes its own two words off CMD (log 16). -/
def Obligations.SerialisationRoundTrip : Prop :=
  ∀ s t : State, s.staging.legal t.cfg.lits → streamHolds t.cfg 1 (t.resp.length + 164) = true →
    ∃ is, loadState (recordOf s.staging) = some is ∧ is.length = 164 ∧
      perform is t = .next { t with staging := s.staging, cmd := t.cmd.drop 328 } ∧
      ∃ u, perform saveState { t with staging := s.staging, cmd := t.cmd.drop 328 } = .next u ∧
        u = { t with staging := s.staging, cmd := t.cmd.drop 656, resp := t.resp ++ recordOf s.staging }

/-! ### Tables and LFOs (40, 41) -/

/-- R101, R359 and R7: the four constant tables, the bands each routing mode selects, and the other literals at their defaults. TYPE is
R43's, FREQ is R7's in Hz, NOISE_SEED is R248's and DESIGN_Q is R203's default, active sections only, in the patterns of 95 V-FB-0. That
State.reset has the defaults of what the spec calls parameters is the model's choice (log 1, 4). -/
def Obligations.TypeSeedAndRoutingTables : Prop :=
  bandType 0 = .lp ∧ bandType 15 = .hp ∧ (∀ b : Band, b ≠ 0 → b ≠ 15 → bandType b = .bp) ∧
  bands.map (fun b => Literals.default.noiseSeed[b]) = [0x9E3779B9#32, 0x3C6EF372#32, 0xDAA66D2B#32, 0x78DDE6E4#32, 0x1715609D#32, 0xB54CDA56#32,
    0x5384540F#32, 0xF1BBCDC8#32, 0x8FF34781#32, 0x2E2AC13A#32, 0xCC623AF3#32, 0x6A99B4AC#32, 0x08D12E65#32, 0xA708A81E#32,
    0x454021D7#32, 0xE3779B90#32] ∧
  bands.filter (routeSelect .odd) = [1, 3, 5, 7, 9, 11, 13, 15] ∧
  bands.filter (routeSelect .even) = [0, 2, 4, 6, 8, 10, 12, 14] ∧
  bands.filter (routeSelect .all) = [0, 1, 2, 3, 4, 5, 6, 7, 8, 9, 10, 11, 12, 13, 14, 15] ∧
  (let hz := [100, 150, 250, 350, 500, 630, 800, 1000, 1300, 1600, 2000, 2600, 3500, 5000, 8000, 10000]
   bands.map (fun b => Literals.default.freq[b]) = hz.map u2f ∧
   bands.map (fun b => magOf Literals.default.freq[b]) = hz.map (· * 2 ^ 149)) ∧
  (let q (d : Design) (o : FilterOrder) := (secs.take (activeSections o)).map (designQ Literals.default d o)
   (q .d0 .o2 = [0x3F3504F3#32] ∧ q .d0 .o4 = [0x3F0A8BD4#32, 0x3FA73D75#32] ∧
    q .d0 .o6 = [0x3F0483EE#32, 0x3F3504F3#32, 0x3FF746EA#32] ∧
    q .d0 .o8 = [0x3F0281F7#32, 0x3F19F1BD#32, 0x3F6664D7#32, 0x402406CF#32]) ∧
   (q .d1 .o2 = [0x3F000000#32] ∧ q .d1 .o4 = [0x3F3504F3#32, 0x3F3504F3#32] ∧
    q .d1 .o6 = [0x3F000000#32, 0x3F800000#32, 0x3F800000#32] ∧
    q .d1 .o8 = [0x3F0A8BD4#32, 0x3FA73D75#32, 0x3F0A8BD4#32, 0x3FA73D75#32]) ∧
   (q .d2 .o2 = [0x3F13C9EF#32] ∧ q .d2 .o4 = [0x3F059B3D#32, 0x3F4E353F#32] ∧
    q .d2 .o6 = [0x3F02A305#32, 0x3F1C779A#32, 0x3F82FEC5#32] ∧
    q .d2 .o8 = [0x3F018937#32, 0x3F0F41F2#32, 0x3F35FD8B#32, 0x3F9CE704#32])) ∧
  (let l := Literals.default
   ([l.fcGain, l.fcLfo, l.fsMin, l.fsMax, l.delayMaxS, l.gainMax, l.lfoTMax] = [5, 1, 8000, 192000, 2, 2, 100].map u2f ∧
    [l.fcSlow, l.fbMax, l.lfoTMin, l.freqClamp, l.dcR] =
      [0x3DCCCCCD#32, 0x3F7D70A4#32, 0x3DCCCCCD#32, 0x3EE66666#32, 0x3F7EB852#32]) ∧
   l.orderMin = .o2 ∧ l.orderMax = .o8 ∧ l.blockMax = 4096 ∧ l.dlen = 524288 ∧ State.reset.cfg.lits = l)

/-- R242, R245, R243: the reference increments at nine points, the exact points of the sine, and the offsets at their ends and
quarters. The fixed-point reference is the model's own computation of the spec's real formulas (log 5). -/
def Obligations.LfoReferencePoints : Prop :=
  ([0x45FA0000#32, 0x473B8000#32, 0x483B8000#32].map (lfoInc Platform.default 0x00000000#32) = [5369#32, 895#32, 224#32]) ∧
  ([0x45FA0000#32, 0x473B8000#32, 0x483B8000#32].map (lfoInc Platform.default 0x3F000000#32) = [169773#32, 28296#32, 7074#32]) ∧
  ([0x45FA0000#32, 0x473B8000#32, 0x483B8000#32].map (lfoInc Platform.default 0x3F800000#32) =
    [5368709#32, 894785#32, 223696#32]) ∧
  ([0x00000000#32, 0x80000000#32, 0x40000000#32, 0xC0000000#32, 0x20000000#32].map (lfoSin .reference) =
    [0x00000000#32, 0x00000000#32, 0x3F800000#32, 0xBF800000#32, 0x3F3504F3#32]) ∧
  ([0x3F800000#32, 0xBF800000#32, 0x00000000#32, 0x80000000#32, 0x3F000000#32, 0xBF000000#32, 0x3E800000#32].map
    (ofs32 .ieee) = [0x80000000#32, 0x80000000#32, 0#32, 0#32, 0x40000000#32, 0xC0000000#32, 0x20000000#32])

/-- R247: the phase moves by the increment modulo 2^32. Only a wrap draws: the next point becomes the previous one, the generator steps,
and its new state as a signed integer times 2^-31 is the next point. -/
def Obligations.LfoAdvanceDrawsOnWrap : Prop :=
  ∀ (dn : Denorm) (l : Lfo),
    (lfoAdvance dn l).ph.toNat = (l.ph.toNat + l.inc.toNat) % 2 ^ 32 ∧ (lfoAdvance dn l).inc = l.inc ∧
    (l.ph.toNat + l.inc.toNat < 2 ^ 32 →
      (lfoAdvance dn l).np = l.np ∧ (lfoAdvance dn l).nn = l.nn ∧ (lfoAdvance dn l).rng = l.rng) ∧
    (2 ^ 32 ≤ l.ph.toNat + l.inc.toNat →
      (lfoAdvance dn l).np = l.nn ∧ (lfoAdvance dn l).rng = xs32 l.rng ∧
      (lfoAdvance dn l).nn = fmul dn (i2f (xs32 l.rng).toInt) 0x30000000#32)

/-- R247: XS32 is the three xor-shifts by 13 left, 17 right and 5 left, on 32 bits; it takes two different states to two different
states, and only 0 to 0. From 0x9E3779B9 the first three states and their noise points are those of the rule's example. -/
def Obligations.NoiseGeneratorIsInvertible : Prop :=
  (∀ x : Word, ∃ y z : Nat, y = x.toNat ^^^ (x.toNat * 2 ^ 13 % 2 ^ 32) ∧ z = y ^^^ (y / 2 ^ 17) ∧
    (xs32 x).toNat = z ^^^ (z * 2 ^ 5 % 2 ^ 32)) ∧
  (∀ x y : Word, xs32 x = xs32 y → x = y) ∧ (∀ x : Word, xs32 x = 0#32 ↔ x = 0#32) ∧
  (xs32 0x9E3779B9#32 = 0x510C4619#32 ∧ xs32 0x510C4619#32 = 0xE02E553E#32 ∧ xs32 0xE02E553E#32 = 0x7BB98F3A#32) ∧
  ([0x510C4619#32, 0xE02E553E#32, 0x7BB98F3A#32].map (noisePoint .ieee) = [0x3F22188C#32, 0xBE7E8D56#32, 0x3F77731E#32])

/-- R247: every noise point lies in [-1.0, 1.0], whichever DENORM is. -/
def Obligations.NoisePointsAreBounded : Prop :=
  ∀ (dn : Denorm) (r : Word), inDomain (noisePoint dn r) 0xBF800000#32 0x3F800000#32

/-- R201: with the default literals (log 1), at every legal sample rate the design frequency of every band is positive and below half the
rate, and is the band's table entry or FREQ_CLAMP times the rate, whichever is smaller. -/
def Obligations.DesignFrequenciesStayBelowNyquist : Prop :=
  ∀ (dn : Denorm) (fs : F32) (b : Band),
    let cfg : Platform := { Platform.default with denorm := dn }
    let f := effFreq cfg fs b
    legalRate cfg.lits fs = true →
      isPositive f = true ∧ 2 * magOf f < magOf fs ∧
      fle f cfg.lits.freq[b] = true ∧ fle f (fmul dn cfg.lits.freqClamp fs) = true ∧
      (f = cfg.lits.freq[b] ∨ f = fmul dn cfg.lits.freqClamp fs)

/-! ### Delay lines (42) -/

/-- R281: the delay in samples is at least 1.0 and at most DMAX. -/
def Obligations.DelayTimeIsClamped : Prop :=
  ∀ (dn : Denorm) (sr t : F32) (dmax : Nat), 1 ≤ dmax → dmax < 2 ^ 24 →
    inDomain (delaySetTime dn sr dmax t) one (u2f dmax) ∧ isNaN (delaySetTime dn sr dmax t) = false

/-- R283: for a delay in [1.0, DMAX], with DMAX at most DLEN - 2 and below 2^24, and a cursor in range, the whole part of the delay is
from 1 to DMAX; DELAY.READ gives the linear interpolation, in the rule's order of operations, between the words written that many
frames ago and one more, keeps it as the line's feedback sample and moves no cursor; and neither word is the one at the cursor, so no
value written there changes it. That the cursor stays in range is MemoryStaysCanonical's; DLEN is the machine's literal (log 1). -/
def Obligations.DelayReadAvoidsCursor : Prop :=
  ∀ (s : State) (c : Chan) (b : Band) (d : F32) (dmax : Nat),
    let dn := s.cfg.denorm
    let n := s.cfg.lits.dlen
    let l := laneGet s.lines c b
    let di := ffloor d
    dmax + 2 ≤ n → dmax < 2 ^ 24 → inDomain d one (u2f dmax) → l.w < n →
    1 ≤ di ∧ di ≤ dmax ∧ ∃ i0 i1 : Nat,
      i0 = (l.w + n - di) % n ∧ i1 = (l.w + n - di - 1) % n ∧
      i0 ≠ l.w ∧ i1 ≠ l.w ∧
      delayRead c b d s =
        (let s0 := dRead s.mem c b i0
         let s1 := dRead s.mem c b i1
         let r := fadd dn s0 (fmul dn (fsub dn d (u2f di)) (fsub dn s1 s0))
         ({ s with lines := laneSet s.lines c b { l with fb := r } }, r)) ∧
      ∀ v, (delayRead c b d { s with mem := dWrite s.mem c b l.w v }).2 = (delayRead c b d s).2

/-- R288: a cleared line reads as exactly +0.0 for every delay in [1.0, DMAX], DMAX being at most DLEN - 2 and below 2^24 (with the default
DLEN it always is; log 1). -/
def Obligations.ClearedLineReadsZero : Prop :=
  ∀ (s : State) (c : Chan) (b : Band) (d : F32) (dmax : Nat),
    dmax + 2 ≤ s.cfg.lits.dlen → dmax < 2 ^ 24 → inDomain d one (u2f dmax) →
    (delayRead c b d (delayClear c b s)).2 = 0x00000000#32

/-- R285, R280: DELAY.WRITE stores the value unchanged at the cursor, where a delay of one frame then finds it, and moves the cursor on by
one modulo DLEN. It changes no other line's registers, and every byte outside the word stays: the word's byte address and the
canonical memory are the model's choice (log 9, 10). A cursor in range is the premise, which MemoryStaysCanonical keeps. -/
def Obligations.DelayWriteStoresAtCursor : Prop :=
  ∀ (c : Chan) (b : Band) (v : F32) (s : State), Memory.wf s.mem → (laneGet s.lines c b).w < s.cfg.lits.dlen →
    let w := (laneGet s.lines c b).w
    let t := delayWrite c b v s
    dRead t.mem c b w = v ∧ behind s.cfg.lits.dlen (laneGet t.lines c b).w 1 = w ∧
    (laneGet t.lines c b).w = (w + 1) % s.cfg.lits.dlen ∧ (laneGet t.lines c b).fb = (laneGet s.lines c b).fb ∧
    (∀ a, (a < wordAddr c b w ∨ wordAddr c b w + 4 ≤ a) → readByte t.mem a = readByte s.mem a) ∧
    (∀ c' b', ¬(c' = c ∧ b' = b) → laneGet t.lines c' b' = laneGet s.lines c' b') ∧
    { t with mem := s.mem, lines := s.lines } = s

/-- R287: DELAY.CLEAR zeroes every word, the cursor and the feedback sample of its line, and touches no other line and no other byte
(byte addresses: log 9). -/
def Obligations.DelayClearIsPrivate : Prop :=
  ∀ (c : Chan) (b : Band) (s : State),
    LineSilent (delayClear c b s) c b ∧
    (∀ c' b', ¬(c' = c ∧ b' = b) → laneGet (delayClear c b s).lines c' b' = laneGet s.lines c' b') ∧
    (∀ a, ¬inLine s.cfg.lits.dlen c b a → readByte (delayClear c b s).mem a = readByte s.mem a) ∧
    { delayClear c b s with mem := s.mem, lines := s.lines } = s

/-! ### Frames (43, 44) -/

/-- R249, R327, R358: in a frame every band's LFO advances once, every smoother advances once toward its target, and every filter takes
its channel's sample once, whatever the enables and the routing mode are. With the equations: the LFO value of the frame (R245, R246,
R243), the smoother step y + a(t - y) and its six targets (R322, R325), and the biquad sections one after another (R208), v k being what
section k takes and v n the filter's output. -/
def Obligations.FrameAdvancesEveryBand : Prop :=
  (∀ (x : AudioFrame) (s : State) (b : Band),
    let dn := s.cfg.denorm
    let p := s.active.band[b]
    let l := s.lfo[b]
    let y := s.smooth[b]
    let a := s.coefs
    let toward (y a t : F32) : F32 := fadd dn y (fmul dn a (fsub dn t y))
    let v : F32 := if s.active.wave = .sine then
        lfoSin s.cfg.unit (l.ph + BitVec.ofInt 32 (roundToInt (fmul dn p.lfoOfs 0x4F000000#32)))
      else fadd dn l.np (fmul dn (fsub dn l.nn l.np) (fmul dn (u2f (l.ph.toNat / 2 ^ 8)) 0x33800000#32))
    (frame x s).lfo[b] = lfoAdvance dn l ∧
    (frame x s).smooth[b] =
      { gain := toward y.gain a.gain (if p.pol then fneg dn p.gain else p.gain)
        lfo := toward y.lfo a.lfo (fmul dn p.lfoDepth v)
        dt := toward y.dt a.slow p.dlyTime
        fb := toward y.fb a.slow p.dlyFb
        wet := toward y.wet a.slow (fsqrt dn p.dlyMix)
        dry := toward y.dry a.slow (fsqrt dn (fsub dn 0x3F800000#32 p.dlyMix)) } ∧
    laneGet (frame x s).filters 0 b = (filterProcess dn (activeSections s.active.order) (laneGet s.filters 0 b) x.1).1 ∧
    laneGet (frame x s).filters 1 b = (filterProcess dn (activeSections s.active.order) (laneGet s.filters 1 b) x.2).1) ∧
  (∀ (dn : Denorm) (n : Nat) (f : Filter) (x : F32), n ≤ 4 →
    ∃ v : Nat → F32, v 0 = x ∧ (filterProcess dn n f x).2 = v n ∧ ∀ k : Sec,
      (n ≤ k.val → (filterProcess dn n f x).1[k] = f[k]) ∧
      (k.val < n →
        let q := f[k]
        v (k.val + 1) = fadd dn (fmul dn q.coef.b0 (v k.val)) q.s1 ∧
        (filterProcess dn n f x).1[k] =
          { coef := q.coef
            s1 := fadd dn (fsub dn (fmul dn q.coef.b1 (v k.val)) (fmul dn q.coef.a1 (v (k.val + 1)))) q.s2
            s2 := fsub dn (fmul dn q.coef.b2 (v k.val)) (fmul dn q.coef.a2 (v (k.val + 1))) }))

/-- R353, R351, R352, R289, R283, R285: in a frame an enabled band's line reads r at the delay d = clamp(dt * SR) behind its cursor, keeps r as
its feedback sample, writes f + r * fb at the old cursor (f being the filter's output times the band's gain g) and moves the cursor by
one; every other word stays. A disabled band's lines are neither read nor written. The word written reads back from a memory in its
canonical form, which is the model's own (log 10). -/
def Obligations.FrameTouchesEnabledLines : Prop :=
  ∀ (x : AudioFrame) (s : State) (c : Chan) (b : Band),
    (s.active.band[b].dlyEn = false → laneGet (frame x s).lines c b = laneGet s.lines c b ∧
      ∀ i, dRead (frame x s).mem c b i = dRead s.mem c b i) ∧
    (s.active.band[b].dlyEn = true →
      let dn := s.cfg.denorm
      let l := laneGet s.lines c b
      let y := (frame x s).smooth[b]
      let g := if s.active.band[b].lfoEn then fmul dn y.gain (fadd dn 0x3F800000#32 y.lfo) else y.gain
      let f := fmul dn (filterProcess dn (activeSections s.active.order) (laneGet s.filters c b)
        (if c = 0 then x.1 else x.2)).2 g
      let r := delayValue s.cfg s.mem c b l.w (fclamp dn (fmul dn y.dt s.sr) 0x3F800000#32 (u2f s.dmax))
      laneGet (frame x s).lines c b = { l with w := (l.w + 1) % s.cfg.lits.dlen, fb := r } ∧
      (Memory.wf s.mem → dRead (frame x s).mem c b l.w = fadd dn f (fmul dn r y.fb)) ∧
      ∀ i, i ≠ l.w → dRead (frame x s).mem c b i = dRead s.mem c b i)

/-- R350, R356: what a frame's computation puts out and what it leaves. The samples in E.out are the DC-blocked channel sums, and each
channel's DC blocker keeps its sum and its sample. A channel sum adds from +0.0, in ascending band order, the contributions of the routed
bands for that channel's input sample (ChannelSumAddsRoutedBands says what a contribution is), from the lane states before the
frame and with the smoother outputs that BAND.MODULATE has just advanced. The parameters, the rates, the key, STATUS, E.mode, E.left and
every port stay. That the ports stay and the output stands in E.out is the model's choice (log 13): 44 R350's FRAME begins with
InPop and ends with OutPush, which the model makes part of the engine's moves around the computation. -/
def Obligations.FrameLeavesTheRest : Prop :=
  ∀ (x : AudioFrame) (s : State),
    let dn := s.cfg.denorm
    let t := frame x s
    let s1 := { s with lfo := t.lfo, smooth := t.smooth }
    let sum (c : Chan) (v : F32) : F32 :=
      ((bands.filter (routeSelect s.active.route)).map (contribution c v s1)).foldl (fadd dn) 0x00000000#32
    let sample (c : Chan) (v : F32) : F32 := fadd dn (fsub dn (sum c v) s.dc[c].x1) (fmul dn s.cfg.lits.dcR s.dc[c].y1)
    t.out = some (sample 0 x.1, sample 1 x.2) ∧
    t.dc[(0 : Chan)] = { x1 := sum 0 x.1, y1 := sample 0 x.1 } ∧
    t.dc[(1 : Chan)] = { x1 := sum 1 x.2, y1 := sample 1 x.2 } ∧
    { t with out := s.out, lfo := s.lfo, smooth := s.smooth, filters := s.filters, lines := s.lines, mem := s.mem,
             dc := s.dc } = s

/-- R355, R354: a channel's sum starts at +0.0 and adds, in ascending band order, the contributions of exactly the bands that the routing
mode selects, each computed from the state before the channel: no band's contribution depends on another band. R351, R352, R353: the
contribution is f, the filter's output times the band's gain g, and with the delay enabled r * wet + f * dry, r being the line's
delayed value. -/
def Obligations.ChannelSumAddsRoutedBands : Prop :=
  ∀ (c : Chan) (x : F32) (s : State),
    (channelFrame c x s).2 = dcValue s.cfg s.dc[c]
      (((bands.filter (routeSelect s.active.route)).map (contribution c x s)).foldl (fadd s.cfg.denorm) 0x00000000#32) ∧
    ∀ b : Band,
      let dn := s.cfg.denorm
      let y := s.smooth[b]
      let g := if s.active.band[b].lfoEn then fmul dn y.gain (fadd dn 0x3F800000#32 y.lfo) else y.gain
      let f := fmul dn (filterProcess dn (activeSections s.active.order) (laneGet s.filters c b) x).2 g
      let r := delayValue s.cfg s.mem c b (laneGet s.lines c b).w (fclamp dn (fmul dn y.dt s.sr) 0x3F800000#32 (u2f s.dmax))
      contribution c x s b =
        if s.active.band[b].dlyEn then fadd dn (fmul dn r y.wet) (fmul dn f y.dry) else f

/-- R357: the channels share no state. Neither channel's output sample nor any of its lane state after a frame (filters, delay-line
registers, delay words, DC blocker) depends on the other channel's input sample. The memory is in its canonical form, which is the
model's own (log 10). -/
def Obligations.ChannelsDoNotMix : Prop :=
  ∀ (x0 x0' x1 x1' : F32) (s : State), Memory.wf s.mem →
    let same (c : Chan) (t u : State) : Prop :=
      t.dc[c] = u.dc[c] ∧ ∀ b, laneGet t.filters c b = laneGet u.filters c b ∧ laneGet t.lines c b = laneGet u.lines c b ∧
        ∀ i, dRead t.mem c b i = dRead u.mem c b i
    (frame (x0, x1) s).out.map Prod.fst = (frame (x0, x1') s).out.map Prod.fst ∧
    (frame (x0, x1) s).out.map Prod.snd = (frame (x0', x1) s).out.map Prod.snd ∧
    same 0 (frame (x0, x1) s) (frame (x0, x1') s) ∧ same 1 (frame (x0, x1) s) (frame (x0', x1) s)

/-- R356: the DC blocker of one channel: its output, its new state, and nothing else. -/
def Obligations.DcBlockEquation : Prop :=
  ∀ (c : Chan) (x : F32) (s : State),
    let y := fadd s.cfg.denorm (fsub s.cfg.denorm x s.dc[c].x1) (fmul s.cfg.denorm s.cfg.lits.dcR s.dc[c].y1)
    dcBlock c x s = ({ s with dc := s.dc.set c { x1 := x, y1 := y } }, y)

/-- R81: with the reset parameters active and the smoothers at their reset outputs, no smoother moves in a frame, for finite smoother
coefficients and finite LFO values. -/
def Obligations.ResetParametersMoveNoSmoother : Prop :=
  ∀ (x : AudioFrame) (s : State), s.active.band = Vector.replicate 16 BandParams.reset →
    s.smooth = Vector.replicate 16 Smoothers.reset →
    isFinite s.coefs.gain = true → isFinite s.coefs.lfo = true → isFinite s.coefs.slow = true →
    (∀ b : Band, isFinite (lfoValue s.cfg s.active.wave s.active.band[b].lfoOfs s.lfo[b]) = true) →
    (frame x s).smooth = s.smooth

/-! ### Blocks (44) -/

/-- R350, R382: the running engine with no frame to push takes the oldest input frame, both words of it, and computes it; R382, R383: with
a frame to push and room for it, it pushes it, counts it, and after the last one goes idle and changes nothing else. It waits on nothing
else. The model's own in this: a frame is two moves, with the computed frame held in E.out (log 13, DESIGN CHOICE); the push, the
count and BLOCK.END are one move (log 14, DEDUCED); a waiting engine answers the same state (log 15, DEDUCED). -/
def Obligations.EngineMoves : Prop :=
  ∀ s : State, s.mode = .running → 1 ≤ s.left →
    (∀ x0 x1 rest, s.out = none → s.ain = x0 :: x1 :: rest → framesReadable s = true →
      engineMove s = .next (frame (x0, x1) { s with ain := rest })) ∧
    (s.out = none → s.ain.length < 2 → engineMove s = .next s) ∧
    (∀ y, s.out = some y → aoutFull s = true → engineMove s = .next s) ∧
    (∀ y0 y1, s.out = some (y0, y1) → aoutFull s = false → engineMove s = .next { s with
      aout := s.aout ++ [y0, y1]
      out := none
      left := s.left - 1
      mode := if s.left = 1 then .idle else .running })

/-- R380 to R383, R105, R106: a block of n frames with n frames on AIN and room on AOUT runs to its end in 2n moves of the engine. It takes
exactly n frames (2n words) from AIN, oldest first, and puts exactly n behind what AOUT held: the k-th output frame is the one that
FRAME computes from the k-th input frame in the state that the frames before it leave. The datapath is left as those n frames
leave it, the parameters and the command side as they were. The two moves of a frame and the end at the last push are the model's
(log 13, 14); that the lines it reads are defined is the model's premise (log 8). -/
def Obligations.BlockRunsToItsEnd : Prop :=
  ∀ (s : State) (n : Nat), s.mode = .running → s.out = none → s.left = n → 1 ≤ n → 2 * n ≤ s.ain.length →
    streamHolds s.cfg 2 (s.aout.length + 2 * n) = true → framesReadable s = true →
    let xs := framesOf (s.ain.take (2 * n))
    let ys := blockOutput xs s
    let u := framesRun xs s
    engineRun (2 * n) s = .next { u with
      mode := .idle, left := 0, out := none, ain := s.ain.drop (2 * n), aout := s.aout ++ ys } ∧
    xs.length = n ∧ ys.length = 2 * n ∧
    (∀ k x, xs[k]? = some x → (framesOf ys)[k]? = (frame x (framesRun (xs.take k) s)).out) ∧
    u.withCommandSide s = u ∧ u.active = s.active ∧ u.key = s.key ∧ u.sr = s.sr

/-! ### The command side and the engine do not touch each other (20 R113) -/

/-- R113, R450: a command other than INIT and BLOCK changes the staging set, STATUS, CMD and RESP only: nothing that the engine reads. -/
def Obligations.CommandsLeaveTheEngine : Prop :=
  ∀ (i : Instr) (s t : State), i.reachesEngine = false → exec i s = .next t → t = s.withCommandSide t

/-- R113, R116: the engine changes nothing on the command side. -/
def Obligations.EngineLeavesTheCommands : Prop :=
  ∀ s t : State, engineMove s = .next t → t = t.withCommandSide s ∧ t.active = s.active ∧ t.sr = s.sr ∧ t.cfg = s.cfg ∧
    t.host = s.host ∧ t.sched = s.sched ∧ t.turns = s.turns

/-- R113: a command that reaches no engine state and does not read BUSY, and a move of the engine, give the same state in either
order. So a running block does not see it, whenever it comes. -/
def Obligations.CommandsAndEngineCommute : Prop :=
  ∀ (i : Instr) (s t u : State), i.reachesEngine = false → i.readsBusy = false → exec i s = .next t →
    engineMove s = .next u → engineMove t = .next (u.withCommandSide t) ∧ exec i u = .next (u.withCommandSide t)

/-! ### Properties that every step keeps -/

/-- R60: every cursor stays in [0, DLEN - 1]. The memory keeps its canonical form and lists addresses of the delay space only: both are
the model's own (log 9, 10); R100 gives the space. -/
def Obligations.MemoryStaysCanonical : Prop :=
  ∀ s t : State, MemoryCanonical s → step s = .next t → MemoryCanonical t

/-- R50, R52, R451, R473: staged and active parameters stay inside their domains, which the machine's literals make (log 1). -/
def Obligations.ParametersStayLegal : Prop :=
  ∀ s t : State, ParamsLegal s → step s = .next t → ParamsLegal t

/-- R59, R247: no noise generator ever becomes 0. -/
def Obligations.NoiseNeverDies : Prop :=
  ∀ s t : State, NoiseAlive s → step s = .next t → NoiseAlive t

/-- R41, R380: E.left is 0 while idle and from 1 to BLOCK_MAX while a block runs, and no output frame waits in E.out while idle. That at
least one frame is left in every running state holds because the model ends the block in the same step as its last push (log 14), and
E.out is the model's field (log 13). -/
def Obligations.SequencingStaysSound : Prop :=
  ∀ s t : State, Sequenced s → step s = .next t → Sequenced t

/-- R53, R54, R61: INIT_DONE keeps saying that SR is legal, DMAX fits it and every line is defined, and its absence that SR is 0.0 and no
block runs. -/
def Obligations.InitialisationStaysSound : Prop :=
  ∀ s t : State, InitSound s → step s = .next t → InitSound t

/-- R56, R202, R207: taps of inactive sections stay +0.0, and the coefficient key of a running block stays its own. -/
def Obligations.InactiveSectionsStayQuiet : Prop :=
  ∀ s t : State, FiltersSound s → step s = .next t → FiltersSound t

/-- R56: the coefficients of both channels of a band stay equal. R210: on a conforming platform every active section stays stable, its
coefficients with |a2| < 1 and |a1| < 1 + a2, from a state whose sample rate INIT accepted; which platforms conform is a premise (log 4). -/
def Obligations.ChannelCoefficientsStayEqual : Prop :=
  (∀ s t : State, ChannelsAgree s → step s = .next t → ChannelsAgree t) ∧
  (∀ s t : State, InitSound s → SectionsStable s → step s = .next t → SectionsStable t)

/-- R54, R501: ERRCODE stays 1 to 5 while ERR is 1, and the error fields stay 0 while it is 0. -/
def Obligations.StatusStaysSound : Prop :=
  ∀ s t : State, StatusSound s → step s = .next t → StatusSound t

/-- R289: while a block runs, the lines of every disabled band stay clear. -/
def Obligations.DisabledLinesStaySilent : Prop :=
  ∀ s t : State, DisabledSilent s → step s = .next t → DisabledSilent t

/-- Every one of these properties holds right after reset. -/
def Obligations.ResetHasEveryInvariant : Prop := StateSound State.reset

/-- R543, R10, R80: from a state with the invariants no run ever faults or is refused; in particular no run from reset reads a delay word
that nothing has defined (the mark that says so is the model's, log 8). -/
def Obligations.RunsAreSafe : Prop := (∀ s : State, StateSound s → Safe s) ∧ Safe State.reset

/-- R552: the values that reset leaves unspecified cannot be observed. Two states that differ in nothing else step alike and go on
differing in nothing else; RESP and AOUT are among the fields that agree. Any choice of the values after reset is covered. -/
def Obligations.UnspecifiedResetValuesAreUnobservable : Prop :=
  (∀ s t : State, Sequenced s → InitSound s → FiltersSound s → AgreeUpToUnspecified s t →
    AlikeOutcome AgreeUpToUnspecified (step s) (step t)) ∧
  (∀ (d : Design) (o : FilterOrder) (fs : F32) (q : Chan → Band → Sec → Coef) (m : Nat) (a : SmoothCoefs),
    AgreeUpToUnspecified State.reset { State.reset with
      key := { valid := false, design := d, order := o, fs := fs }
      dmax := m
      coefs := a
      filters := lanesOf fun c b => secOf fun k => { coef := q c b k, s1 := posZero, s2 := posZero } })

/-- R104, R105: each transfer of the host is one word: it takes the oldest word of a port or appends one behind the youngest; a sender waits
on a full stream and a receiver on an empty one. The host's list of transfers is the model's (log 12), and so is the room that
CMD and AIN have for one whole pair or frame when the depth is one word (log 3). -/
def Obligations.HostTransfersAreFifo : Prop :=
  ∀ (s : State) (later : List HostAct),
    (∀ w, s.host = .sendCmd w :: later → hostMove s = { s with cmd := s.cmd ++ [w], host := later } ∧
      hostReady s = streamHolds s.cfg 2 (s.cmd.length + 1)) ∧
    (∀ w, s.host = .sendSample w :: later → hostMove s = { s with ain := s.ain ++ [w], host := later } ∧
      hostReady s = streamHolds s.cfg 2 (s.ain.length + 1)) ∧
    (∀ w rest, s.host = .takeResp :: later → s.resp = w :: rest → hostMove s = { s with resp := rest, host := later } ∧
      hostReady s = true) ∧
    (∀ w rest, s.host = .takeSample :: later → s.aout = w :: rest → hostMove s = { s with aout := rest, host := later } ∧
      hostReady s = true) ∧
    (s.host = .takeResp :: later → s.resp = [] → hostReady s = false) ∧
    (s.host = .takeSample :: later → s.aout = [] → hostReady s = false)

/-- R80, R550: the machine right after reset, in every field to which the spec gives a value, with any literals and any other argument
(the fields R552 leaves unspecified are the model's choice, log 7, and not stated). -/
def Obligations.ResetValues : Prop :=
  ∀ cfg : Platform,
  let s := State.resetOf cfg
  (∀ b : Band, s.staging.band[b] =
    { gain := 0x3F800000#32, pol := false, lfoRate := 0#32, lfoDepth := 0#32, lfoOfs := 0#32, lfoEn := false
      dlyTime := 0#32, dlyFb := 0#32, dlyMix := 0#32, dlyEn := false }) ∧
  s.staging.design = .d0 ∧ s.staging.order = .o2 ∧ s.staging.route = .all ∧
  s.staging.wave = .sine ∧ s.active = s.staging ∧
  s.sr = 0#32 ∧ statusWord s = 0#32 ∧ s.mode = .idle ∧ s.left = 0 ∧
  s.key.valid = false ∧
  (∀ c b, ∀ k : Sec, (laneGet s.filters c b)[k].s1 = 0#32 ∧ (laneGet s.filters c b)[k].s2 = 0#32) ∧
  (∀ b : Band, s.lfo[b] = { ph := 0#32, inc := 0#32, rng := cfg.lits.noiseSeed[b], np := 0#32, nn := 0#32 }) ∧
  (∀ c b, (laneGet s.lines c b).w = 0 ∧ (laneGet s.lines c b).fb = 0#32) ∧
  (∀ b : Band, s.smooth[b] =
    { gain := 0x3F800000#32, lfo := 0#32, dt := 0#32, fb := 0#32, wet := 0#32, dry := 0x3F800000#32 }) ∧
  (∀ c : Chan, s.dc[c] = { x1 := 0#32, y1 := 0#32 }) ∧
  State.reset = State.resetOf Platform.default ∧ s.cfg = cfg ∧
  s.cmd = [] ∧ s.resp = [] ∧ s.ain = [] ∧ s.aout = []
end

