-- ==== Sys2Proof/Laws/Arrays.lean ====
section
/-! SUPPORT. Reading back what was put into the arrays by channel, band and section. -/

namespace Sys2Proof.Machine

theorem bankOf_get {α : Type} (f : Band → α) (b : Band) : (bankOf f)[b] = f b := by
  fin_cases b <;> rfl

@[simp] theorem lanesOf_get {α : Type} (f : Chan → Band → α) (c : Chan) (b : Band) : laneGet (lanesOf f) c b = f c b := by
  have h : (lanesOf f)[c] = bankOf (f c) := by fin_cases c <;> rfl
  unfold laneGet
  rw [h, bankOf_get]

theorem secOf_get (f : Sec → Section) (k : Sec) : (secOf f)[k] = f k := by
  fin_cases k <;> rfl

theorem bank_set_same {α : Type} (v : Bank α) (b : Band) (x : α) : (v.set b x)[b] = x := by
  simp

theorem bank_set_get {α : Type} (v : Bank α) (b b' : Band) (x : α) : (v.set b x)[b'] = if b = b' then x else v[b'] := by
  simp [Vector.getElem_set, Fin.ext_iff]

theorem bank_set_other {α : Type} (v : Bank α) {b b' : Band} (x : α) (h : b' ≠ b) : (v.set b x)[b'] = v[b'] := by
  rw [bank_set_get, if_neg (Ne.symm h)]

theorem laneSet_get {α : Type} (g : Lanes α) (c c' : Chan) (b b' : Band) (x : α) :
    laneGet (laneSet g c b x) c' b' = if c = c' ∧ b = b' then x else laneGet g c' b' := by
  unfold laneGet laneSet
  by_cases hc : c = c'
  · subst hc
    by_cases hb : b = b'
    · subst hb; simp
    · have : b.val ≠ b'.val := fun h => hb (Fin.ext h)
      simp [hb, this]
  · have : c.val ≠ c'.val := fun h => hc (Fin.ext h)
    simp [hc, this]

@[simp] theorem laneSet_same {α : Type} (g : Lanes α) (c : Chan) (b : Band) (x : α) :
    laneGet (laneSet g c b x) c b = x := by
  rw [laneSet_get, if_pos ⟨rfl, rfl⟩]

theorem laneSet_other {α : Type} (g : Lanes α) {c c' : Chan} {b b' : Band} (x : α) (h : ¬(c' = c ∧ b' = b)) :
    laneGet (laneSet g c b x) c' b' = laneGet g c' b' := by
  rw [laneSet_get, if_neg (fun e => h ⟨e.1.symm, e.2.symm⟩)]

/-- Two arrays with the same entries are equal. -/
theorem lanes_ext {α : Type} {g h : Lanes α} (e : ∀ c b, laneGet g c b = laneGet h c b) : g = h := by
  apply Vector.ext
  intro c hc
  apply Vector.ext
  intro b hb
  exact e ⟨c, hc⟩ ⟨b, hb⟩

/-- Two banks with the same entries are equal. -/
theorem bank_ext {α : Type} {g h : Bank α} (e : ∀ b : Band, g[b] = h[b]) : g = h := by
  apply Vector.ext
  intro b hb
  exact e ⟨b, hb⟩

theorem mem_bands (b : Band) : b ∈ bands := by fin_cases b <;> decide

theorem mem_chans (c : Chan) : c ∈ chans := by fin_cases c <;> decide

theorem bands_nodup : bands.Nodup := by decide

end Sys2Proof.Machine
end

