-- ==== Sys2Proof/Laws/Memory.lean ====
section
/-! SUPPORT. The laws of the delay RAM: every operation keeps the canonical form, a byte reads as it was last written, and
every other byte reads as before. -/

namespace Sys2Proof.Machine

/-! ### One byte -/

theorem readByte_listByte_other (m : Memory) {a a' : Nat} (v : Byte) (h : a' ≠ a) :
    readByte (listByte a v m) a' = readByte m a' := by
  unfold listByte
  split
  · rfl
  · simp [readByte, Ne.symm h]

/-- A write leaves every other byte as it was, whatever the form of the memory. -/
theorem readByte_writeByte_other (m : Memory) {a a' : Nat} (v : Byte) (h : a' ≠ a) :
    readByte (writeByte m a v) a' = readByte m a' := by
  induction m with
  | nil => exact readByte_listByte_other _ _ h
  | cons e rest ih =>
    obtain ⟨k, x⟩ := e
    simp only [writeByte]
    split
    · exact readByte_listByte_other _ _ h
    · split
      · next hk => subst hk; rw [readByte_listByte_other _ _ h]; simp [readByte, Ne.symm h]
      · simp only [readByte]; rw [ih]

/-- An address below every listed one is unlisted. -/
theorem readByte_unlisted (m : Memory) (a : Nat) (h : ∀ x ∈ m, x.1 ≠ a) : readByte m a = unlistedByte := by
  induction m with
  | nil => rfl
  | cons e rest ih =>
    obtain ⟨k, x⟩ := e
    have hk : k ≠ a := h (k, x) (by simp)
    simp only [readByte, if_neg hk]
    exact ih (fun y hy => h y (by simp [hy]))

theorem readByte_listByte_same (m : Memory) (a : Nat) (v : Byte) (h : ∀ x ∈ m, x.1 ≠ a) :
    readByte (listByte a v m) a = v := by
  unfold listByte
  split
  · next hv => rw [readByte_unlisted m a h, hv]
  · simp [readByte]

/-- A byte reads as it was written. -/
theorem readByte_writeByte_same (m : Memory) (a : Nat) (v : Byte) (h : m.Pairwise (fun x y => x.1 < y.1)) :
    readByte (writeByte m a v) a = v := by
  induction m with
  | nil => exact readByte_listByte_same [] a v (by simp)
  | cons e rest ih =>
    obtain ⟨k, x⟩ := e
    obtain ⟨h1, h2⟩ := List.pairwise_cons.mp h
    simp only [writeByte]
    split
    · next hk =>
      apply readByte_listByte_same
      intro y hy
      rcases List.mem_cons.mp hy with rfl | hy
      · exact Nat.ne_of_gt hk
      · have := h1 y hy; omega
    · split
      · next hk =>
        apply readByte_listByte_same
        intro y hy
        have := h1 y hy; omega
      · next hk => simp only [readByte, if_neg (Ne.symm hk)]; exact ih h2

theorem mem_listByte {m : Memory} {a : Nat} {v : Byte} {x : Host.Cell} (h : x ∈ listByte a v m) :
    x ∈ m ∨ x = (a, v) ∧ v ≠ unlistedByte := by
  unfold listByte at h
  split at h
  · exact .inl h
  · next hv => rcases List.mem_cons.mp h with rfl | h; exacts [.inr ⟨rfl, hv⟩, .inl h]

theorem mem_writeByte {m : Memory} {a : Nat} {v : Byte} {x : Host.Cell} (h : x ∈ writeByte m a v) :
    x ∈ m ∨ x = (a, v) ∧ v ≠ unlistedByte := by
  induction m with
  | nil => exact mem_listByte h
  | cons e rest ih =>
    obtain ⟨k, y⟩ := e
    simp only [writeByte] at h
    split at h
    · exact mem_listByte h
    · split at h
      · exact (mem_listByte h).imp_left (List.mem_cons_of_mem _)
      · rcases List.mem_cons.mp h with rfl | h
        · exact .inl (by simp)
        · exact (ih h).imp_left (List.mem_cons_of_mem _)

theorem listByte_sorted {m : Memory} {a : Nat} {v : Byte} (h : m.Pairwise (fun x y => x.1 < y.1))
    (ha : ∀ x ∈ m, a < x.1) : (listByte a v m).Pairwise (fun x y => x.1 < y.1) := by
  unfold listByte
  split
  · exact h
  · exact List.pairwise_cons.mpr ⟨ha, h⟩

theorem writeByte_sorted {m : Memory} {a : Nat} {v : Byte} (h : m.Pairwise (fun x y => x.1 < y.1)) :
    (writeByte m a v).Pairwise (fun x y => x.1 < y.1) := by
  induction m with
  | nil => exact listByte_sorted h (by simp)
  | cons e rest ih =>
    obtain ⟨k, x⟩ := e
    obtain ⟨h1, h2⟩ := List.pairwise_cons.mp h
    simp only [writeByte]
    split
    · next hk =>
      apply listByte_sorted h
      intro y hy
      rcases List.mem_cons.mp hy with rfl | hy
      · exact hk
      · have := h1 y hy; exact Nat.lt_trans hk this
    · split
      · next hk => exact listByte_sorted h2 (fun y hy => hk ▸ h1 y hy)
      · next hk hne =>
        refine List.pairwise_cons.mpr ⟨?_, ih h2⟩
        intro y hy
        rcases mem_writeByte hy with hy | ⟨rfl, -⟩
        · exact h1 y hy
        · exact Nat.lt_of_le_of_ne (Nat.le_of_not_lt hk) (Ne.symm hne)

/-- Writing a byte keeps the canonical form. -/
theorem writeByte_wf {m : Memory} (h : Memory.wf m) (a : Nat) (v : Byte) : Memory.wf (writeByte m a v) :=
  ⟨writeByte_sorted h.1, fun x hx => by
    rcases mem_writeByte hx with hx | ⟨rfl, hv⟩
    exacts [h.2 x hx, hv]⟩

/-! ### A set of bytes -/

/-- Clearing bytes keeps the canonical form. -/
theorem clearBytes_wf {m : Memory} (h : Memory.wf m) (p : Nat → Bool) : Memory.wf (clearBytes m p) :=
  ⟨List.Pairwise.filter _ h.1, fun x hx => h.2 x (List.mem_filter.mp hx).1⟩

/-- Clearing bytes leaves every other byte as it was. -/
theorem readByte_clearBytes_other (m : Memory) {p : Nat → Bool} {a : Nat} (h : p a = false) :
    readByte (clearBytes m p) a = readByte m a := by
  induction m with
  | nil => rfl
  | cons e rest ih =>
    obtain ⟨k, x⟩ := e
    simp only [clearBytes, List.filter_cons] at ih ⊢
    split
    · simp only [readByte]; rw [ih]
    · next hk =>
      have : k ≠ a := by
        rintro rfl
        simp [h] at hk
      rw [ih]; simp [readByte, this]

/-- Every cleared byte reads as an unlisted one. -/
theorem readByte_clearBytes_same (m : Memory) {p : Nat → Bool} {a : Nat} (h : p a = true) :
    readByte (clearBytes m p) a = unlistedByte := by
  apply readByte_unlisted
  intro x hx e
  have := (List.mem_filter.mp hx).2
  simp [e, h] at this

/-! ### Words -/

/-- Writing a word keeps the canonical form. -/
theorem dWrite_wf {m : Memory} (h : Memory.wf m) (c : Chan) (b : Band) (i : Nat) (v : F32) :
    Memory.wf (dWrite m c b i v) :=
  writeByte_wf (writeByte_wf (writeByte_wf (writeByte_wf h _ _) _ _) _ _) _ _

/-- Clearing a line keeps the canonical form. -/
theorem clearWords_wf {m : Memory} (h : Memory.wf m) (n : Nat) (c : Chan) (b : Band) : Memory.wf (clearWords m n c b) :=
  clearBytes_wf h _

/-- The words of a delay space of n words a line lie below 128·n. -/
theorem wordAddr_lt (c : Chan) (b : Band) {i n : Nat} (h : i < n) : wordAddr c b i + 3 < 128 * n := by
  have hc := chan_lt c
  have hb := band_lt b
  simp only [wordAddr]
  omega

/-- The bytes of word i belong to its line, if the line has that word. -/
theorem inLine_word (n : Nat) (c c' : Chan) (b b' : Band) (i : Nat) {j : Nat} (hj : j < 4) :
    inLine n c b (wordAddr c' b' i + j) ↔ c' = c ∧ b' = b ∧ i < n := by
  have hc := chan_lt c
  have hb := band_lt b
  have hc' := chan_lt c'
  have hb' := band_lt b'
  simp only [inLine, wordAddr, Fin.ext_iff]
  omega

/-- Different words have no byte in common. -/
theorem wordAddr_apart {c c' : Chan} {b b' : Band} {i i' : Nat} (h : ¬(c' = c ∧ b' = b ∧ i' = i)) :
    wordAddr c' b' i' + 3 < wordAddr c b i ∨ wordAddr c b i + 3 < wordAddr c' b' i' := by
  have hb := band_lt b
  have hb' := band_lt b'
  have hc := chan_lt c
  have hc' := chan_lt c'
  simp only [Fin.ext_iff] at h
  simp only [wordAddr]
  omega

/-- A word write leaves every byte outside the word as it was. -/
theorem readByte_dWrite_other (m : Memory) (c : Chan) (b : Band) (i : Nat) (v : F32) {a : Nat}
    (h : a < wordAddr c b i ∨ wordAddr c b i + 3 < a) : readByte (dWrite m c b i v) a = readByte m a := by
  simp only [dWrite]
  rw [readByte_writeByte_other _ _ (by omega), readByte_writeByte_other _ _ (by omega),
    readByte_writeByte_other _ _ (by omega), readByte_writeByte_other _ _ (by omega)]

/-- A word write leaves every other word as it was. -/
theorem dRead_dWrite_other (m : Memory) {c c' : Chan} {b b' : Band} {i i' : Nat} (v : F32)
    (h : ¬(c' = c ∧ b' = b ∧ i' = i)) : dRead (dWrite m c b i v) c' b' i' = dRead m c' b' i' := by
  have := wordAddr_apart h
  simp only [dRead]
  rw [readByte_dWrite_other, readByte_dWrite_other, readByte_dWrite_other, readByte_dWrite_other] <;> omega

/-- The bytes of a word make the word again. -/
theorem wordOfBytes_byteOfWord (w : Word) :
    wordOfBytes (byteOfWord w 0) (byteOfWord w 1) (byteOfWord w 2) (byteOfWord w 3) = w := by
  apply BitVec.eq_of_getLsbD_eq
  intro j hj
  interval_cases j <;> simp [wordOfBytes, byteOfWord]

/-- A word reads as it was written. -/
theorem dRead_dWrite_same {m : Memory} (h : Memory.wf m) (c : Chan) (b : Band) (i : Nat) (v : F32) :
    dRead (dWrite m c b i v) c b i = v := by
  have h0 := h.1
  have h1 := writeByte_sorted (a := wordAddr c b i) (v := byteOfWord v 0) h0
  have h2 := writeByte_sorted (a := wordAddr c b i + 1) (v := byteOfWord v 1) h1
  have h3 := writeByte_sorted (a := wordAddr c b i + 2) (v := byteOfWord v 2) h2
  have e0 : readByte (dWrite m c b i v) (wordAddr c b i) = byteOfWord v 0 := by
    simp only [dWrite]
    rw [readByte_writeByte_other _ _ (by omega), readByte_writeByte_other _ _ (by omega),
      readByte_writeByte_other _ _ (by omega), readByte_writeByte_same _ _ _ h0]
  have e1 : readByte (dWrite m c b i v) (wordAddr c b i + 1) = byteOfWord v 1 := by
    simp only [dWrite]
    rw [readByte_writeByte_other _ _ (by omega), readByte_writeByte_other _ _ (by omega),
      readByte_writeByte_same _ _ _ h1]
  have e2 : readByte (dWrite m c b i v) (wordAddr c b i + 2) = byteOfWord v 2 := by
    simp only [dWrite]
    rw [readByte_writeByte_other _ _ (by omega), readByte_writeByte_same _ _ _ h2]
  have e3 : readByte (dWrite m c b i v) (wordAddr c b i + 3) = byteOfWord v 3 :=
    readByte_writeByte_same _ _ _ h3
  simp only [dRead, e0, e1, e2, e3, wordOfBytes_byteOfWord]

/-- Every word of a cleared line is +0.0. -/
theorem dRead_clearWords_same (m : Memory) {n i : Nat} (c : Chan) (b : Band) (h : i < n) :
    dRead (clearWords m n c b) c b i = posZero := by
  have key : ∀ j, j < 4 → readByte (clearWords m n c b) (wordAddr c b i + j) = unlistedByte := fun j hj =>
    readByte_clearBytes_same m (by simpa using (inLine_word n c c b b i hj).mpr ⟨rfl, rfl, h⟩)
  have k0 := key 0 (by decide)
  simp only [dRead, Nat.add_zero] at k0 ⊢
  rw [k0, key 1 (by decide), key 2 (by decide), key 3 (by decide)]
  decide

/-- Clearing a line leaves every byte outside it as it was. -/
theorem readByte_clearWords_other (m : Memory) (n : Nat) (c : Chan) (b : Band) {a : Nat} (h : ¬inLine n c b a) :
    readByte (clearWords m n c b) a = readByte m a :=
  readByte_clearBytes_other m (by simpa using h)

/-- Clearing a line leaves every other line as it was. -/
theorem dRead_clearWords_other (m : Memory) (n : Nat) {c c' : Chan} {b b' : Band} (i : Nat)
    (h : ¬(c' = c ∧ b' = b)) : dRead (clearWords m n c b) c' b' i = dRead m c' b' i := by
  have key : ∀ j, j < 4 → readByte (clearWords m n c b) (wordAddr c' b' i + j) = readByte m (wordAddr c' b' i + j) := fun j hj =>
    readByte_clearWords_other m n c b (fun e => h ⟨((inLine_word n c c' b b' i hj).mp e).1, ((inLine_word n c c' b b' i hj).mp e).2.1⟩)
  have k0 := key 0 (by decide)
  simp only [dRead, Nat.add_zero] at k0 ⊢
  rw [k0, key 1 (by decide), key 2 (by decide), key 3 (by decide)]

/-- The memory after reset has the canonical form. -/
theorem reset_mem_wf : Memory.wf State.reset.mem := by decide

end Sys2Proof.Machine
end

