-- ==== Sys2Proof/Laws/State.lean ====
section
/-! SUPPORT. What each update of the state leaves as it was: one lemma per field per update, tagged simp, so that no later
proof unfolds a record update. The fields that the basic updates change follow; Laws/Frame.lean and Laws/Start.lean have those of the larger ones. -/

namespace Sys2Proof.Machine

/-- What every step of a fold keeps, the fold keeps. -/
theorem foldl_keeps {α β : Type} (f : State → α → State) (p : State → β) (h : ∀ s a, p (f s a) = p s) (l : List α)
    (s : State) : p (l.foldl f s) = p s := by
  induction l generalizing s with
  | nil => rfl
  | cons a l ih => rw [List.foldl_cons, ih, h]

/-- The same for a fold that carries a value beside the state. -/
theorem foldl_keeps_fst {α β γ : Type} (f : State × γ → α → State × γ) (p : State → β)
    (h : ∀ s c a, p (f (s, c) a).1 = p s) (l : List α) (s : State) (c : γ) : p (l.foldl f (s, c)).1 = p s := by
  induction l generalizing s c with
  | nil => rfl
  | cons a l ih => rw [List.foldl_cons, ← Prod.mk.eta (p := f (s, c) a), ih, h]

/-! ### retire -/

@[simp] theorem retire_cfg (s : State) : (retire s).cfg = s.cfg := rfl
@[simp] theorem retire_staging (s : State) : (retire s).staging = s.staging := rfl
@[simp] theorem retire_active (s : State) : (retire s).active = s.active := rfl
@[simp] theorem retire_sr (s : State) : (retire s).sr = s.sr := rfl
@[simp] theorem retire_status (s : State) : (retire s).status = s.status := rfl
@[simp] theorem retire_mode (s : State) : (retire s).mode = s.mode := rfl
@[simp] theorem retire_left (s : State) : (retire s).left = s.left := rfl
@[simp] theorem retire_out (s : State) : (retire s).out = s.out := rfl
@[simp] theorem retire_filters (s : State) : (retire s).filters = s.filters := rfl
@[simp] theorem retire_key (s : State) : (retire s).key = s.key := rfl
@[simp] theorem retire_lfo (s : State) : (retire s).lfo = s.lfo := rfl
@[simp] theorem retire_lines (s : State) : (retire s).lines = s.lines := rfl
@[simp] theorem retire_mem (s : State) : (retire s).mem = s.mem := rfl
@[simp] theorem retire_dmax (s : State) : (retire s).dmax = s.dmax := rfl
@[simp] theorem retire_coefs (s : State) : (retire s).coefs = s.coefs := rfl
@[simp] theorem retire_smooth (s : State) : (retire s).smooth = s.smooth := rfl
@[simp] theorem retire_dc (s : State) : (retire s).dc = s.dc := rfl
@[simp] theorem retire_resp (s : State) : (retire s).resp = s.resp := rfl
@[simp] theorem retire_ain (s : State) : (retire s).ain = s.ain := rfl
@[simp] theorem retire_aout (s : State) : (retire s).aout = s.aout := rfl
@[simp] theorem retire_host (s : State) : (retire s).host = s.host := rfl
@[simp] theorem retire_sched (s : State) : (retire s).sched = s.sched := rfl
@[simp] theorem retire_turns (s : State) : (retire s).turns = s.turns := rfl

/-! ### respPush -/

@[simp] theorem respPush_cfg (w : Word) (s : State) : (respPush w s).cfg = s.cfg := rfl
@[simp] theorem respPush_staging (w : Word) (s : State) : (respPush w s).staging = s.staging := rfl
@[simp] theorem respPush_active (w : Word) (s : State) : (respPush w s).active = s.active := rfl
@[simp] theorem respPush_sr (w : Word) (s : State) : (respPush w s).sr = s.sr := rfl
@[simp] theorem respPush_status (w : Word) (s : State) : (respPush w s).status = s.status := rfl
@[simp] theorem respPush_mode (w : Word) (s : State) : (respPush w s).mode = s.mode := rfl
@[simp] theorem respPush_left (w : Word) (s : State) : (respPush w s).left = s.left := rfl
@[simp] theorem respPush_out (w : Word) (s : State) : (respPush w s).out = s.out := rfl
@[simp] theorem respPush_filters (w : Word) (s : State) : (respPush w s).filters = s.filters := rfl
@[simp] theorem respPush_key (w : Word) (s : State) : (respPush w s).key = s.key := rfl
@[simp] theorem respPush_lfo (w : Word) (s : State) : (respPush w s).lfo = s.lfo := rfl
@[simp] theorem respPush_lines (w : Word) (s : State) : (respPush w s).lines = s.lines := rfl
@[simp] theorem respPush_mem (w : Word) (s : State) : (respPush w s).mem = s.mem := rfl
@[simp] theorem respPush_dmax (w : Word) (s : State) : (respPush w s).dmax = s.dmax := rfl
@[simp] theorem respPush_coefs (w : Word) (s : State) : (respPush w s).coefs = s.coefs := rfl
@[simp] theorem respPush_smooth (w : Word) (s : State) : (respPush w s).smooth = s.smooth := rfl
@[simp] theorem respPush_dc (w : Word) (s : State) : (respPush w s).dc = s.dc := rfl
@[simp] theorem respPush_cmd (w : Word) (s : State) : (respPush w s).cmd = s.cmd := rfl
@[simp] theorem respPush_ain (w : Word) (s : State) : (respPush w s).ain = s.ain := rfl
@[simp] theorem respPush_aout (w : Word) (s : State) : (respPush w s).aout = s.aout := rfl
@[simp] theorem respPush_host (w : Word) (s : State) : (respPush w s).host = s.host := rfl
@[simp] theorem respPush_sched (w : Word) (s : State) : (respPush w s).sched = s.sched := rfl
@[simp] theorem respPush_turns (w : Word) (s : State) : (respPush w s).turns = s.turns := rfl

/-! ### raiseError -/

@[simp] theorem raiseError_cfg (e : ErrorCode) (op : BitVec 8) (s : State) : (raiseError e op s).cfg = s.cfg := rfl
@[simp] theorem raiseError_staging (e : ErrorCode) (op : BitVec 8) (s : State) : (raiseError e op s).staging = s.staging := rfl
@[simp] theorem raiseError_active (e : ErrorCode) (op : BitVec 8) (s : State) : (raiseError e op s).active = s.active := rfl
@[simp] theorem raiseError_sr (e : ErrorCode) (op : BitVec 8) (s : State) : (raiseError e op s).sr = s.sr := rfl
@[simp] theorem raiseError_mode (e : ErrorCode) (op : BitVec 8) (s : State) : (raiseError e op s).mode = s.mode := rfl
@[simp] theorem raiseError_left (e : ErrorCode) (op : BitVec 8) (s : State) : (raiseError e op s).left = s.left := rfl
@[simp] theorem raiseError_out (e : ErrorCode) (op : BitVec 8) (s : State) : (raiseError e op s).out = s.out := rfl
@[simp] theorem raiseError_filters (e : ErrorCode) (op : BitVec 8) (s : State) : (raiseError e op s).filters = s.filters := rfl
@[simp] theorem raiseError_key (e : ErrorCode) (op : BitVec 8) (s : State) : (raiseError e op s).key = s.key := rfl
@[simp] theorem raiseError_lfo (e : ErrorCode) (op : BitVec 8) (s : State) : (raiseError e op s).lfo = s.lfo := rfl
@[simp] theorem raiseError_lines (e : ErrorCode) (op : BitVec 8) (s : State) : (raiseError e op s).lines = s.lines := rfl
@[simp] theorem raiseError_mem (e : ErrorCode) (op : BitVec 8) (s : State) : (raiseError e op s).mem = s.mem := rfl
@[simp] theorem raiseError_dmax (e : ErrorCode) (op : BitVec 8) (s : State) : (raiseError e op s).dmax = s.dmax := rfl
@[simp] theorem raiseError_coefs (e : ErrorCode) (op : BitVec 8) (s : State) : (raiseError e op s).coefs = s.coefs := rfl
@[simp] theorem raiseError_smooth (e : ErrorCode) (op : BitVec 8) (s : State) : (raiseError e op s).smooth = s.smooth := rfl
@[simp] theorem raiseError_dc (e : ErrorCode) (op : BitVec 8) (s : State) : (raiseError e op s).dc = s.dc := rfl
@[simp] theorem raiseError_resp (e : ErrorCode) (op : BitVec 8) (s : State) : (raiseError e op s).resp = s.resp := rfl
@[simp] theorem raiseError_ain (e : ErrorCode) (op : BitVec 8) (s : State) : (raiseError e op s).ain = s.ain := rfl
@[simp] theorem raiseError_aout (e : ErrorCode) (op : BitVec 8) (s : State) : (raiseError e op s).aout = s.aout := rfl
@[simp] theorem raiseError_host (e : ErrorCode) (op : BitVec 8) (s : State) : (raiseError e op s).host = s.host := rfl
@[simp] theorem raiseError_sched (e : ErrorCode) (op : BitVec 8) (s : State) : (raiseError e op s).sched = s.sched := rfl
@[simp] theorem raiseError_turns (e : ErrorCode) (op : BitVec 8) (s : State) : (raiseError e op s).turns = s.turns := rfl

/-! ### stageBand -/

@[simp] theorem stageBand_cfg (b : Band) (f : BandParams → BandParams) (s : State) : (stageBand b f s).cfg = s.cfg := rfl
@[simp] theorem stageBand_active (b : Band) (f : BandParams → BandParams) (s : State) : (stageBand b f s).active = s.active := rfl
@[simp] theorem stageBand_sr (b : Band) (f : BandParams → BandParams) (s : State) : (stageBand b f s).sr = s.sr := rfl
@[simp] theorem stageBand_status (b : Band) (f : BandParams → BandParams) (s : State) : (stageBand b f s).status = s.status := rfl
@[simp] theorem stageBand_mode (b : Band) (f : BandParams → BandParams) (s : State) : (stageBand b f s).mode = s.mode := rfl
@[simp] theorem stageBand_left (b : Band) (f : BandParams → BandParams) (s : State) : (stageBand b f s).left = s.left := rfl
@[simp] theorem stageBand_out (b : Band) (f : BandParams → BandParams) (s : State) : (stageBand b f s).out = s.out := rfl
@[simp] theorem stageBand_filters (b : Band) (f : BandParams → BandParams) (s : State) : (stageBand b f s).filters = s.filters := rfl
@[simp] theorem stageBand_key (b : Band) (f : BandParams → BandParams) (s : State) : (stageBand b f s).key = s.key := rfl
@[simp] theorem stageBand_lfo (b : Band) (f : BandParams → BandParams) (s : State) : (stageBand b f s).lfo = s.lfo := rfl
@[simp] theorem stageBand_lines (b : Band) (f : BandParams → BandParams) (s : State) : (stageBand b f s).lines = s.lines := rfl
@[simp] theorem stageBand_mem (b : Band) (f : BandParams → BandParams) (s : State) : (stageBand b f s).mem = s.mem := rfl
@[simp] theorem stageBand_dmax (b : Band) (f : BandParams → BandParams) (s : State) : (stageBand b f s).dmax = s.dmax := rfl
@[simp] theorem stageBand_coefs (b : Band) (f : BandParams → BandParams) (s : State) : (stageBand b f s).coefs = s.coefs := rfl
@[simp] theorem stageBand_smooth (b : Band) (f : BandParams → BandParams) (s : State) : (stageBand b f s).smooth = s.smooth := rfl
@[simp] theorem stageBand_dc (b : Band) (f : BandParams → BandParams) (s : State) : (stageBand b f s).dc = s.dc := rfl
@[simp] theorem stageBand_cmd (b : Band) (f : BandParams → BandParams) (s : State) : (stageBand b f s).cmd = s.cmd := rfl
@[simp] theorem stageBand_resp (b : Band) (f : BandParams → BandParams) (s : State) : (stageBand b f s).resp = s.resp := rfl
@[simp] theorem stageBand_ain (b : Band) (f : BandParams → BandParams) (s : State) : (stageBand b f s).ain = s.ain := rfl
@[simp] theorem stageBand_aout (b : Band) (f : BandParams → BandParams) (s : State) : (stageBand b f s).aout = s.aout := rfl
@[simp] theorem stageBand_host (b : Band) (f : BandParams → BandParams) (s : State) : (stageBand b f s).host = s.host := rfl
@[simp] theorem stageBand_sched (b : Band) (f : BandParams → BandParams) (s : State) : (stageBand b f s).sched = s.sched := rfl
@[simp] theorem stageBand_turns (b : Band) (f : BandParams → BandParams) (s : State) : (stageBand b f s).turns = s.turns := rfl

/-! ### stageGlobal -/

@[simp] theorem stageGlobal_cfg (f : ParamSet → ParamSet) (s : State) : (stageGlobal f s).cfg = s.cfg := rfl
@[simp] theorem stageGlobal_active (f : ParamSet → ParamSet) (s : State) : (stageGlobal f s).active = s.active := rfl
@[simp] theorem stageGlobal_sr (f : ParamSet → ParamSet) (s : State) : (stageGlobal f s).sr = s.sr := rfl
@[simp] theorem stageGlobal_status (f : ParamSet → ParamSet) (s : State) : (stageGlobal f s).status = s.status := rfl
@[simp] theorem stageGlobal_mode (f : ParamSet → ParamSet) (s : State) : (stageGlobal f s).mode = s.mode := rfl
@[simp] theorem stageGlobal_left (f : ParamSet → ParamSet) (s : State) : (stageGlobal f s).left = s.left := rfl
@[simp] theorem stageGlobal_out (f : ParamSet → ParamSet) (s : State) : (stageGlobal f s).out = s.out := rfl
@[simp] theorem stageGlobal_filters (f : ParamSet → ParamSet) (s : State) : (stageGlobal f s).filters = s.filters := rfl
@[simp] theorem stageGlobal_key (f : ParamSet → ParamSet) (s : State) : (stageGlobal f s).key = s.key := rfl
@[simp] theorem stageGlobal_lfo (f : ParamSet → ParamSet) (s : State) : (stageGlobal f s).lfo = s.lfo := rfl
@[simp] theorem stageGlobal_lines (f : ParamSet → ParamSet) (s : State) : (stageGlobal f s).lines = s.lines := rfl
@[simp] theorem stageGlobal_mem (f : ParamSet → ParamSet) (s : State) : (stageGlobal f s).mem = s.mem := rfl
@[simp] theorem stageGlobal_dmax (f : ParamSet → ParamSet) (s : State) : (stageGlobal f s).dmax = s.dmax := rfl
@[simp] theorem stageGlobal_coefs (f : ParamSet → ParamSet) (s : State) : (stageGlobal f s).coefs = s.coefs := rfl
@[simp] theorem stageGlobal_smooth (f : ParamSet → ParamSet) (s : State) : (stageGlobal f s).smooth = s.smooth := rfl
@[simp] theorem stageGlobal_dc (f : ParamSet → ParamSet) (s : State) : (stageGlobal f s).dc = s.dc := rfl
@[simp] theorem stageGlobal_cmd (f : ParamSet → ParamSet) (s : State) : (stageGlobal f s).cmd = s.cmd := rfl
@[simp] theorem stageGlobal_resp (f : ParamSet → ParamSet) (s : State) : (stageGlobal f s).resp = s.resp := rfl
@[simp] theorem stageGlobal_ain (f : ParamSet → ParamSet) (s : State) : (stageGlobal f s).ain = s.ain := rfl
@[simp] theorem stageGlobal_aout (f : ParamSet → ParamSet) (s : State) : (stageGlobal f s).aout = s.aout := rfl
@[simp] theorem stageGlobal_host (f : ParamSet → ParamSet) (s : State) : (stageGlobal f s).host = s.host := rfl
@[simp] theorem stageGlobal_sched (f : ParamSet → ParamSet) (s : State) : (stageGlobal f s).sched = s.sched := rfl
@[simp] theorem stageGlobal_turns (f : ParamSet → ParamSet) (s : State) : (stageGlobal f s).turns = s.turns := rfl

/-! ### latch -/

@[simp] theorem latch_cfg (s : State) : (latch s).cfg = s.cfg := rfl
@[simp] theorem latch_staging (s : State) : (latch s).staging = s.staging := rfl
@[simp] theorem latch_sr (s : State) : (latch s).sr = s.sr := rfl
@[simp] theorem latch_status (s : State) : (latch s).status = s.status := rfl
@[simp] theorem latch_mode (s : State) : (latch s).mode = s.mode := rfl
@[simp] theorem latch_left (s : State) : (latch s).left = s.left := rfl
@[simp] theorem latch_out (s : State) : (latch s).out = s.out := rfl
@[simp] theorem latch_filters (s : State) : (latch s).filters = s.filters := rfl
@[simp] theorem latch_key (s : State) : (latch s).key = s.key := rfl
@[simp] theorem latch_lfo (s : State) : (latch s).lfo = s.lfo := rfl
@[simp] theorem latch_lines (s : State) : (latch s).lines = s.lines := rfl
@[simp] theorem latch_mem (s : State) : (latch s).mem = s.mem := rfl
@[simp] theorem latch_dmax (s : State) : (latch s).dmax = s.dmax := rfl
@[simp] theorem latch_coefs (s : State) : (latch s).coefs = s.coefs := rfl
@[simp] theorem latch_smooth (s : State) : (latch s).smooth = s.smooth := rfl
@[simp] theorem latch_dc (s : State) : (latch s).dc = s.dc := rfl
@[simp] theorem latch_cmd (s : State) : (latch s).cmd = s.cmd := rfl
@[simp] theorem latch_resp (s : State) : (latch s).resp = s.resp := rfl
@[simp] theorem latch_ain (s : State) : (latch s).ain = s.ain := rfl
@[simp] theorem latch_aout (s : State) : (latch s).aout = s.aout := rfl
@[simp] theorem latch_host (s : State) : (latch s).host = s.host := rfl
@[simp] theorem latch_sched (s : State) : (latch s).sched = s.sched := rfl
@[simp] theorem latch_turns (s : State) : (latch s).turns = s.turns := rfl

/-! ### filterUpdate -/

@[simp] theorem filterUpdate_cfg (s : State) : (filterUpdate s).cfg = s.cfg := by unfold filterUpdate; split <;> rfl
@[simp] theorem filterUpdate_staging (s : State) : (filterUpdate s).staging = s.staging := by unfold filterUpdate; split <;> rfl
@[simp] theorem filterUpdate_active (s : State) : (filterUpdate s).active = s.active := by unfold filterUpdate; split <;> rfl
@[simp] theorem filterUpdate_sr (s : State) : (filterUpdate s).sr = s.sr := by unfold filterUpdate; split <;> rfl
@[simp] theorem filterUpdate_status (s : State) : (filterUpdate s).status = s.status := by unfold filterUpdate; split <;> rfl
@[simp] theorem filterUpdate_mode (s : State) : (filterUpdate s).mode = s.mode := by unfold filterUpdate; split <;> rfl
@[simp] theorem filterUpdate_left (s : State) : (filterUpdate s).left = s.left := by unfold filterUpdate; split <;> rfl
@[simp] theorem filterUpdate_out (s : State) : (filterUpdate s).out = s.out := by unfold filterUpdate; split <;> rfl
@[simp] theorem filterUpdate_lfo (s : State) : (filterUpdate s).lfo = s.lfo := by unfold filterUpdate; split <;> rfl
@[simp] theorem filterUpdate_lines (s : State) : (filterUpdate s).lines = s.lines := by unfold filterUpdate; split <;> rfl
@[simp] theorem filterUpdate_mem (s : State) : (filterUpdate s).mem = s.mem := by unfold filterUpdate; split <;> rfl
@[simp] theorem filterUpdate_dmax (s : State) : (filterUpdate s).dmax = s.dmax := by unfold filterUpdate; split <;> rfl
@[simp] theorem filterUpdate_coefs (s : State) : (filterUpdate s).coefs = s.coefs := by unfold filterUpdate; split <;> rfl
@[simp] theorem filterUpdate_smooth (s : State) : (filterUpdate s).smooth = s.smooth := by unfold filterUpdate; split <;> rfl
@[simp] theorem filterUpdate_dc (s : State) : (filterUpdate s).dc = s.dc := by unfold filterUpdate; split <;> rfl
@[simp] theorem filterUpdate_cmd (s : State) : (filterUpdate s).cmd = s.cmd := by unfold filterUpdate; split <;> rfl
@[simp] theorem filterUpdate_resp (s : State) : (filterUpdate s).resp = s.resp := by unfold filterUpdate; split <;> rfl
@[simp] theorem filterUpdate_ain (s : State) : (filterUpdate s).ain = s.ain := by unfold filterUpdate; split <;> rfl
@[simp] theorem filterUpdate_aout (s : State) : (filterUpdate s).aout = s.aout := by unfold filterUpdate; split <;> rfl
@[simp] theorem filterUpdate_host (s : State) : (filterUpdate s).host = s.host := by unfold filterUpdate; split <;> rfl
@[simp] theorem filterUpdate_sched (s : State) : (filterUpdate s).sched = s.sched := by unfold filterUpdate; split <;> rfl
@[simp] theorem filterUpdate_turns (s : State) : (filterUpdate s).turns = s.turns := by unfold filterUpdate; split <;> rfl

/-! ### lfoSetRates -/

@[simp] theorem lfoSetRates_cfg (s : State) : (lfoSetRates s).cfg = s.cfg := rfl
@[simp] theorem lfoSetRates_staging (s : State) : (lfoSetRates s).staging = s.staging := rfl
@[simp] theorem lfoSetRates_active (s : State) : (lfoSetRates s).active = s.active := rfl
@[simp] theorem lfoSetRates_sr (s : State) : (lfoSetRates s).sr = s.sr := rfl
@[simp] theorem lfoSetRates_status (s : State) : (lfoSetRates s).status = s.status := rfl
@[simp] theorem lfoSetRates_mode (s : State) : (lfoSetRates s).mode = s.mode := rfl
@[simp] theorem lfoSetRates_left (s : State) : (lfoSetRates s).left = s.left := rfl
@[simp] theorem lfoSetRates_out (s : State) : (lfoSetRates s).out = s.out := rfl
@[simp] theorem lfoSetRates_filters (s : State) : (lfoSetRates s).filters = s.filters := rfl
@[simp] theorem lfoSetRates_key (s : State) : (lfoSetRates s).key = s.key := rfl
@[simp] theorem lfoSetRates_lines (s : State) : (lfoSetRates s).lines = s.lines := rfl
@[simp] theorem lfoSetRates_mem (s : State) : (lfoSetRates s).mem = s.mem := rfl
@[simp] theorem lfoSetRates_dmax (s : State) : (lfoSetRates s).dmax = s.dmax := rfl
@[simp] theorem lfoSetRates_coefs (s : State) : (lfoSetRates s).coefs = s.coefs := rfl
@[simp] theorem lfoSetRates_smooth (s : State) : (lfoSetRates s).smooth = s.smooth := rfl
@[simp] theorem lfoSetRates_dc (s : State) : (lfoSetRates s).dc = s.dc := rfl
@[simp] theorem lfoSetRates_cmd (s : State) : (lfoSetRates s).cmd = s.cmd := rfl
@[simp] theorem lfoSetRates_resp (s : State) : (lfoSetRates s).resp = s.resp := rfl
@[simp] theorem lfoSetRates_ain (s : State) : (lfoSetRates s).ain = s.ain := rfl
@[simp] theorem lfoSetRates_aout (s : State) : (lfoSetRates s).aout = s.aout := rfl
@[simp] theorem lfoSetRates_host (s : State) : (lfoSetRates s).host = s.host := rfl
@[simp] theorem lfoSetRates_sched (s : State) : (lfoSetRates s).sched = s.sched := rfl
@[simp] theorem lfoSetRates_turns (s : State) : (lfoSetRates s).turns = s.turns := rfl

/-! ### delayClear -/

@[simp] theorem delayClear_cfg (c : Chan) (b : Band) (s : State) : (delayClear c b s).cfg = s.cfg := rfl
@[simp] theorem delayClear_staging (c : Chan) (b : Band) (s : State) : (delayClear c b s).staging = s.staging := rfl
@[simp] theorem delayClear_active (c : Chan) (b : Band) (s : State) : (delayClear c b s).active = s.active := rfl
@[simp] theorem delayClear_sr (c : Chan) (b : Band) (s : State) : (delayClear c b s).sr = s.sr := rfl
@[simp] theorem delayClear_status (c : Chan) (b : Band) (s : State) : (delayClear c b s).status = s.status := rfl
@[simp] theorem delayClear_mode (c : Chan) (b : Band) (s : State) : (delayClear c b s).mode = s.mode := rfl
@[simp] theorem delayClear_left (c : Chan) (b : Band) (s : State) : (delayClear c b s).left = s.left := rfl
@[simp] theorem delayClear_out (c : Chan) (b : Band) (s : State) : (delayClear c b s).out = s.out := rfl
@[simp] theorem delayClear_filters (c : Chan) (b : Band) (s : State) : (delayClear c b s).filters = s.filters := rfl
@[simp] theorem delayClear_key (c : Chan) (b : Band) (s : State) : (delayClear c b s).key = s.key := rfl
@[simp] theorem delayClear_lfo (c : Chan) (b : Band) (s : State) : (delayClear c b s).lfo = s.lfo := rfl
@[simp] theorem delayClear_dmax (c : Chan) (b : Band) (s : State) : (delayClear c b s).dmax = s.dmax := rfl
@[simp] theorem delayClear_coefs (c : Chan) (b : Band) (s : State) : (delayClear c b s).coefs = s.coefs := rfl
@[simp] theorem delayClear_smooth (c : Chan) (b : Band) (s : State) : (delayClear c b s).smooth = s.smooth := rfl
@[simp] theorem delayClear_dc (c : Chan) (b : Band) (s : State) : (delayClear c b s).dc = s.dc := rfl
@[simp] theorem delayClear_cmd (c : Chan) (b : Band) (s : State) : (delayClear c b s).cmd = s.cmd := rfl
@[simp] theorem delayClear_resp (c : Chan) (b : Band) (s : State) : (delayClear c b s).resp = s.resp := rfl
@[simp] theorem delayClear_ain (c : Chan) (b : Band) (s : State) : (delayClear c b s).ain = s.ain := rfl
@[simp] theorem delayClear_aout (c : Chan) (b : Band) (s : State) : (delayClear c b s).aout = s.aout := rfl
@[simp] theorem delayClear_host (c : Chan) (b : Band) (s : State) : (delayClear c b s).host = s.host := rfl
@[simp] theorem delayClear_sched (c : Chan) (b : Band) (s : State) : (delayClear c b s).sched = s.sched := rfl
@[simp] theorem delayClear_turns (c : Chan) (b : Band) (s : State) : (delayClear c b s).turns = s.turns := rfl

/-! ### delayRead -/

@[simp] theorem delayRead_cfg (c : Chan) (b : Band) (d : F32) (s : State) : (delayRead c b d s).1.cfg = s.cfg := rfl
@[simp] theorem delayRead_staging (c : Chan) (b : Band) (d : F32) (s : State) : (delayRead c b d s).1.staging = s.staging := rfl
@[simp] theorem delayRead_active (c : Chan) (b : Band) (d : F32) (s : State) : (delayRead c b d s).1.active = s.active := rfl
@[simp] theorem delayRead_sr (c : Chan) (b : Band) (d : F32) (s : State) : (delayRead c b d s).1.sr = s.sr := rfl
@[simp] theorem delayRead_status (c : Chan) (b : Band) (d : F32) (s : State) : (delayRead c b d s).1.status = s.status := rfl
@[simp] theorem delayRead_mode (c : Chan) (b : Band) (d : F32) (s : State) : (delayRead c b d s).1.mode = s.mode := rfl
@[simp] theorem delayRead_left (c : Chan) (b : Band) (d : F32) (s : State) : (delayRead c b d s).1.left = s.left := rfl
@[simp] theorem delayRead_out (c : Chan) (b : Band) (d : F32) (s : State) : (delayRead c b d s).1.out = s.out := rfl
@[simp] theorem delayRead_filters (c : Chan) (b : Band) (d : F32) (s : State) : (delayRead c b d s).1.filters = s.filters := rfl
@[simp] theorem delayRead_key (c : Chan) (b : Band) (d : F32) (s : State) : (delayRead c b d s).1.key = s.key := rfl
@[simp] theorem delayRead_lfo (c : Chan) (b : Band) (d : F32) (s : State) : (delayRead c b d s).1.lfo = s.lfo := rfl
@[simp] theorem delayRead_mem (c : Chan) (b : Band) (d : F32) (s : State) : (delayRead c b d s).1.mem = s.mem := rfl
@[simp] theorem delayRead_dmax (c : Chan) (b : Band) (d : F32) (s : State) : (delayRead c b d s).1.dmax = s.dmax := rfl
@[simp] theorem delayRead_coefs (c : Chan) (b : Band) (d : F32) (s : State) : (delayRead c b d s).1.coefs = s.coefs := rfl
@[simp] theorem delayRead_smooth (c : Chan) (b : Band) (d : F32) (s : State) : (delayRead c b d s).1.smooth = s.smooth := rfl
@[simp] theorem delayRead_dc (c : Chan) (b : Band) (d : F32) (s : State) : (delayRead c b d s).1.dc = s.dc := rfl
@[simp] theorem delayRead_cmd (c : Chan) (b : Band) (d : F32) (s : State) : (delayRead c b d s).1.cmd = s.cmd := rfl
@[simp] theorem delayRead_resp (c : Chan) (b : Band) (d : F32) (s : State) : (delayRead c b d s).1.resp = s.resp := rfl
@[simp] theorem delayRead_ain (c : Chan) (b : Band) (d : F32) (s : State) : (delayRead c b d s).1.ain = s.ain := rfl
@[simp] theorem delayRead_aout (c : Chan) (b : Band) (d : F32) (s : State) : (delayRead c b d s).1.aout = s.aout := rfl
@[simp] theorem delayRead_host (c : Chan) (b : Band) (d : F32) (s : State) : (delayRead c b d s).1.host = s.host := rfl
@[simp] theorem delayRead_sched (c : Chan) (b : Band) (d : F32) (s : State) : (delayRead c b d s).1.sched = s.sched := rfl
@[simp] theorem delayRead_turns (c : Chan) (b : Band) (d : F32) (s : State) : (delayRead c b d s).1.turns = s.turns := rfl

/-! ### delayWrite -/

@[simp] theorem delayWrite_cfg (c : Chan) (b : Band) (v : F32) (s : State) : (delayWrite c b v s).cfg = s.cfg := rfl
@[simp] theorem delayWrite_staging (c : Chan) (b : Band) (v : F32) (s : State) : (delayWrite c b v s).staging = s.staging := rfl
@[simp] theorem delayWrite_active (c : Chan) (b : Band) (v : F32) (s : State) : (delayWrite c b v s).active = s.active := rfl
@[simp] theorem delayWrite_sr (c : Chan) (b : Band) (v : F32) (s : State) : (delayWrite c b v s).sr = s.sr := rfl
@[simp] theorem delayWrite_status (c : Chan) (b : Band) (v : F32) (s : State) : (delayWrite c b v s).status = s.status := rfl
@[simp] theorem delayWrite_mode (c : Chan) (b : Band) (v : F32) (s : State) : (delayWrite c b v s).mode = s.mode := rfl
@[simp] theorem delayWrite_left (c : Chan) (b : Band) (v : F32) (s : State) : (delayWrite c b v s).left = s.left := rfl
@[simp] theorem delayWrite_out (c : Chan) (b : Band) (v : F32) (s : State) : (delayWrite c b v s).out = s.out := rfl
@[simp] theorem delayWrite_filters (c : Chan) (b : Band) (v : F32) (s : State) : (delayWrite c b v s).filters = s.filters := rfl
@[simp] theorem delayWrite_key (c : Chan) (b : Band) (v : F32) (s : State) : (delayWrite c b v s).key = s.key := rfl
@[simp] theorem delayWrite_lfo (c : Chan) (b : Band) (v : F32) (s : State) : (delayWrite c b v s).lfo = s.lfo := rfl
@[simp] theorem delayWrite_dmax (c : Chan) (b : Band) (v : F32) (s : State) : (delayWrite c b v s).dmax = s.dmax := rfl
@[simp] theorem delayWrite_coefs (c : Chan) (b : Band) (v : F32) (s : State) : (delayWrite c b v s).coefs = s.coefs := rfl
@[simp] theorem delayWrite_smooth (c : Chan) (b : Band) (v : F32) (s : State) : (delayWrite c b v s).smooth = s.smooth := rfl
@[simp] theorem delayWrite_dc (c : Chan) (b : Band) (v : F32) (s : State) : (delayWrite c b v s).dc = s.dc := rfl
@[simp] theorem delayWrite_cmd (c : Chan) (b : Band) (v : F32) (s : State) : (delayWrite c b v s).cmd = s.cmd := rfl
@[simp] theorem delayWrite_resp (c : Chan) (b : Band) (v : F32) (s : State) : (delayWrite c b v s).resp = s.resp := rfl
@[simp] theorem delayWrite_ain (c : Chan) (b : Band) (v : F32) (s : State) : (delayWrite c b v s).ain = s.ain := rfl
@[simp] theorem delayWrite_aout (c : Chan) (b : Band) (v : F32) (s : State) : (delayWrite c b v s).aout = s.aout := rfl
@[simp] theorem delayWrite_host (c : Chan) (b : Band) (v : F32) (s : State) : (delayWrite c b v s).host = s.host := rfl
@[simp] theorem delayWrite_sched (c : Chan) (b : Band) (v : F32) (s : State) : (delayWrite c b v s).sched = s.sched := rfl
@[simp] theorem delayWrite_turns (c : Chan) (b : Band) (v : F32) (s : State) : (delayWrite c b v s).turns = s.turns := rfl

/-! ### smoothSetCutoff -/

@[simp] theorem smoothSetCutoff_cfg (s : State) : (smoothSetCutoff s).cfg = s.cfg := rfl
@[simp] theorem smoothSetCutoff_staging (s : State) : (smoothSetCutoff s).staging = s.staging := rfl
@[simp] theorem smoothSetCutoff_active (s : State) : (smoothSetCutoff s).active = s.active := rfl
@[simp] theorem smoothSetCutoff_sr (s : State) : (smoothSetCutoff s).sr = s.sr := rfl
@[simp] theorem smoothSetCutoff_status (s : State) : (smoothSetCutoff s).status = s.status := rfl
@[simp] theorem smoothSetCutoff_mode (s : State) : (smoothSetCutoff s).mode = s.mode := rfl
@[simp] theorem smoothSetCutoff_left (s : State) : (smoothSetCutoff s).left = s.left := rfl
@[simp] theorem smoothSetCutoff_out (s : State) : (smoothSetCutoff s).out = s.out := rfl
@[simp] theorem smoothSetCutoff_filters (s : State) : (smoothSetCutoff s).filters = s.filters := rfl
@[simp] theorem smoothSetCutoff_key (s : State) : (smoothSetCutoff s).key = s.key := rfl
@[simp] theorem smoothSetCutoff_lfo (s : State) : (smoothSetCutoff s).lfo = s.lfo := rfl
@[simp] theorem smoothSetCutoff_lines (s : State) : (smoothSetCutoff s).lines = s.lines := rfl
@[simp] theorem smoothSetCutoff_mem (s : State) : (smoothSetCutoff s).mem = s.mem := rfl
@[simp] theorem smoothSetCutoff_dmax (s : State) : (smoothSetCutoff s).dmax = s.dmax := rfl
@[simp] theorem smoothSetCutoff_smooth (s : State) : (smoothSetCutoff s).smooth = s.smooth := rfl
@[simp] theorem smoothSetCutoff_dc (s : State) : (smoothSetCutoff s).dc = s.dc := rfl
@[simp] theorem smoothSetCutoff_cmd (s : State) : (smoothSetCutoff s).cmd = s.cmd := rfl
@[simp] theorem smoothSetCutoff_resp (s : State) : (smoothSetCutoff s).resp = s.resp := rfl
@[simp] theorem smoothSetCutoff_ain (s : State) : (smoothSetCutoff s).ain = s.ain := rfl
@[simp] theorem smoothSetCutoff_aout (s : State) : (smoothSetCutoff s).aout = s.aout := rfl
@[simp] theorem smoothSetCutoff_host (s : State) : (smoothSetCutoff s).host = s.host := rfl
@[simp] theorem smoothSetCutoff_sched (s : State) : (smoothSetCutoff s).sched = s.sched := rfl
@[simp] theorem smoothSetCutoff_turns (s : State) : (smoothSetCutoff s).turns = s.turns := rfl

/-! ### modulate -/

@[simp] theorem modulate_cfg (b : Band) (s : State) : (modulate s b).cfg = s.cfg := rfl
@[simp] theorem modulate_staging (b : Band) (s : State) : (modulate s b).staging = s.staging := rfl
@[simp] theorem modulate_active (b : Band) (s : State) : (modulate s b).active = s.active := rfl
@[simp] theorem modulate_sr (b : Band) (s : State) : (modulate s b).sr = s.sr := rfl
@[simp] theorem modulate_status (b : Band) (s : State) : (modulate s b).status = s.status := rfl
@[simp] theorem modulate_mode (b : Band) (s : State) : (modulate s b).mode = s.mode := rfl
@[simp] theorem modulate_left (b : Band) (s : State) : (modulate s b).left = s.left := rfl
@[simp] theorem modulate_out (b : Band) (s : State) : (modulate s b).out = s.out := rfl
@[simp] theorem modulate_filters (b : Band) (s : State) : (modulate s b).filters = s.filters := rfl
@[simp] theorem modulate_key (b : Band) (s : State) : (modulate s b).key = s.key := rfl
@[simp] theorem modulate_lines (b : Band) (s : State) : (modulate s b).lines = s.lines := rfl
@[simp] theorem modulate_mem (b : Band) (s : State) : (modulate s b).mem = s.mem := rfl
@[simp] theorem modulate_dmax (b : Band) (s : State) : (modulate s b).dmax = s.dmax := rfl
@[simp] theorem modulate_coefs (b : Band) (s : State) : (modulate s b).coefs = s.coefs := rfl
@[simp] theorem modulate_dc (b : Band) (s : State) : (modulate s b).dc = s.dc := rfl
@[simp] theorem modulate_cmd (b : Band) (s : State) : (modulate s b).cmd = s.cmd := rfl
@[simp] theorem modulate_resp (b : Band) (s : State) : (modulate s b).resp = s.resp := rfl
@[simp] theorem modulate_ain (b : Band) (s : State) : (modulate s b).ain = s.ain := rfl
@[simp] theorem modulate_aout (b : Band) (s : State) : (modulate s b).aout = s.aout := rfl
@[simp] theorem modulate_host (b : Band) (s : State) : (modulate s b).host = s.host := rfl
@[simp] theorem modulate_sched (b : Band) (s : State) : (modulate s b).sched = s.sched := rfl
@[simp] theorem modulate_turns (b : Band) (s : State) : (modulate s b).turns = s.turns := rfl

/-! ### bandFilter -/

@[simp] theorem bandFilter_cfg (c : Chan) (b : Band) (x : F32) (s : State) : (bandFilter c b x s).1.cfg = s.cfg := rfl
@[simp] theorem bandFilter_staging (c : Chan) (b : Band) (x : F32) (s : State) : (bandFilter c b x s).1.staging = s.staging := rfl
@[simp] theorem bandFilter_active (c : Chan) (b : Band) (x : F32) (s : State) : (bandFilter c b x s).1.active = s.active := rfl
@[simp] theorem bandFilter_sr (c : Chan) (b : Band) (x : F32) (s : State) : (bandFilter c b x s).1.sr = s.sr := rfl
@[simp] theorem bandFilter_status (c : Chan) (b : Band) (x : F32) (s : State) : (bandFilter c b x s).1.status = s.status := rfl
@[simp] theorem bandFilter_mode (c : Chan) (b : Band) (x : F32) (s : State) : (bandFilter c b x s).1.mode = s.mode := rfl
@[simp] theorem bandFilter_left (c : Chan) (b : Band) (x : F32) (s : State) : (bandFilter c b x s).1.left = s.left := rfl
@[simp] theorem bandFilter_out (c : Chan) (b : Band) (x : F32) (s : State) : (bandFilter c b x s).1.out = s.out := rfl
@[simp] theorem bandFilter_key (c : Chan) (b : Band) (x : F32) (s : State) : (bandFilter c b x s).1.key = s.key := rfl
@[simp] theorem bandFilter_lfo (c : Chan) (b : Band) (x : F32) (s : State) : (bandFilter c b x s).1.lfo = s.lfo := rfl
@[simp] theorem bandFilter_lines (c : Chan) (b : Band) (x : F32) (s : State) : (bandFilter c b x s).1.lines = s.lines := rfl
@[simp] theorem bandFilter_mem (c : Chan) (b : Band) (x : F32) (s : State) : (bandFilter c b x s).1.mem = s.mem := rfl
@[simp] theorem bandFilter_dmax (c : Chan) (b : Band) (x : F32) (s : State) : (bandFilter c b x s).1.dmax = s.dmax := rfl
@[simp] theorem bandFilter_coefs (c : Chan) (b : Band) (x : F32) (s : State) : (bandFilter c b x s).1.coefs = s.coefs := rfl
@[simp] theorem bandFilter_smooth (c : Chan) (b : Band) (x : F32) (s : State) : (bandFilter c b x s).1.smooth = s.smooth := rfl
@[simp] theorem bandFilter_dc (c : Chan) (b : Band) (x : F32) (s : State) : (bandFilter c b x s).1.dc = s.dc := rfl
@[simp] theorem bandFilter_cmd (c : Chan) (b : Band) (x : F32) (s : State) : (bandFilter c b x s).1.cmd = s.cmd := rfl
@[simp] theorem bandFilter_resp (c : Chan) (b : Band) (x : F32) (s : State) : (bandFilter c b x s).1.resp = s.resp := rfl
@[simp] theorem bandFilter_ain (c : Chan) (b : Band) (x : F32) (s : State) : (bandFilter c b x s).1.ain = s.ain := rfl
@[simp] theorem bandFilter_aout (c : Chan) (b : Band) (x : F32) (s : State) : (bandFilter c b x s).1.aout = s.aout := rfl
@[simp] theorem bandFilter_host (c : Chan) (b : Band) (x : F32) (s : State) : (bandFilter c b x s).1.host = s.host := rfl
@[simp] theorem bandFilter_sched (c : Chan) (b : Band) (x : F32) (s : State) : (bandFilter c b x s).1.sched = s.sched := rfl
@[simp] theorem bandFilter_turns (c : Chan) (b : Band) (x : F32) (s : State) : (bandFilter c b x s).1.turns = s.turns := rfl

/-! ### bandDelay -/

@[simp] theorem bandDelay_cfg (c : Chan) (b : Band) (f : F32) (s : State) : (bandDelay c b f s).1.cfg = s.cfg := by unfold bandDelay; split <;> rfl
@[simp] theorem bandDelay_staging (c : Chan) (b : Band) (f : F32) (s : State) : (bandDelay c b f s).1.staging = s.staging := by unfold bandDelay; split <;> rfl
@[simp] theorem bandDelay_active (c : Chan) (b : Band) (f : F32) (s : State) : (bandDelay c b f s).1.active = s.active := by unfold bandDelay; split <;> rfl
@[simp] theorem bandDelay_sr (c : Chan) (b : Band) (f : F32) (s : State) : (bandDelay c b f s).1.sr = s.sr := by unfold bandDelay; split <;> rfl
@[simp] theorem bandDelay_status (c : Chan) (b : Band) (f : F32) (s : State) : (bandDelay c b f s).1.status = s.status := by unfold bandDelay; split <;> rfl
@[simp] theorem bandDelay_mode (c : Chan) (b : Band) (f : F32) (s : State) : (bandDelay c b f s).1.mode = s.mode := by unfold bandDelay; split <;> rfl
@[simp] theorem bandDelay_left (c : Chan) (b : Band) (f : F32) (s : State) : (bandDelay c b f s).1.left = s.left := by unfold bandDelay; split <;> rfl
@[simp] theorem bandDelay_out (c : Chan) (b : Band) (f : F32) (s : State) : (bandDelay c b f s).1.out = s.out := by unfold bandDelay; split <;> rfl
@[simp] theorem bandDelay_filters (c : Chan) (b : Band) (f : F32) (s : State) : (bandDelay c b f s).1.filters = s.filters := by unfold bandDelay; split <;> rfl
@[simp] theorem bandDelay_key (c : Chan) (b : Band) (f : F32) (s : State) : (bandDelay c b f s).1.key = s.key := by unfold bandDelay; split <;> rfl
@[simp] theorem bandDelay_lfo (c : Chan) (b : Band) (f : F32) (s : State) : (bandDelay c b f s).1.lfo = s.lfo := by unfold bandDelay; split <;> rfl
@[simp] theorem bandDelay_dmax (c : Chan) (b : Band) (f : F32) (s : State) : (bandDelay c b f s).1.dmax = s.dmax := by unfold bandDelay; split <;> rfl
@[simp] theorem bandDelay_coefs (c : Chan) (b : Band) (f : F32) (s : State) : (bandDelay c b f s).1.coefs = s.coefs := by unfold bandDelay; split <;> rfl
@[simp] theorem bandDelay_smooth (c : Chan) (b : Band) (f : F32) (s : State) : (bandDelay c b f s).1.smooth = s.smooth := by unfold bandDelay; split <;> rfl
@[simp] theorem bandDelay_dc (c : Chan) (b : Band) (f : F32) (s : State) : (bandDelay c b f s).1.dc = s.dc := by unfold bandDelay; split <;> rfl
@[simp] theorem bandDelay_cmd (c : Chan) (b : Band) (f : F32) (s : State) : (bandDelay c b f s).1.cmd = s.cmd := by unfold bandDelay; split <;> rfl
@[simp] theorem bandDelay_resp (c : Chan) (b : Band) (f : F32) (s : State) : (bandDelay c b f s).1.resp = s.resp := by unfold bandDelay; split <;> rfl
@[simp] theorem bandDelay_ain (c : Chan) (b : Band) (f : F32) (s : State) : (bandDelay c b f s).1.ain = s.ain := by unfold bandDelay; split <;> rfl
@[simp] theorem bandDelay_aout (c : Chan) (b : Band) (f : F32) (s : State) : (bandDelay c b f s).1.aout = s.aout := by unfold bandDelay; split <;> rfl
@[simp] theorem bandDelay_host (c : Chan) (b : Band) (f : F32) (s : State) : (bandDelay c b f s).1.host = s.host := by unfold bandDelay; split <;> rfl
@[simp] theorem bandDelay_sched (c : Chan) (b : Band) (f : F32) (s : State) : (bandDelay c b f s).1.sched = s.sched := by unfold bandDelay; split <;> rfl
@[simp] theorem bandDelay_turns (c : Chan) (b : Band) (f : F32) (s : State) : (bandDelay c b f s).1.turns = s.turns := by unfold bandDelay; split <;> rfl

/-! ### dcBlock -/

@[simp] theorem dcBlock_cfg (c : Chan) (x : F32) (s : State) : (dcBlock c x s).1.cfg = s.cfg := rfl
@[simp] theorem dcBlock_staging (c : Chan) (x : F32) (s : State) : (dcBlock c x s).1.staging = s.staging := rfl
@[simp] theorem dcBlock_active (c : Chan) (x : F32) (s : State) : (dcBlock c x s).1.active = s.active := rfl
@[simp] theorem dcBlock_sr (c : Chan) (x : F32) (s : State) : (dcBlock c x s).1.sr = s.sr := rfl
@[simp] theorem dcBlock_status (c : Chan) (x : F32) (s : State) : (dcBlock c x s).1.status = s.status := rfl
@[simp] theorem dcBlock_mode (c : Chan) (x : F32) (s : State) : (dcBlock c x s).1.mode = s.mode := rfl
@[simp] theorem dcBlock_left (c : Chan) (x : F32) (s : State) : (dcBlock c x s).1.left = s.left := rfl
@[simp] theorem dcBlock_out (c : Chan) (x : F32) (s : State) : (dcBlock c x s).1.out = s.out := rfl
@[simp] theorem dcBlock_filters (c : Chan) (x : F32) (s : State) : (dcBlock c x s).1.filters = s.filters := rfl
@[simp] theorem dcBlock_key (c : Chan) (x : F32) (s : State) : (dcBlock c x s).1.key = s.key := rfl
@[simp] theorem dcBlock_lfo (c : Chan) (x : F32) (s : State) : (dcBlock c x s).1.lfo = s.lfo := rfl
@[simp] theorem dcBlock_lines (c : Chan) (x : F32) (s : State) : (dcBlock c x s).1.lines = s.lines := rfl
@[simp] theorem dcBlock_mem (c : Chan) (x : F32) (s : State) : (dcBlock c x s).1.mem = s.mem := rfl
@[simp] theorem dcBlock_dmax (c : Chan) (x : F32) (s : State) : (dcBlock c x s).1.dmax = s.dmax := rfl
@[simp] theorem dcBlock_coefs (c : Chan) (x : F32) (s : State) : (dcBlock c x s).1.coefs = s.coefs := rfl
@[simp] theorem dcBlock_smooth (c : Chan) (x : F32) (s : State) : (dcBlock c x s).1.smooth = s.smooth := rfl
@[simp] theorem dcBlock_cmd (c : Chan) (x : F32) (s : State) : (dcBlock c x s).1.cmd = s.cmd := rfl
@[simp] theorem dcBlock_resp (c : Chan) (x : F32) (s : State) : (dcBlock c x s).1.resp = s.resp := rfl
@[simp] theorem dcBlock_ain (c : Chan) (x : F32) (s : State) : (dcBlock c x s).1.ain = s.ain := rfl
@[simp] theorem dcBlock_aout (c : Chan) (x : F32) (s : State) : (dcBlock c x s).1.aout = s.aout := rfl
@[simp] theorem dcBlock_host (c : Chan) (x : F32) (s : State) : (dcBlock c x s).1.host = s.host := rfl
@[simp] theorem dcBlock_sched (c : Chan) (x : F32) (s : State) : (dcBlock c x s).1.sched = s.sched := rfl
@[simp] theorem dcBlock_turns (c : Chan) (x : F32) (s : State) : (dcBlock c x s).1.turns = s.turns := rfl

/-! ### blockEnd -/

@[simp] theorem blockEnd_cfg (s : State) : (blockEnd s).cfg = s.cfg := rfl
@[simp] theorem blockEnd_staging (s : State) : (blockEnd s).staging = s.staging := rfl
@[simp] theorem blockEnd_active (s : State) : (blockEnd s).active = s.active := rfl
@[simp] theorem blockEnd_sr (s : State) : (blockEnd s).sr = s.sr := rfl
@[simp] theorem blockEnd_status (s : State) : (blockEnd s).status = s.status := rfl
@[simp] theorem blockEnd_left (s : State) : (blockEnd s).left = s.left := rfl
@[simp] theorem blockEnd_out (s : State) : (blockEnd s).out = s.out := rfl
@[simp] theorem blockEnd_filters (s : State) : (blockEnd s).filters = s.filters := rfl
@[simp] theorem blockEnd_key (s : State) : (blockEnd s).key = s.key := rfl
@[simp] theorem blockEnd_lfo (s : State) : (blockEnd s).lfo = s.lfo := rfl
@[simp] theorem blockEnd_lines (s : State) : (blockEnd s).lines = s.lines := rfl
@[simp] theorem blockEnd_mem (s : State) : (blockEnd s).mem = s.mem := rfl
@[simp] theorem blockEnd_dmax (s : State) : (blockEnd s).dmax = s.dmax := rfl
@[simp] theorem blockEnd_coefs (s : State) : (blockEnd s).coefs = s.coefs := rfl
@[simp] theorem blockEnd_smooth (s : State) : (blockEnd s).smooth = s.smooth := rfl
@[simp] theorem blockEnd_dc (s : State) : (blockEnd s).dc = s.dc := rfl
@[simp] theorem blockEnd_cmd (s : State) : (blockEnd s).cmd = s.cmd := rfl
@[simp] theorem blockEnd_resp (s : State) : (blockEnd s).resp = s.resp := rfl
@[simp] theorem blockEnd_ain (s : State) : (blockEnd s).ain = s.ain := rfl
@[simp] theorem blockEnd_aout (s : State) : (blockEnd s).aout = s.aout := rfl
@[simp] theorem blockEnd_host (s : State) : (blockEnd s).host = s.host := rfl
@[simp] theorem blockEnd_sched (s : State) : (blockEnd s).sched = s.sched := rfl
@[simp] theorem blockEnd_turns (s : State) : (blockEnd s).turns = s.turns := rfl

/-! ### outPush -/

@[simp] theorem outPush_cfg (y : AudioFrame) (s : State) : (outPush y s).cfg = s.cfg := by unfold outPush; dsimp only; split <;> rfl
@[simp] theorem outPush_staging (y : AudioFrame) (s : State) : (outPush y s).staging = s.staging := by unfold outPush; dsimp only; split <;> rfl
@[simp] theorem outPush_active (y : AudioFrame) (s : State) : (outPush y s).active = s.active := by unfold outPush; dsimp only; split <;> rfl
@[simp] theorem outPush_sr (y : AudioFrame) (s : State) : (outPush y s).sr = s.sr := by unfold outPush; dsimp only; split <;> rfl
@[simp] theorem outPush_status (y : AudioFrame) (s : State) : (outPush y s).status = s.status := by unfold outPush; dsimp only; split <;> rfl
@[simp] theorem outPush_filters (y : AudioFrame) (s : State) : (outPush y s).filters = s.filters := by unfold outPush; dsimp only; split <;> rfl
@[simp] theorem outPush_key (y : AudioFrame) (s : State) : (outPush y s).key = s.key := by unfold outPush; dsimp only; split <;> rfl
@[simp] theorem outPush_lfo (y : AudioFrame) (s : State) : (outPush y s).lfo = s.lfo := by unfold outPush; dsimp only; split <;> rfl
@[simp] theorem outPush_lines (y : AudioFrame) (s : State) : (outPush y s).lines = s.lines := by unfold outPush; dsimp only; split <;> rfl
@[simp] theorem outPush_mem (y : AudioFrame) (s : State) : (outPush y s).mem = s.mem := by unfold outPush; dsimp only; split <;> rfl
@[simp] theorem outPush_dmax (y : AudioFrame) (s : State) : (outPush y s).dmax = s.dmax := by unfold outPush; dsimp only; split <;> rfl
@[simp] theorem outPush_coefs (y : AudioFrame) (s : State) : (outPush y s).coefs = s.coefs := by unfold outPush; dsimp only; split <;> rfl
@[simp] theorem outPush_smooth (y : AudioFrame) (s : State) : (outPush y s).smooth = s.smooth := by unfold outPush; dsimp only; split <;> rfl
@[simp] theorem outPush_dc (y : AudioFrame) (s : State) : (outPush y s).dc = s.dc := by unfold outPush; dsimp only; split <;> rfl
@[simp] theorem outPush_cmd (y : AudioFrame) (s : State) : (outPush y s).cmd = s.cmd := by unfold outPush; dsimp only; split <;> rfl
@[simp] theorem outPush_resp (y : AudioFrame) (s : State) : (outPush y s).resp = s.resp := by unfold outPush; dsimp only; split <;> rfl
@[simp] theorem outPush_ain (y : AudioFrame) (s : State) : (outPush y s).ain = s.ain := by unfold outPush; dsimp only; split <;> rfl
@[simp] theorem outPush_host (y : AudioFrame) (s : State) : (outPush y s).host = s.host := by unfold outPush; dsimp only; split <;> rfl
@[simp] theorem outPush_sched (y : AudioFrame) (s : State) : (outPush y s).sched = s.sched := by unfold outPush; dsimp only; split <;> rfl
@[simp] theorem outPush_turns (y : AudioFrame) (s : State) : (outPush y s).turns = s.turns := by unfold outPush; dsimp only; split <;> rfl

/-! ### delayClearAll -/

@[simp] theorem delayClearAll_cfg (s : State) : (delayClearAll s).cfg = s.cfg := by simp [delayClearAll, chans, bands]
@[simp] theorem delayClearAll_staging (s : State) : (delayClearAll s).staging = s.staging := by simp [delayClearAll, chans, bands]
@[simp] theorem delayClearAll_active (s : State) : (delayClearAll s).active = s.active := by simp [delayClearAll, chans, bands]
@[simp] theorem delayClearAll_sr (s : State) : (delayClearAll s).sr = s.sr := by simp [delayClearAll, chans, bands]
@[simp] theorem delayClearAll_status (s : State) : (delayClearAll s).status = s.status := by simp [delayClearAll, chans, bands]
@[simp] theorem delayClearAll_mode (s : State) : (delayClearAll s).mode = s.mode := by simp [delayClearAll, chans, bands]
@[simp] theorem delayClearAll_left (s : State) : (delayClearAll s).left = s.left := by simp [delayClearAll, chans, bands]
@[simp] theorem delayClearAll_out (s : State) : (delayClearAll s).out = s.out := by simp [delayClearAll, chans, bands]
@[simp] theorem delayClearAll_filters (s : State) : (delayClearAll s).filters = s.filters := by simp [delayClearAll, chans, bands]
@[simp] theorem delayClearAll_key (s : State) : (delayClearAll s).key = s.key := by simp [delayClearAll, chans, bands]
@[simp] theorem delayClearAll_lfo (s : State) : (delayClearAll s).lfo = s.lfo := by simp [delayClearAll, chans, bands]
@[simp] theorem delayClearAll_dmax (s : State) : (delayClearAll s).dmax = s.dmax := by simp [delayClearAll, chans, bands]
@[simp] theorem delayClearAll_coefs (s : State) : (delayClearAll s).coefs = s.coefs := by simp [delayClearAll, chans, bands]
@[simp] theorem delayClearAll_smooth (s : State) : (delayClearAll s).smooth = s.smooth := by simp [delayClearAll, chans, bands]
@[simp] theorem delayClearAll_dc (s : State) : (delayClearAll s).dc = s.dc := by simp [delayClearAll, chans, bands]
@[simp] theorem delayClearAll_cmd (s : State) : (delayClearAll s).cmd = s.cmd := by simp [delayClearAll, chans, bands]
@[simp] theorem delayClearAll_resp (s : State) : (delayClearAll s).resp = s.resp := by simp [delayClearAll, chans, bands]
@[simp] theorem delayClearAll_ain (s : State) : (delayClearAll s).ain = s.ain := by simp [delayClearAll, chans, bands]
@[simp] theorem delayClearAll_aout (s : State) : (delayClearAll s).aout = s.aout := by simp [delayClearAll, chans, bands]
@[simp] theorem delayClearAll_host (s : State) : (delayClearAll s).host = s.host := by simp [delayClearAll, chans, bands]
@[simp] theorem delayClearAll_sched (s : State) : (delayClearAll s).sched = s.sched := by simp [delayClearAll, chans, bands]
@[simp] theorem delayClearAll_turns (s : State) : (delayClearAll s).turns = s.turns := by simp [delayClearAll, chans, bands]

/-! ### delayClearDisabled -/

@[simp] theorem delayClearDisabled_cfg (s : State) : (delayClearDisabled s).cfg = s.cfg := foldl_keeps _ State.cfg (fun s b => by split <;> simp) _ _
@[simp] theorem delayClearDisabled_staging (s : State) : (delayClearDisabled s).staging = s.staging := foldl_keeps _ State.staging (fun s b => by split <;> simp) _ _
@[simp] theorem delayClearDisabled_active (s : State) : (delayClearDisabled s).active = s.active := foldl_keeps _ State.active (fun s b => by split <;> simp) _ _
@[simp] theorem delayClearDisabled_sr (s : State) : (delayClearDisabled s).sr = s.sr := foldl_keeps _ State.sr (fun s b => by split <;> simp) _ _
@[simp] theorem delayClearDisabled_status (s : State) : (delayClearDisabled s).status = s.status := foldl_keeps _ State.status (fun s b => by split <;> simp) _ _
@[simp] theorem delayClearDisabled_mode (s : State) : (delayClearDisabled s).mode = s.mode := foldl_keeps _ State.mode (fun s b => by split <;> simp) _ _
@[simp] theorem delayClearDisabled_left (s : State) : (delayClearDisabled s).left = s.left := foldl_keeps _ State.left (fun s b => by split <;> simp) _ _
@[simp] theorem delayClearDisabled_out (s : State) : (delayClearDisabled s).out = s.out := foldl_keeps _ State.out (fun s b => by split <;> simp) _ _
@[simp] theorem delayClearDisabled_filters (s : State) : (delayClearDisabled s).filters = s.filters := foldl_keeps _ State.filters (fun s b => by split <;> simp) _ _
@[simp] theorem delayClearDisabled_key (s : State) : (delayClearDisabled s).key = s.key := foldl_keeps _ State.key (fun s b => by split <;> simp) _ _
@[simp] theorem delayClearDisabled_lfo (s : State) : (delayClearDisabled s).lfo = s.lfo := foldl_keeps _ State.lfo (fun s b => by split <;> simp) _ _
@[simp] theorem delayClearDisabled_dmax (s : State) : (delayClearDisabled s).dmax = s.dmax := foldl_keeps _ State.dmax (fun s b => by split <;> simp) _ _
@[simp] theorem delayClearDisabled_coefs (s : State) : (delayClearDisabled s).coefs = s.coefs := foldl_keeps _ State.coefs (fun s b => by split <;> simp) _ _
@[simp] theorem delayClearDisabled_smooth (s : State) : (delayClearDisabled s).smooth = s.smooth := foldl_keeps _ State.smooth (fun s b => by split <;> simp) _ _
@[simp] theorem delayClearDisabled_dc (s : State) : (delayClearDisabled s).dc = s.dc := foldl_keeps _ State.dc (fun s b => by split <;> simp) _ _
@[simp] theorem delayClearDisabled_cmd (s : State) : (delayClearDisabled s).cmd = s.cmd := foldl_keeps _ State.cmd (fun s b => by split <;> simp) _ _
@[simp] theorem delayClearDisabled_resp (s : State) : (delayClearDisabled s).resp = s.resp := foldl_keeps _ State.resp (fun s b => by split <;> simp) _ _
@[simp] theorem delayClearDisabled_ain (s : State) : (delayClearDisabled s).ain = s.ain := foldl_keeps _ State.ain (fun s b => by split <;> simp) _ _
@[simp] theorem delayClearDisabled_aout (s : State) : (delayClearDisabled s).aout = s.aout := foldl_keeps _ State.aout (fun s b => by split <;> simp) _ _
@[simp] theorem delayClearDisabled_host (s : State) : (delayClearDisabled s).host = s.host := foldl_keeps _ State.host (fun s b => by split <;> simp) _ _
@[simp] theorem delayClearDisabled_sched (s : State) : (delayClearDisabled s).sched = s.sched := foldl_keeps _ State.sched (fun s b => by split <;> simp) _ _
@[simp] theorem delayClearDisabled_turns (s : State) : (delayClearDisabled s).turns = s.turns := foldl_keeps _ State.turns (fun s b => by split <;> simp) _ _

/-! ### initEffect -/

@[simp] theorem initEffect_cfg (fs : F32) (s : State) : (initEffect fs s).cfg = s.cfg := by simp [initEffect]
@[simp] theorem initEffect_staging (fs : F32) (s : State) : (initEffect fs s).staging = s.staging := by simp [initEffect]
@[simp] theorem initEffect_active (fs : F32) (s : State) : (initEffect fs s).active = s.active := by simp [initEffect]
@[simp] theorem initEffect_mode (fs : F32) (s : State) : (initEffect fs s).mode = s.mode := by simp [initEffect]
@[simp] theorem initEffect_left (fs : F32) (s : State) : (initEffect fs s).left = s.left := by simp [initEffect]
@[simp] theorem initEffect_out (fs : F32) (s : State) : (initEffect fs s).out = s.out := by simp [initEffect]
@[simp] theorem initEffect_lfo (fs : F32) (s : State) : (initEffect fs s).lfo = s.lfo := by simp [initEffect]
@[simp] theorem initEffect_smooth (fs : F32) (s : State) : (initEffect fs s).smooth = s.smooth := by simp [initEffect]
@[simp] theorem initEffect_cmd (fs : F32) (s : State) : (initEffect fs s).cmd = s.cmd := by simp [initEffect]
@[simp] theorem initEffect_resp (fs : F32) (s : State) : (initEffect fs s).resp = s.resp := by simp [initEffect]
@[simp] theorem initEffect_ain (fs : F32) (s : State) : (initEffect fs s).ain = s.ain := by simp [initEffect]
@[simp] theorem initEffect_aout (fs : F32) (s : State) : (initEffect fs s).aout = s.aout := by simp [initEffect]
@[simp] theorem initEffect_host (fs : F32) (s : State) : (initEffect fs s).host = s.host := by simp [initEffect]
@[simp] theorem initEffect_sched (fs : F32) (s : State) : (initEffect fs s).sched = s.sched := by simp [initEffect]
@[simp] theorem initEffect_turns (fs : F32) (s : State) : (initEffect fs s).turns = s.turns := by simp [initEffect]

/-! ### blockStart -/

@[simp] theorem blockStart_cfg (n : Nat) (s : State) : (blockStart n s).cfg = s.cfg := by simp [blockStart]
@[simp] theorem blockStart_staging (n : Nat) (s : State) : (blockStart n s).staging = s.staging := by simp [blockStart]
@[simp] theorem blockStart_sr (n : Nat) (s : State) : (blockStart n s).sr = s.sr := by simp [blockStart]
@[simp] theorem blockStart_status (n : Nat) (s : State) : (blockStart n s).status = s.status := by simp [blockStart]
@[simp] theorem blockStart_out (n : Nat) (s : State) : (blockStart n s).out = s.out := by simp [blockStart]
@[simp] theorem blockStart_dmax (n : Nat) (s : State) : (blockStart n s).dmax = s.dmax := by simp [blockStart]
@[simp] theorem blockStart_coefs (n : Nat) (s : State) : (blockStart n s).coefs = s.coefs := by simp [blockStart]
@[simp] theorem blockStart_smooth (n : Nat) (s : State) : (blockStart n s).smooth = s.smooth := by simp [blockStart]
@[simp] theorem blockStart_dc (n : Nat) (s : State) : (blockStart n s).dc = s.dc := by simp [blockStart]
@[simp] theorem blockStart_cmd (n : Nat) (s : State) : (blockStart n s).cmd = s.cmd := by simp [blockStart]
@[simp] theorem blockStart_resp (n : Nat) (s : State) : (blockStart n s).resp = s.resp := by simp [blockStart]
@[simp] theorem blockStart_ain (n : Nat) (s : State) : (blockStart n s).ain = s.ain := by simp [blockStart]
@[simp] theorem blockStart_aout (n : Nat) (s : State) : (blockStart n s).aout = s.aout := by simp [blockStart]
@[simp] theorem blockStart_host (n : Nat) (s : State) : (blockStart n s).host = s.host := by simp [blockStart]
@[simp] theorem blockStart_sched (n : Nat) (s : State) : (blockStart n s).sched = s.sched := by simp [blockStart]
@[simp] theorem blockStart_turns (n : Nat) (s : State) : (blockStart n s).turns = s.turns := by simp [blockStart]

/-! ### modulateAll -/

@[simp] theorem modulateAll_cfg (s : State) : (bands.foldl modulate s).cfg = s.cfg := foldl_keeps _ State.cfg (fun s b => by simp) _ _
@[simp] theorem modulateAll_staging (s : State) : (bands.foldl modulate s).staging = s.staging := foldl_keeps _ State.staging (fun s b => by simp) _ _
@[simp] theorem modulateAll_active (s : State) : (bands.foldl modulate s).active = s.active := foldl_keeps _ State.active (fun s b => by simp) _ _
@[simp] theorem modulateAll_sr (s : State) : (bands.foldl modulate s).sr = s.sr := foldl_keeps _ State.sr (fun s b => by simp) _ _
@[simp] theorem modulateAll_status (s : State) : (bands.foldl modulate s).status = s.status := foldl_keeps _ State.status (fun s b => by simp) _ _
@[simp] theorem modulateAll_mode (s : State) : (bands.foldl modulate s).mode = s.mode := foldl_keeps _ State.mode (fun s b => by simp) _ _
@[simp] theorem modulateAll_left (s : State) : (bands.foldl modulate s).left = s.left := foldl_keeps _ State.left (fun s b => by simp) _ _
@[simp] theorem modulateAll_out (s : State) : (bands.foldl modulate s).out = s.out := foldl_keeps _ State.out (fun s b => by simp) _ _
@[simp] theorem modulateAll_filters (s : State) : (bands.foldl modulate s).filters = s.filters := foldl_keeps _ State.filters (fun s b => by simp) _ _
@[simp] theorem modulateAll_key (s : State) : (bands.foldl modulate s).key = s.key := foldl_keeps _ State.key (fun s b => by simp) _ _
@[simp] theorem modulateAll_lines (s : State) : (bands.foldl modulate s).lines = s.lines := foldl_keeps _ State.lines (fun s b => by simp) _ _
@[simp] theorem modulateAll_mem (s : State) : (bands.foldl modulate s).mem = s.mem := foldl_keeps _ State.mem (fun s b => by simp) _ _
@[simp] theorem modulateAll_dmax (s : State) : (bands.foldl modulate s).dmax = s.dmax := foldl_keeps _ State.dmax (fun s b => by simp) _ _
@[simp] theorem modulateAll_coefs (s : State) : (bands.foldl modulate s).coefs = s.coefs := foldl_keeps _ State.coefs (fun s b => by simp) _ _
@[simp] theorem modulateAll_dc (s : State) : (bands.foldl modulate s).dc = s.dc := foldl_keeps _ State.dc (fun s b => by simp) _ _
@[simp] theorem modulateAll_cmd (s : State) : (bands.foldl modulate s).cmd = s.cmd := foldl_keeps _ State.cmd (fun s b => by simp) _ _
@[simp] theorem modulateAll_resp (s : State) : (bands.foldl modulate s).resp = s.resp := foldl_keeps _ State.resp (fun s b => by simp) _ _
@[simp] theorem modulateAll_ain (s : State) : (bands.foldl modulate s).ain = s.ain := foldl_keeps _ State.ain (fun s b => by simp) _ _
@[simp] theorem modulateAll_aout (s : State) : (bands.foldl modulate s).aout = s.aout := foldl_keeps _ State.aout (fun s b => by simp) _ _
@[simp] theorem modulateAll_host (s : State) : (bands.foldl modulate s).host = s.host := foldl_keeps _ State.host (fun s b => by simp) _ _
@[simp] theorem modulateAll_sched (s : State) : (bands.foldl modulate s).sched = s.sched := foldl_keeps _ State.sched (fun s b => by simp) _ _
@[simp] theorem modulateAll_turns (s : State) : (bands.foldl modulate s).turns = s.turns := foldl_keeps _ State.turns (fun s b => by simp) _ _

/-! ### laneStep -/

@[simp] theorem laneStep_cfg (c : Chan) (x : F32) (a : F32) (b : Band) (s : State) : (laneStep c x (s, a) b).1.cfg = s.cfg := by simp [laneStep]
@[simp] theorem laneStep_staging (c : Chan) (x : F32) (a : F32) (b : Band) (s : State) : (laneStep c x (s, a) b).1.staging = s.staging := by simp [laneStep]
@[simp] theorem laneStep_active (c : Chan) (x : F32) (a : F32) (b : Band) (s : State) : (laneStep c x (s, a) b).1.active = s.active := by simp [laneStep]
@[simp] theorem laneStep_sr (c : Chan) (x : F32) (a : F32) (b : Band) (s : State) : (laneStep c x (s, a) b).1.sr = s.sr := by simp [laneStep]
@[simp] theorem laneStep_status (c : Chan) (x : F32) (a : F32) (b : Band) (s : State) : (laneStep c x (s, a) b).1.status = s.status := by simp [laneStep]
@[simp] theorem laneStep_mode (c : Chan) (x : F32) (a : F32) (b : Band) (s : State) : (laneStep c x (s, a) b).1.mode = s.mode := by simp [laneStep]
@[simp] theorem laneStep_left (c : Chan) (x : F32) (a : F32) (b : Band) (s : State) : (laneStep c x (s, a) b).1.left = s.left := by simp [laneStep]
@[simp] theorem laneStep_out (c : Chan) (x : F32) (a : F32) (b : Band) (s : State) : (laneStep c x (s, a) b).1.out = s.out := by simp [laneStep]
@[simp] theorem laneStep_key (c : Chan) (x : F32) (a : F32) (b : Band) (s : State) : (laneStep c x (s, a) b).1.key = s.key := by simp [laneStep]
@[simp] theorem laneStep_lfo (c : Chan) (x : F32) (a : F32) (b : Band) (s : State) : (laneStep c x (s, a) b).1.lfo = s.lfo := by simp [laneStep]
@[simp] theorem laneStep_dmax (c : Chan) (x : F32) (a : F32) (b : Band) (s : State) : (laneStep c x (s, a) b).1.dmax = s.dmax := by simp [laneStep]
@[simp] theorem laneStep_coefs (c : Chan) (x : F32) (a : F32) (b : Band) (s : State) : (laneStep c x (s, a) b).1.coefs = s.coefs := by simp [laneStep]
@[simp] theorem laneStep_smooth (c : Chan) (x : F32) (a : F32) (b : Band) (s : State) : (laneStep c x (s, a) b).1.smooth = s.smooth := by simp [laneStep]
@[simp] theorem laneStep_dc (c : Chan) (x : F32) (a : F32) (b : Band) (s : State) : (laneStep c x (s, a) b).1.dc = s.dc := by simp [laneStep]
@[simp] theorem laneStep_cmd (c : Chan) (x : F32) (a : F32) (b : Band) (s : State) : (laneStep c x (s, a) b).1.cmd = s.cmd := by simp [laneStep]
@[simp] theorem laneStep_resp (c : Chan) (x : F32) (a : F32) (b : Band) (s : State) : (laneStep c x (s, a) b).1.resp = s.resp := by simp [laneStep]
@[simp] theorem laneStep_ain (c : Chan) (x : F32) (a : F32) (b : Band) (s : State) : (laneStep c x (s, a) b).1.ain = s.ain := by simp [laneStep]
@[simp] theorem laneStep_aout (c : Chan) (x : F32) (a : F32) (b : Band) (s : State) : (laneStep c x (s, a) b).1.aout = s.aout := by simp [laneStep]
@[simp] theorem laneStep_host (c : Chan) (x : F32) (a : F32) (b : Band) (s : State) : (laneStep c x (s, a) b).1.host = s.host := by simp [laneStep]
@[simp] theorem laneStep_sched (c : Chan) (x : F32) (a : F32) (b : Band) (s : State) : (laneStep c x (s, a) b).1.sched = s.sched := by simp [laneStep]
@[simp] theorem laneStep_turns (c : Chan) (x : F32) (a : F32) (b : Band) (s : State) : (laneStep c x (s, a) b).1.turns = s.turns := by simp [laneStep]

/-! ### lanes -/

@[simp] theorem lanes_cfg (c : Chan) (x : F32) (a : F32) (s : State) : (bands.foldl (laneStep c x) (s, a)).1.cfg = s.cfg := foldl_keeps_fst _ State.cfg (fun s a b => by simp) _ _ _
@[simp] theorem lanes_staging (c : Chan) (x : F32) (a : F32) (s : State) : (bands.foldl (laneStep c x) (s, a)).1.staging = s.staging := foldl_keeps_fst _ State.staging (fun s a b => by simp) _ _ _
@[simp] theorem lanes_active (c : Chan) (x : F32) (a : F32) (s : State) : (bands.foldl (laneStep c x) (s, a)).1.active = s.active := foldl_keeps_fst _ State.active (fun s a b => by simp) _ _ _
@[simp] theorem lanes_sr (c : Chan) (x : F32) (a : F32) (s : State) : (bands.foldl (laneStep c x) (s, a)).1.sr = s.sr := foldl_keeps_fst _ State.sr (fun s a b => by simp) _ _ _
@[simp] theorem lanes_status (c : Chan) (x : F32) (a : F32) (s : State) : (bands.foldl (laneStep c x) (s, a)).1.status = s.status := foldl_keeps_fst _ State.status (fun s a b => by simp) _ _ _
@[simp] theorem lanes_mode (c : Chan) (x : F32) (a : F32) (s : State) : (bands.foldl (laneStep c x) (s, a)).1.mode = s.mode := foldl_keeps_fst _ State.mode (fun s a b => by simp) _ _ _
@[simp] theorem lanes_left (c : Chan) (x : F32) (a : F32) (s : State) : (bands.foldl (laneStep c x) (s, a)).1.left = s.left := foldl_keeps_fst _ State.left (fun s a b => by simp) _ _ _
@[simp] theorem lanes_out (c : Chan) (x : F32) (a : F32) (s : State) : (bands.foldl (laneStep c x) (s, a)).1.out = s.out := foldl_keeps_fst _ State.out (fun s a b => by simp) _ _ _
@[simp] theorem lanes_key (c : Chan) (x : F32) (a : F32) (s : State) : (bands.foldl (laneStep c x) (s, a)).1.key = s.key := foldl_keeps_fst _ State.key (fun s a b => by simp) _ _ _
@[simp] theorem lanes_lfo (c : Chan) (x : F32) (a : F32) (s : State) : (bands.foldl (laneStep c x) (s, a)).1.lfo = s.lfo := foldl_keeps_fst _ State.lfo (fun s a b => by simp) _ _ _
@[simp] theorem lanes_dmax (c : Chan) (x : F32) (a : F32) (s : State) : (bands.foldl (laneStep c x) (s, a)).1.dmax = s.dmax := foldl_keeps_fst _ State.dmax (fun s a b => by simp) _ _ _
@[simp] theorem lanes_coefs (c : Chan) (x : F32) (a : F32) (s : State) : (bands.foldl (laneStep c x) (s, a)).1.coefs = s.coefs := foldl_keeps_fst _ State.coefs (fun s a b => by simp) _ _ _
@[simp] theorem lanes_smooth (c : Chan) (x : F32) (a : F32) (s : State) : (bands.foldl (laneStep c x) (s, a)).1.smooth = s.smooth := foldl_keeps_fst _ State.smooth (fun s a b => by simp) _ _ _
@[simp] theorem lanes_dc (c : Chan) (x : F32) (a : F32) (s : State) : (bands.foldl (laneStep c x) (s, a)).1.dc = s.dc := foldl_keeps_fst _ State.dc (fun s a b => by simp) _ _ _
@[simp] theorem lanes_cmd (c : Chan) (x : F32) (a : F32) (s : State) : (bands.foldl (laneStep c x) (s, a)).1.cmd = s.cmd := foldl_keeps_fst _ State.cmd (fun s a b => by simp) _ _ _
@[simp] theorem lanes_resp (c : Chan) (x : F32) (a : F32) (s : State) : (bands.foldl (laneStep c x) (s, a)).1.resp = s.resp := foldl_keeps_fst _ State.resp (fun s a b => by simp) _ _ _
@[simp] theorem lanes_ain (c : Chan) (x : F32) (a : F32) (s : State) : (bands.foldl (laneStep c x) (s, a)).1.ain = s.ain := foldl_keeps_fst _ State.ain (fun s a b => by simp) _ _ _
@[simp] theorem lanes_aout (c : Chan) (x : F32) (a : F32) (s : State) : (bands.foldl (laneStep c x) (s, a)).1.aout = s.aout := foldl_keeps_fst _ State.aout (fun s a b => by simp) _ _ _
@[simp] theorem lanes_host (c : Chan) (x : F32) (a : F32) (s : State) : (bands.foldl (laneStep c x) (s, a)).1.host = s.host := foldl_keeps_fst _ State.host (fun s a b => by simp) _ _ _
@[simp] theorem lanes_sched (c : Chan) (x : F32) (a : F32) (s : State) : (bands.foldl (laneStep c x) (s, a)).1.sched = s.sched := foldl_keeps_fst _ State.sched (fun s a b => by simp) _ _ _
@[simp] theorem lanes_turns (c : Chan) (x : F32) (a : F32) (s : State) : (bands.foldl (laneStep c x) (s, a)).1.turns = s.turns := foldl_keeps_fst _ State.turns (fun s a b => by simp) _ _ _

/-! ### channelFrame -/

@[simp] theorem channelFrame_cfg (c : Chan) (x : F32) (s : State) : (channelFrame c x s).1.cfg = s.cfg := by simp [channelFrame]
@[simp] theorem channelFrame_staging (c : Chan) (x : F32) (s : State) : (channelFrame c x s).1.staging = s.staging := by simp [channelFrame]
@[simp] theorem channelFrame_active (c : Chan) (x : F32) (s : State) : (channelFrame c x s).1.active = s.active := by simp [channelFrame]
@[simp] theorem channelFrame_sr (c : Chan) (x : F32) (s : State) : (channelFrame c x s).1.sr = s.sr := by simp [channelFrame]
@[simp] theorem channelFrame_status (c : Chan) (x : F32) (s : State) : (channelFrame c x s).1.status = s.status := by simp [channelFrame]
@[simp] theorem channelFrame_mode (c : Chan) (x : F32) (s : State) : (channelFrame c x s).1.mode = s.mode := by simp [channelFrame]
@[simp] theorem channelFrame_left (c : Chan) (x : F32) (s : State) : (channelFrame c x s).1.left = s.left := by simp [channelFrame]
@[simp] theorem channelFrame_out (c : Chan) (x : F32) (s : State) : (channelFrame c x s).1.out = s.out := by simp [channelFrame]
@[simp] theorem channelFrame_key (c : Chan) (x : F32) (s : State) : (channelFrame c x s).1.key = s.key := by simp [channelFrame]
@[simp] theorem channelFrame_lfo (c : Chan) (x : F32) (s : State) : (channelFrame c x s).1.lfo = s.lfo := by simp [channelFrame]
@[simp] theorem channelFrame_dmax (c : Chan) (x : F32) (s : State) : (channelFrame c x s).1.dmax = s.dmax := by simp [channelFrame]
@[simp] theorem channelFrame_coefs (c : Chan) (x : F32) (s : State) : (channelFrame c x s).1.coefs = s.coefs := by simp [channelFrame]
@[simp] theorem channelFrame_smooth (c : Chan) (x : F32) (s : State) : (channelFrame c x s).1.smooth = s.smooth := by simp [channelFrame]
@[simp] theorem channelFrame_cmd (c : Chan) (x : F32) (s : State) : (channelFrame c x s).1.cmd = s.cmd := by simp [channelFrame]
@[simp] theorem channelFrame_resp (c : Chan) (x : F32) (s : State) : (channelFrame c x s).1.resp = s.resp := by simp [channelFrame]
@[simp] theorem channelFrame_ain (c : Chan) (x : F32) (s : State) : (channelFrame c x s).1.ain = s.ain := by simp [channelFrame]
@[simp] theorem channelFrame_aout (c : Chan) (x : F32) (s : State) : (channelFrame c x s).1.aout = s.aout := by simp [channelFrame]
@[simp] theorem channelFrame_host (c : Chan) (x : F32) (s : State) : (channelFrame c x s).1.host = s.host := by simp [channelFrame]
@[simp] theorem channelFrame_sched (c : Chan) (x : F32) (s : State) : (channelFrame c x s).1.sched = s.sched := by simp [channelFrame]
@[simp] theorem channelFrame_turns (c : Chan) (x : F32) (s : State) : (channelFrame c x s).1.turns = s.turns := by simp [channelFrame]

/-! ### frame -/

@[simp] theorem frame_cfg (x : AudioFrame) (s : State) : (frame x s).cfg = s.cfg := by simp [frame]
@[simp] theorem frame_staging (x : AudioFrame) (s : State) : (frame x s).staging = s.staging := by simp [frame]
@[simp] theorem frame_active (x : AudioFrame) (s : State) : (frame x s).active = s.active := by simp [frame]
@[simp] theorem frame_sr (x : AudioFrame) (s : State) : (frame x s).sr = s.sr := by simp [frame]
@[simp] theorem frame_status (x : AudioFrame) (s : State) : (frame x s).status = s.status := by simp [frame]
@[simp] theorem frame_mode (x : AudioFrame) (s : State) : (frame x s).mode = s.mode := by simp [frame]
@[simp] theorem frame_left (x : AudioFrame) (s : State) : (frame x s).left = s.left := by simp [frame]
@[simp] theorem frame_key (x : AudioFrame) (s : State) : (frame x s).key = s.key := by simp [frame]
@[simp] theorem frame_dmax (x : AudioFrame) (s : State) : (frame x s).dmax = s.dmax := by simp [frame]
@[simp] theorem frame_coefs (x : AudioFrame) (s : State) : (frame x s).coefs = s.coefs := by simp [frame]
@[simp] theorem frame_cmd (x : AudioFrame) (s : State) : (frame x s).cmd = s.cmd := by simp [frame]
@[simp] theorem frame_resp (x : AudioFrame) (s : State) : (frame x s).resp = s.resp := by simp [frame]
@[simp] theorem frame_ain (x : AudioFrame) (s : State) : (frame x s).ain = s.ain := by simp [frame]
@[simp] theorem frame_aout (x : AudioFrame) (s : State) : (frame x s).aout = s.aout := by simp [frame]
@[simp] theorem frame_host (x : AudioFrame) (s : State) : (frame x s).host = s.host := by simp [frame]
@[simp] theorem frame_sched (x : AudioFrame) (s : State) : (frame x s).sched = s.sched := by simp [frame]
@[simp] theorem frame_turns (x : AudioFrame) (s : State) : (frame x s).turns = s.turns := by simp [frame]

/-! ### What the basic updates change -/

@[simp] theorem retire_cmd (s : State) : (retire s).cmd = s.cmd.drop pairWords := rfl
@[simp] theorem respPush_resp (w : Word) (s : State) : (respPush w s).resp = s.resp ++ [w] := rfl
@[simp] theorem raiseError_cmd (e : ErrorCode) (op : BitVec 8) (s : State) : (raiseError e op s).cmd = s.cmd.drop pairWords := rfl
@[simp] theorem raiseError_status (e : ErrorCode) (op : BitVec 8) (s : State) :
    (raiseError e op s).status = s.status.record e op := rfl
@[simp] theorem latch_active (s : State) : (latch s).active = s.staging := rfl
@[simp] theorem blockEnd_mode (s : State) : (blockEnd s).mode = .idle := rfl
@[simp] theorem outPush_aout (y : AudioFrame) (s : State) : (outPush y s).aout = s.aout ++ frameWords y := by
  unfold outPush; dsimp only; split <;> rfl
@[simp] theorem outPush_out (y : AudioFrame) (s : State) : (outPush y s).out = none := by unfold outPush; dsimp only; split <;> rfl
@[simp] theorem outPush_left (y : AudioFrame) (s : State) : (outPush y s).left = s.left - 1 := by
  unfold outPush; dsimp only; split <;> rfl

end Sys2Proof.Machine
end

