-- ==== Sys2Proof/Laws/Frame.lean ====
section
/-! SUPPORT. What one frame does: every band's LFO and smoothers, every lane's filter and delay line, each apart from all others. -/

namespace Sys2Proof.Machine

theorem param_of_active {s t : State} (h : s.active = t.active) (b : Band) : param s b = param t b := by
  simp [param, h]

/-! ### The bands are modulated each on its own -/

theorem modulate_lfo_other (s : State) {b b' : Band} (h : b' ≠ b) : (modulate s b).lfo[b'] = s.lfo[b'] :=
  bank_set_other _ _ h

theorem modulate_smooth_other (s : State) {b b' : Band} (h : b' ≠ b) : (modulate s b).smooth[b'] = s.smooth[b'] :=
  bank_set_other _ _ h

theorem modulate_lfo_same (s : State) (b : Band) : (modulate s b).lfo[b] = lfoAdvance s.cfg.denorm s.lfo[b] :=
  bank_set_same _ _ _

theorem modulate_smooth_same (s : State) (b : Band) :
    (modulate s b).smooth[b] = smoothBand s.cfg.denorm s.coefs (param s b)
      (lfoValue s.cfg s.active.wave (param s b).lfoOfs s.lfo[b]) s.smooth[b] :=
  bank_set_same _ _ _

/-- Modulating bands that b is not among leaves band b as it was. -/
theorem modulate_list_other (l : List Band) (s : State) {b : Band} (h : b ∉ l) :
    (l.foldl modulate s).lfo[b] = s.lfo[b] ∧ (l.foldl modulate s).smooth[b] = s.smooth[b] := by
  induction l generalizing s with
  | nil => exact ⟨rfl, rfl⟩
  | cons a l ih =>
    have ha : b ≠ a := fun e => h (e ▸ List.mem_cons_self)
    obtain ⟨h1, h2⟩ := ih (modulate s a) (fun e => h (List.mem_cons_of_mem _ e))
    rw [List.foldl_cons, h1, h2, modulate_lfo_other s ha, modulate_smooth_other s ha]
    exact ⟨rfl, rfl⟩

/-- Modulating a list of bands modulates each of them once. -/
theorem modulate_list (l : List Band) (hl : l.Nodup) (s : State) {b : Band} (h : b ∈ l) :
    (l.foldl modulate s).lfo[b] = lfoAdvance s.cfg.denorm s.lfo[b] ∧
    (l.foldl modulate s).smooth[b] = smoothBand s.cfg.denorm s.coefs (param s b)
      (lfoValue s.cfg s.active.wave (param s b).lfoOfs s.lfo[b]) s.smooth[b] := by
  induction l generalizing s with
  | nil => exact absurd h (by simp)
  | cons a l ih =>
    obtain ⟨hn, hl'⟩ := List.nodup_cons.mp hl
    by_cases hb : b = a
    · subst hb
      obtain ⟨h1, h2⟩ := modulate_list_other l (modulate s b) hn
      rw [List.foldl_cons, h1, h2, modulate_lfo_same, modulate_smooth_same]
      exact ⟨rfl, rfl⟩
    · obtain ⟨h1, h2⟩ := ih hl' (modulate s a) (by simpa [hb] using h)
      rw [List.foldl_cons, h1, h2, modulate_lfo_other s hb, modulate_smooth_other s hb]
      exact ⟨rfl, rfl⟩

/-- In a frame every LFO advances once. -/
theorem frame_lfo (x : AudioFrame) (s : State) (b : Band) : (frame x s).lfo[b] = lfoAdvance s.cfg.denorm s.lfo[b] := by
  have h : (frame x s).lfo = (bands.foldl modulate s).lfo := by simp [frame]
  rw [h]
  exact (modulate_list bands bands_nodup s (mem_bands b)).1

/-- In a frame every smoother advances once. -/
theorem frame_smooth (x : AudioFrame) (s : State) (b : Band) :
    (frame x s).smooth[b] = smoothBand s.cfg.denorm s.coefs (param s b)
      (lfoValue s.cfg s.active.wave (param s b).lfoOfs s.lfo[b]) s.smooth[b] := by
  have h : (frame x s).smooth = (bands.foldl modulate s).smooth := by simp [frame]
  rw [h]
  exact (modulate_list bands bands_nodup s (mem_bands b)).2

/-! ### One lane: a channel and a band -/

theorem bandFilter_filters (c : Chan) (b : Band) (x : F32) (s : State) (c' : Chan) (b' : Band) :
    laneGet (bandFilter c b x s).1.filters c' b' =
      if c = c' ∧ b = b' then
        (filterProcess s.cfg.denorm (activeSections s.active.order) (laneGet s.filters c b) x).1
      else laneGet s.filters c' b' := by
  simp only [bandFilter]
  rw [laneSet_get]

theorem laneStep_filters (c : Chan) (x a : F32) (s : State) (b : Band) (c' : Chan) (b' : Band) :
    laneGet (laneStep c x (s, a) b).1.filters c' b' =
      if c = c' ∧ b = b' then
        (filterProcess s.cfg.denorm (activeSections s.active.order) (laneGet s.filters c b) x).1
      else laneGet s.filters c' b' := by
  simp only [laneStep, bandDelay_filters]
  exact bandFilter_filters c b x s c' b'

/-- BAND.DELAY leaves every other line as it was, cursor, feedback sample and words. -/
theorem bandDelay_other (c : Chan) (b : Band) (f : F32) (s : State) {c' : Chan} {b' : Band} (h : ¬(c' = c ∧ b' = b)) :
    laneGet (bandDelay c b f s).1.lines c' b' = laneGet s.lines c' b' ∧
    ∀ i, dRead (bandDelay c b f s).1.mem c' b' i = dRead s.mem c' b' i := by
  unfold bandDelay
  split
  · constructor
    · simp only [delayWrite, delayRead]
      rw [laneSet_other _ _ h, laneSet_other _ _ h]
    · intro i
      simp only [delayWrite, delayRead]
      exact dRead_dWrite_other _ _ (fun e => h ⟨e.1, e.2.1⟩)
  · exact ⟨rfl, fun _ => rfl⟩

/-- BAND.DELAY with the delay enabled: the line is read, one word is written at the cursor and the cursor moves on. -/
theorem bandDelay_enabled (c : Chan) (b : Band) (f : F32) (s : State) (h : (param s b).dlyEn = true) :
    let l := laneGet s.lines c b
    let r := delayValue s.cfg s.mem c b l.w (bandTime s b)
    laneGet (bandDelay c b f s).1.lines c b = { l with w := (l.w + 1) % s.cfg.lits.dlen, fb := r } ∧
    (bandDelay c b f s).1.mem =
      dWrite s.mem c b l.w (fadd s.cfg.denorm f (fmul s.cfg.denorm r s.smooth[b].fb)) ∧
    (bandDelay c b f s).2 =
      fadd s.cfg.denorm (fmul s.cfg.denorm r s.smooth[b].wet) (fmul s.cfg.denorm f s.smooth[b].dry) := by
  refine ⟨?_, ?_, ?_⟩ <;> unfold bandDelay <;> rw [if_pos h] <;> simp only [delayWrite, delayRead, laneSet_same]

theorem bandDelay_disabled (c : Chan) (b : Band) (f : F32) (s : State) (h : (param s b).dlyEn = false) :
    bandDelay c b f s = (s, f) := by
  simp [bandDelay, h]

/-- A line's mark is never taken away by BAND.DELAY. -/
theorem bandDelay_known (c : Chan) (b : Band) (f : F32) (s : State) (c' : Chan) (b' : Band) :
    (laneGet (bandDelay c b f s).1.lines c' b').known = (laneGet s.lines c' b').known := by
  by_cases h : c' = c ∧ b' = b
  · obtain ⟨rfl, rfl⟩ := h
    cases hd : (param s b').dlyEn
    · rw [bandDelay_disabled _ _ _ _ hd]
    · rw [(bandDelay_enabled c' b' f s hd).1]
  · rw [(bandDelay_other c b f s h).1]

/-- Every other lane is as it was after one lane's step. -/
theorem laneStep_other (c : Chan) (x a : F32) (s : State) (b : Band) {c' : Chan} {b' : Band} (h : ¬(c' = c ∧ b' = b)) :
    laneGet (laneStep c x (s, a) b).1.filters c' b' = laneGet s.filters c' b' ∧
    laneGet (laneStep c x (s, a) b).1.lines c' b' = laneGet s.lines c' b' ∧
    ∀ i, dRead (laneStep c x (s, a) b).1.mem c' b' i = dRead s.mem c' b' i := by
  refine ⟨?_, ?_, ?_⟩
  · rw [laneStep_filters, if_neg (fun e => h ⟨e.1.symm, e.2.symm⟩)]
  · simp only [laneStep]
    rw [(bandDelay_other _ _ _ _ h).1, bandFilter_lines]
  · intro i
    simp only [laneStep]
    rw [(bandDelay_other _ _ _ _ h).2, bandFilter_mem]

/-- What a property of states that every lane step keeps becomes: the channel's loop keeps it. -/
theorem lanes_induct {P : State → Prop} (c : Chan) (x : F32) (l : List Band)
    (h : ∀ s a b, P s → P (laneStep c x (s, a) b).1) (s : State) (a : F32) (hs : P s) :
    P (l.foldl (laneStep c x) (s, a)).1 := by
  induction l generalizing s a with
  | nil => exact hs
  | cons b l ih =>
    rw [List.foldl_cons, ← Prod.mk.eta (p := laneStep c x (s, a) b)]
    exact ih _ _ (h s a b hs)

/-- What a property that modulation, lane steps and DC blocking keep becomes: the frame keeps it up to E.out. -/
theorem frame_induct {P : State → Prop} (hm : ∀ s b, P s → P (modulate s b))
    (hl : ∀ c x s a b, P s → P (laneStep c x (s, a) b).1) (hd : ∀ c x s, P s → P (dcBlock c x s).1)
    (ho : ∀ (s : State) y, P s → P { s with out := y }) (x : AudioFrame) (s : State) (hs : P s) : P (frame x s) := by
  have h1 : P (bands.foldl modulate s) := by
    have : ∀ (l : List Band) s, P s → P (l.foldl modulate s) := by
      intro l
      induction l with
      | nil => exact fun s h => h
      | cons b l ih => exact fun s h => ih _ (hm s b h)
    exact this _ _ hs
  have h2 : ∀ c x s, P s → P (channelFrame c x s).1 := fun c x s h =>
    hd _ _ _ (lanes_induct c x bands (hl c x) s posZero h)
  exact ho _ _ (h2 _ _ _ (h2 _ _ _ h1))

/-- Bands not in the list keep their lanes. -/
theorem lanes_list_other (c : Chan) (x : F32) (l : List Band) (s : State) (a : F32) {c' : Chan} {b' : Band}
    (h : ¬(c' = c ∧ b' ∈ l)) :
    laneGet (l.foldl (laneStep c x) (s, a)).1.filters c' b' = laneGet s.filters c' b' ∧
    laneGet (l.foldl (laneStep c x) (s, a)).1.lines c' b' = laneGet s.lines c' b' ∧
    ∀ i, dRead (l.foldl (laneStep c x) (s, a)).1.mem c' b' i = dRead s.mem c' b' i := by
  induction l generalizing s a with
  | nil => exact ⟨rfl, rfl, fun _ => rfl⟩
  | cons b l ih =>
    rw [List.foldl_cons, ← Prod.mk.eta (p := laneStep c x (s, a) b)]
    obtain ⟨h1, h2, h3⟩ := ih (laneStep c x (s, a) b).1 (laneStep c x (s, a) b).2
      (fun e => h ⟨e.1, List.mem_cons_of_mem _ e.2⟩)
    obtain ⟨g1, g2, g3⟩ := laneStep_other c x a s b (c' := c') (b' := b')
      (fun e => h ⟨e.1, e.2 ▸ List.mem_cons_self⟩)
    exact ⟨h1.trans g1, h2.trans g2, fun i => (h3 i).trans (g3 i)⟩

/-- In a channel's loop every band's filter takes the sample, whatever the routing and the enables are. -/
theorem lanes_filters (c : Chan) (x : F32) (l : List Band) (hl : l.Nodup) (s : State) (a : F32) {b : Band} (h : b ∈ l) :
    laneGet (l.foldl (laneStep c x) (s, a)).1.filters c b =
      (filterProcess s.cfg.denorm (activeSections s.active.order) (laneGet s.filters c b) x).1 := by
  induction l generalizing s a with
  | nil => exact absurd h (by simp)
  | cons b' l ih =>
    obtain ⟨hn, hl'⟩ := List.nodup_cons.mp hl
    rw [List.foldl_cons, ← Prod.mk.eta (p := laneStep c x (s, a) b')]
    by_cases hb : b = b'
    · subst hb
      rw [(lanes_list_other c x l _ _ (fun e => hn e.2)).1, laneStep_filters, if_pos ⟨rfl, rfl⟩]
    · rw [ih hl' _ _ (by simpa [hb] using h), (laneStep_other c x a s b' (fun e => hb e.2)).1]
      simp

/-- In a frame every filter takes its channel's sample once. -/
theorem frame_filters (x : AudioFrame) (s : State) (c : Chan) (b : Band) :
    laneGet (frame x s).filters c b =
      (filterProcess s.cfg.denorm (activeSections s.active.order) (laneGet s.filters c b)
        (if c = 0 then x.1 else x.2)).1 := by
  have e0 : ∀ (t : State) y, laneGet (channelFrame 0 y t).1.filters 0 b =
      (filterProcess t.cfg.denorm (activeSections t.active.order) (laneGet t.filters 0 b) y).1 := fun t y => by
    simp only [channelFrame, dcBlock_filters]
    exact lanes_filters 0 y bands bands_nodup t posZero (mem_bands b)
  have e1 : ∀ (t : State) y, laneGet (channelFrame 1 y t).1.filters 1 b =
      (filterProcess t.cfg.denorm (activeSections t.active.order) (laneGet t.filters 1 b) y).1 := fun t y => by
    simp only [channelFrame, dcBlock_filters]
    exact lanes_filters 1 y bands bands_nodup t posZero (mem_bands b)
  have k : ∀ (c c' : Chan) (t : State) y, c' ≠ c → laneGet (channelFrame c y t).1.filters c' b = laneGet t.filters c' b :=
    fun c c' t y hc => by
      simp only [channelFrame, dcBlock_filters]
      exact (lanes_list_other c y bands t posZero (fun e => hc e.1)).1
  match c with
  | 0 =>
    simp only [frame]
    rw [k 1 0 _ _ (by decide), e0]
    simp
  | 1 =>
    simp only [frame]
    rw [e1, k 0 1 _ _ (by decide)]
    simp

/-- A frame keeps the marks of the delay lines. -/
theorem frame_known (x : AudioFrame) (s : State) (c : Chan) (b : Band) :
    (laneGet (frame x s).lines c b).known = (laneGet s.lines c b).known := by
  refine frame_induct (P := fun t => (laneGet t.lines c b).known = (laneGet s.lines c b).known)
    ?_ ?_ ?_ ?_ x s rfl
  · intro t b' h; simpa using h
  · intro c' x t a b' h
    simp only [laneStep, bandDelay_known, bandFilter_lines]
    exact h
  · intro c' x t h; simpa using h
  · intro t y h; exact h

end Sys2Proof.Machine
end

