-- ==== Sys2Proof/Laws/Start.lean ====
section
/-! SUPPORT. What DELAY.CLEAR, FILTER.UPDATE, BLOCK.START and INIT do. -/

namespace Sys2Proof.Machine

/-- The delay-line registers after DELAY.CLEAR. -/
abbrev clearedLine : DelayLine := { w := 0, fb := posZero, known := true }

/-! ### DELAY.CLEAR -/

theorem delayClear_lines (c : Chan) (b : Band) (s : State) (c' : Chan) (b' : Band) :
    laneGet (delayClear c b s).lines c' b' = if c = c' ∧ b = b' then clearedLine else laneGet s.lines c' b' := by
  simp only [delayClear]
  rw [laneSet_get]

theorem delayClear_words (c : Chan) (b : Band) (s : State) (c' : Chan) (b' : Band) {i : Nat} (hi : i < s.cfg.lits.dlen) :
    dRead (delayClear c b s).mem c' b' i = if c = c' ∧ b = b' then posZero else dRead s.mem c' b' i := by
  simp only [delayClear]
  split
  · next h => obtain ⟨rfl, rfl⟩ := h; exact dRead_clearWords_same _ _ _ hi
  · next h => exact dRead_clearWords_other _ _ _ (fun e => h ⟨e.1.symm, e.2.symm⟩)

/-- A property that clearing any line keeps, clearing all of them keeps. -/
theorem delayClearAll_induct {P : State → Prop} (h : ∀ c b s, P s → P (delayClear c b s)) (s : State) (hs : P s) :
    P (delayClearAll s) := by
  have h1 : ∀ c (l : List Band) s, P s → P (l.foldl (fun s b => delayClear c b s) s) := by
    intro c l
    induction l with
    | nil => exact fun s hs => hs
    | cons b l ih => exact fun s hs => ih _ (h c b s hs)
  simp only [delayClearAll, chans, List.foldl_cons, List.foldl_nil]
  exact h1 1 bands _ (h1 0 bands _ hs)

/-- A property that clearing the lines of a disabled band keeps, step 4 of BLOCK.START keeps. -/
theorem delayClearDisabled_induct {P : State → Prop} (s : State)
    (h : ∀ c b t, t.active = s.active → (param s b).dlyEn = false → P t → P (delayClear c b t)) (hs : P s) :
    P (delayClearDisabled s) := by
  have h1 : ∀ (l : List Band) t, t.active = s.active → P t →
      P (l.foldl (fun s b => if (param s b).dlyEn then s else delayClear 1 b (delayClear 0 b s)) t) := by
    intro l
    induction l with
    | nil => exact fun t _ ht => ht
    | cons b l ih =>
      intro t ha ht
      rw [List.foldl_cons]
      cases hd : (param t b).dlyEn
      · have hd' : (param s b).dlyEn = false := by rw [← hd, param_of_active ha]
        refine ih _ (by simp [ha]) ?_
        exact h 1 b _ (by simp [ha]) hd' (h 0 b t ha hd' ht)
      · exact ih _ (by simp [ha]) (by simpa using ht)
  exact h1 bands s rfl hs

/-- What clearing both lines of band b after band b does to the registers, for a list of bands. -/
theorem clearList_lines (c : Chan) (l : List Band) (s : State) (c' : Chan) (b' : Band) :
    laneGet (l.foldl (fun s b => delayClear c b s) s).lines c' b' =
      if c = c' ∧ b' ∈ l then clearedLine else laneGet s.lines c' b' := by
  induction l generalizing s with
  | nil => simp
  | cons b l ih =>
    rw [List.foldl_cons, ih, delayClear_lines]
    by_cases hc : c = c' <;> by_cases hl : b' ∈ l <;> by_cases hb : b = b' <;> simp [hc, hl, hb]
    exact fun e => absurd e.symm hb

theorem clearList_words (c : Chan) (l : List Band) (s : State) (c' : Chan) (b' : Band) {i : Nat} (hi : i < s.cfg.lits.dlen) :
    dRead (l.foldl (fun s b => delayClear c b s) s).mem c' b' i =
      if c = c' ∧ b' ∈ l then posZero else dRead s.mem c' b' i := by
  induction l generalizing s with
  | nil => simp
  | cons b l ih =>
    rw [List.foldl_cons, ih _ (by simpa using hi), delayClear_words _ _ _ _ _ hi]
    by_cases hc : c = c' <;> by_cases hl : b' ∈ l <;> by_cases hb : b = b' <;> simp [hc, hl, hb, eq_comm]
    exact fun e => absurd e.symm hb

/-- Every line is clear after the clear of all lines. -/
theorem delayClearAll_lines (s : State) (c : Chan) (b : Band) : laneGet (delayClearAll s).lines c b = clearedLine := by
  simp only [delayClearAll, chans, List.foldl_cons, List.foldl_nil]
  rw [clearList_lines, clearList_lines]
  have := mem_bands b
  fin_cases c <;> simp [this]

theorem delayClearAll_words (s : State) (c : Chan) (b : Band) {i : Nat} (hi : i < s.cfg.lits.dlen) :
    dRead (delayClearAll s).mem c b i = posZero := by
  simp only [delayClearAll, chans, List.foldl_cons, List.foldl_nil]
  rw [clearList_words _ _ _ _ _ (by simpa [foldl_keeps _ State.cfg (fun s b => delayClear_cfg 0 b s)] using hi), clearList_words _ _ _ _ _ hi]
  have := mem_bands b
  fin_cases c <;> simp [this]

/-- Step 4 of BLOCK.START, line by line: the registers. -/
theorem delayClearDisabled_lines (s : State) (c : Chan) (b : Band) :
    laneGet (delayClearDisabled s).lines c b =
      if (param s b).dlyEn then laneGet s.lines c b else clearedLine := by
  have h : ∀ (l : List Band) (t : State), t.active = s.active →
      laneGet (l.foldl (fun s b => if (param s b).dlyEn then s else delayClear 1 b (delayClear 0 b s)) t).lines c b =
        if b ∈ l ∧ (param s b).dlyEn = false then clearedLine else laneGet t.lines c b := by
    intro l
    induction l with
    | nil => intro t _; simp
    | cons a l ih =>
      intro t ht
      rw [List.foldl_cons, param_of_active ht a]
      cases hd : (param s a).dlyEn
      · rw [if_neg (by simp), ih _ (by simp [ht]), delayClear_lines, delayClear_lines]
        have hc : (1 : Chan) = c ∨ (0 : Chan) = c := by fin_cases c <;> simp
        by_cases hab : a = b
        · subst hab; rcases hc with hc | hc <;> simp [hd, hc]
        · simp [hab, Ne.symm hab]
      · rw [if_pos rfl, ih _ ht]
        by_cases hab : a = b
        · subst hab; simp [hd]
        · simp [Ne.symm hab]
  have := h bands s rfl
  rw [show delayClearDisabled s = bands.foldl
    (fun s b => if (param s b).dlyEn then s else delayClear 1 b (delayClear 0 b s)) s from rfl, this]
  cases hd : (param s b).dlyEn <;> simp [mem_bands b]

/-- Step 4 of BLOCK.START, line by line: the words. -/
theorem delayClearDisabled_words (s : State) (c : Chan) (b : Band) {i : Nat} (hi : i < s.cfg.lits.dlen) :
    dRead (delayClearDisabled s).mem c b i = if (param s b).dlyEn then dRead s.mem c b i else posZero := by
  have h : ∀ (l : List Band) (t : State), t.active = s.active → t.cfg = s.cfg →
      dRead (l.foldl (fun s b => if (param s b).dlyEn then s else delayClear 1 b (delayClear 0 b s)) t).mem c b i =
        if b ∈ l ∧ (param s b).dlyEn = false then posZero else dRead t.mem c b i := by
    intro l
    induction l with
    | nil => intro t _ _; simp
    | cons a l ih =>
      intro t ht hc'
      rw [List.foldl_cons, param_of_active ht a]
      cases hd : (param s a).dlyEn
      · rw [if_neg (by simp), ih _ (by simp [ht]) (by simp [hc']), delayClear_words _ _ _ _ _ (by simpa [hc'] using hi),
          delayClear_words _ _ _ _ _ (by simpa [hc'] using hi)]
        have hc : (1 : Chan) = c ∨ (0 : Chan) = c := by fin_cases c <;> simp
        by_cases hab : a = b
        · subst hab; rcases hc with hc | hc <;> simp [hd, hc]
        · simp [hab, Ne.symm hab]
      · rw [if_pos rfl, ih _ ht hc']
        by_cases hab : a = b
        · subst hab; simp [hd]
        · simp [Ne.symm hab]
  have := h bands s rfl rfl
  rw [show delayClearDisabled s = bands.foldl
    (fun s b => if (param s b).dlyEn then s else delayClear 1 b (delayClear 0 b s)) s from rfl, this]
  cases hd : (param s b).dlyEn <;> simp [mem_bands b]

/-! ### FILTER -/

theorem filterConfigure_section (cfg : Platform) (d : Design) (o : FilterOrder) (freq sr : F32) (t : BandType) (f : Filter)
    (k : Sec) :
    (filterConfigure cfg d o freq sr t f)[k] =
      if k.val < activeSections o then { f[k] with coef := biquadCoef cfg.unit t freq sr (designQ cfg.lits d o k) } else f[k] := by
  unfold filterConfigure
  rw [secOf_get]

theorem sectionClear_section (lo hi : Nat) (f : Filter) (k : Sec) :
    (sectionClear lo hi f)[k] =
      if lo ≤ k.val ∧ k.val ≤ hi then { f[k] with s1 := posZero, s2 := posZero } else f[k] := by
  unfold sectionClear
  rw [secOf_get]

theorem clearTaps_section (f : Filter) (k : Sec) : (clearTaps f)[k] = { f[k] with s1 := posZero, s2 := posZero } := by
  have := sec_lt k
  rw [clearTaps, sectionClear_section, if_pos (by omega)]

@[simp] theorem filterUpdate_key (s : State) : (filterUpdate s).key = wantedKey s := by
  unfold filterUpdate
  split
  · assumption
  · rfl

/-- A filter's section under FILTER.PROCESS: only the taps of active sections change. -/
theorem filterProcess_section (dn : Denorm) (n : Nat) (f : Filter) (x : F32) (k : Sec) :
    (filterProcess dn n f x).1[k].coef = f[k].coef ∧ (n ≤ k.val → (filterProcess dn n f x).1[k] = f[k]) := by
  have step : ∀ (l : List Sec) (g : Filter) (v : F32),
      let r := l.foldl (fun (acc : Filter × F32) (k : Sec) =>
        let r := sectionProcess dn acc.1[k] acc.2
        (acc.1.set k r.1, r.2)) (g, v)
      r.1[k].coef = g[k].coef ∧ (k ∉ l → r.1[k] = g[k]) := by
    intro l
    induction l with
    | nil => exact fun g v => ⟨rfl, fun _ => rfl⟩
    | cons j l ih =>
      intro g v
      have set_get : ∀ (q : Section), (g.set j q)[k] = if j = k then q else g[k] := fun q => by
        simp [Vector.getElem_set, Fin.ext_iff]
      obtain ⟨h1, h2⟩ := ih (g.set j (sectionProcess dn g[j] v).1) (sectionProcess dn g[j] v).2
      simp only [List.foldl_cons]
      constructor
      · rw [h1, set_get]
        split
        · next e => subst e; rfl
        · rfl
      · intro hk
        have hj : j ≠ k := fun e => hk (e ▸ List.mem_cons_self)
        rw [h2 (fun e => hk (List.mem_cons_of_mem _ e)), set_get, if_neg hj]
  obtain ⟨h1, h2⟩ := step (secs.take n) f x
  refine ⟨h1, fun hn => h2 ?_⟩
  intro hk
  have : ∀ n : Nat, ∀ k : Sec, k ∈ secs.take n → k.val < n := by
    intro n k hk
    match n with
    | 0 => simp at hk
    | 1 => simp [secs] at hk; subst hk; decide
    | 2 => simp [secs] at hk; rcases hk with rfl | rfl <;> decide
    | 3 => simp [secs] at hk; rcases hk with rfl | rfl | rfl <;> decide
    | n + 4 => have := sec_lt k; omega
  have := this n k hk
  omega

/-- The deactivation loop of FILTER.UPDATE, one filter: sections that an order decrease under a valid key deactivates are
cleared. -/
theorem filterDeactivate_lane (s : State) (c : Chan) (b : Band) :
    laneGet (filterDeactivate s) c b =
      if s.key.valid = true ∧ activeSections s.active.order < activeSections s.key.order then
        sectionClear (activeSections s.active.order) (activeSections s.key.order - 1) (laneGet s.filters c b)
      else laneGet s.filters c b := by
  unfold filterDeactivate
  by_cases h : s.key.valid = true ∧ activeSections s.active.order < activeSections s.key.order
  · rw [if_pos (by simpa using h), if_pos h, lanesOf_get]
  · rw [if_neg (by simpa using h), if_neg h]

/-- FILTER.UPDATE, one filter. -/
theorem filterUpdate_lane (s : State) (c : Chan) (b : Band) :
    laneGet (filterUpdate s).filters c b =
      if s.key = wantedKey s then laneGet s.filters c b
      else filterConfigure s.cfg s.active.design s.active.order (effFreq s.cfg s.sr b) s.sr (bandType b)
        (laneGet (filterDeactivate s) c b) := by
  unfold filterUpdate
  split
  · rfl
  · exact lanesOf_get _ c b

/-! ### BLOCK.START and INIT, field by field -/

@[simp] theorem blockStart_mode (n : Nat) (s : State) : (blockStart n s).mode = .running := rfl

@[simp] theorem blockStart_left (n : Nat) (s : State) : (blockStart n s).left = n := rfl

@[simp] theorem blockStart_active (n : Nat) (s : State) : (blockStart n s).active = s.staging := by simp [blockStart, latch]

@[simp] theorem blockStart_key (n : Nat) (s : State) : (blockStart n s).key = wantedKey (latch s) := by simp [blockStart]

@[simp] theorem blockStart_filters (n : Nat) (s : State) : (blockStart n s).filters = (filterUpdate (latch s)).filters := by
  simp [blockStart]

theorem blockStart_lfo (n : Nat) (s : State) (b : Band) :
    (blockStart n s).lfo[b] = { s.lfo[b] with inc := lfoInc s.cfg (flush s.cfg.denorm s.staging.band[b].lfoRate) s.sr } := by
  have h : (blockStart n s).lfo =
      bankOf fun b => { s.lfo[b] with inc := lfoInc s.cfg (flush s.cfg.denorm s.staging.band[b].lfoRate) s.sr } := by
    simp [blockStart, lfoSetRates, latch, param]
  rw [h]
  exact bankOf_get _ b

theorem blockStart_lines (n : Nat) (s : State) (c : Chan) (b : Band) :
    laneGet (blockStart n s).lines c b =
      if s.staging.band[b].dlyEn then laneGet s.lines c b else clearedLine := by
  have h := delayClearDisabled_lines (lfoSetRates (filterUpdate (latch s))) c b
  simpa [blockStart, param, latch] using h

theorem blockStart_words (n : Nat) (s : State) (c : Chan) (b : Band) {i : Nat} (hi : i < s.cfg.lits.dlen) :
    dRead (blockStart n s).mem c b i = if s.staging.band[b].dlyEn then dRead s.mem c b i else posZero := by
  have h := delayClearDisabled_words (lfoSetRates (filterUpdate (latch s))) c b (i := i) (by simpa using hi)
  simpa [blockStart, param, latch] using h

@[simp] theorem initEffect_sr (fs : F32) (s : State) : (initEffect fs s).sr = fs := by simp [initEffect]

@[simp] theorem initEffect_dmax (fs : F32) (s : State) : (initEffect fs s).dmax = dmaxOf s.cfg fs := by
  simp [initEffect, smoothSetCutoff]

@[simp] theorem initEffect_status (fs : F32) (s : State) : (initEffect fs s).status = { s.status with initDone := true } := by
  simp [initEffect]

@[simp] theorem initEffect_key (fs : F32) (s : State) : (initEffect fs s).key = { s.key with valid := false } := by
  simp [initEffect]

theorem initEffect_filters (fs : F32) (s : State) (c : Chan) (b : Band) :
    laneGet (initEffect fs s).filters c b = clearTaps (laneGet s.filters c b) := by
  simp [initEffect]

theorem initEffect_lines (fs : F32) (s : State) (c : Chan) (b : Band) :
    laneGet (initEffect fs s).lines c b = clearedLine := by
  simp only [initEffect]
  exact delayClearAll_lines _ _ _

theorem initEffect_words (fs : F32) (s : State) (c : Chan) (b : Band) {i : Nat} (hi : i < s.cfg.lits.dlen) :
    dRead (initEffect fs s).mem c b i = posZero := by
  simp only [initEffect]
  exact delayClearAll_words _ _ _ (by simpa using hi)

/-- What clearing any line keeps of the memory, INIT keeps of it. -/
theorem initEffect_mem_keeps {Q : Memory → Prop} (fs : F32) (s : State)
    (h : ∀ m c b, Q m → Q (clearWords m s.cfg.lits.dlen c b)) (hs : Q s.mem) : Q (initEffect fs s).mem := by
  have e : (initEffect fs s).mem = (delayClearAll { smoothSetCutoff { s with sr := fs } with
      dmax := dmaxOf s.cfg fs }).mem := by simp only [initEffect, smoothSetCutoff]
  rw [e]
  refine (delayClearAll_induct (P := fun t => t.cfg = s.cfg ∧ Q t.mem) (fun c b t ht => ⟨by simpa using ht.1, ?_⟩) _ ⟨by simp, ?_⟩).2
  · simp only [delayClear, ht.1]; exact h _ _ _ ht.2
  · simpa using hs

/-- What clearing the lines of disabled bands keeps of the memory, BLOCK.START keeps of it. -/
theorem blockStart_mem_keeps {Q : Memory → Prop} (n : Nat) (s : State)
    (h : ∀ m c b, s.staging.band[b].dlyEn = false → Q m → Q (clearWords m s.cfg.lits.dlen c b)) (hs : Q s.mem) :
    Q (blockStart n s).mem := by
  have e : (blockStart n s).mem = (delayClearDisabled (lfoSetRates (filterUpdate (latch s)))).mem := by
    simp only [blockStart]
  rw [e]
  refine (delayClearDisabled_induct (P := fun t => t.cfg = s.cfg ∧ Q t.mem) _
    (fun c b t _ hd ht => ⟨by simpa using ht.1, ?_⟩) ⟨by simp, ?_⟩).2
  · simp only [delayClear, ht.1]
    refine h _ _ _ ?_ ht.2
    simpa [param, latch] using hd
  · simpa using hs

/-- What a word write at a line's cursor keeps of the memory, a lane's step keeps of it. -/
theorem laneStep_mem_keeps {Q : Memory → Prop} (c : Chan) (x a : F32) (s : State) (b : Band)
    (h : ∀ v, Q s.mem → Q (dWrite s.mem c b (laneGet s.lines c b).w v)) (hs : Q s.mem) : Q (laneStep c x (s, a) b).1.mem := by
  simp only [laneStep]
  cases hd : (param (bandFilter c b x s).1 b).dlyEn
  · rw [bandDelay_disabled _ _ _ _ hd]; simpa using hs
  · rw [(bandDelay_enabled _ _ _ _ hd).2.1]
    simp only [bandFilter_mem, bandFilter_lines]
    exact h _ hs

/-- A cursor in range stays in range in a lane's step. -/
theorem laneStep_cursor (c : Chan) (x a : F32) (s : State) (b : Band) (h : CursorsInRange s) :
    CursorsInRange (laneStep c x (s, a) b).1 := by
  intro c' b'
  by_cases e : c' = c ∧ b' = b
  · obtain ⟨rfl, rfl⟩ := e
    simp only [laneStep]
    cases hd : (param (bandFilter c' b' x s).1 b').dlyEn
    · rw [bandDelay_disabled _ _ _ _ hd]; simpa using h c' b'
    · rw [(bandDelay_enabled _ _ _ _ hd).1]
      simpa using Nat.mod_lt _ (Nat.lt_of_le_of_lt (Nat.zero_le _) (h c' b'))
  · rw [(laneStep_other c x a s b e).2.1]; simpa using h c' b'

/-- A frame keeps every cursor in range, and what word writes inside the delay space keep of the memory. -/
theorem frame_mem_keeps {Q : Memory → Prop} (x : AudioFrame) (s : State) (hc : CursorsInRange s)
    (h : ∀ m c b i v, i < s.cfg.lits.dlen → Q m → Q (dWrite m c b i v)) (hs : Q s.mem) :
    CursorsInRange (frame x s) ∧ Q (frame x s).mem := by
  refine (frame_induct (P := fun t => t.cfg = s.cfg ∧ CursorsInRange t ∧ Q t.mem) ?_ ?_ ?_ ?_ x s ⟨rfl, hc, hs⟩).2
  · exact fun t b ht => by simpa using ht
  · exact fun c x t a b ht => ⟨by simpa using ht.1, laneStep_cursor c x a t b ht.2.1,
      laneStep_mem_keeps c x a t b (fun v => h _ _ _ _ _ (ht.1 ▸ ht.2.1 c b)) ht.2.2⟩
  · exact fun c x t ht => by simpa using ht
  · exact fun t y ht => ht

end Sys2Proof.Machine
end

