-- ==== Sys2Proof/Laws/Step.lean ====
section
/-! SUPPORT. What one step can do, said once: inversion lemmas for step, the decoder, exec, the engine and the host, and from
them one scheme for properties that every step keeps. -/

namespace Sys2Proof.Machine

/-! ### What exec can do -/

/-- The changes that the per-band setters make to a band's staged parameters (46 R452 to R461). -/
inductive BandEdit (cfg : Platform) : (BandParams → BandParams) → Prop where
  | gain (x : F32) : BandEdit cfg (fun p => { p with gain := clampGain cfg x })
  | pol (n : Nat) : BandEdit cfg (fun p => { p with pol := flagOf n })
  | lfoRate (x : F32) : BandEdit cfg (fun p => { p with lfoRate := clampLfoRate cfg x })
  | lfoDepth (x : F32) : BandEdit cfg (fun p => { p with lfoDepth := clampLfoDepth cfg x })
  | lfoOfs (x : F32) : BandEdit cfg (fun p => { p with lfoOfs := clampLfoOfs cfg x })
  | lfoEn (n : Nat) : BandEdit cfg (fun p => { p with lfoEn := flagOf n })
  | dlyTime (x : F32) : BandEdit cfg (fun p => { p with dlyTime := clampDlyTime cfg x })
  | dlyFb (x : F32) : BandEdit cfg (fun p => { p with dlyFb := clampDlyFb cfg x })
  | dlyMix (x : F32) : BandEdit cfg (fun p => { p with dlyMix := clampDlyMix cfg x })
  | dlyEn (n : Nat) : BandEdit cfg (fun p => { p with dlyEn := flagOf n })

/-- The changes that the global setters make to the staging set (46 R472 to R475). -/
inductive GlobalEdit (l : Literals) : (ParamSet → ParamSet) → Prop where
  | design (n : Nat) : GlobalEdit l (fun g => { g with design := clampDesign n })
  | order (n : Nat) : GlobalEdit l (fun g => { g with order := clampOrder l n })
  | route (n : Nat) : GlobalEdit l (fun g => { g with route := clampRoute n })
  | wave (n : Nat) : GlobalEdit l (fun g => { g with wave := clampWave n })

theorem GlobalEdit.keeps_band {l : Literals} {f : ParamSet → ParamSet} (h : GlobalEdit l f) (p : ParamSet) : (f p).band = p.band := by
  cases h <;> rfl

theorem answerGet_cases {w : Word} {s t : State} (h : answerGet w s = .next t) : t = s ∨ t = respPush w (retire s) := by
  unfold answerGet at h
  split at h <;> simp at h <;> simp [h]

/-- A legal BLOCK on an idle, initialised machine starts a block. -/
theorem exec_block_accepted {s : State} {n : Nat} (h1 : s.mode = .idle) (h2 : s.status.initDone = true) (h3 : 1 ≤ n)
    (h4 : n ≤ s.cfg.lits.blockMax) : exec (.block n) s = .next (blockStart n (retire s)) := by
  have e1 : ¬(s.mode = .running) := by simp [h1]
  have e2 : ¬((!s.status.initDone) = true) := by simp [h2]
  have e3 : ¬(s.cfg.lits.blockMax < n) := by omega
  have e4 : ¬(n = 0) := by omega
  simp only [exec, execBlock, if_neg e1, if_neg e2, if_neg e3, if_neg e4]

/-- Everything exec can do with a command. -/
theorem exec_cases {i : Instr} {s t : State} (h : exec i s = .next t) :
    t = s ∨ t = retire s ∨ (∃ w, t = respPush w (retire s)) ∨ t = { retire s with status := s.status.cleared } ∨
    (∃ e op, t = raiseError e op s) ∨ (∃ b f, BandEdit s.cfg f ∧ t = stageBand b f (retire s)) ∨
    (∃ f, GlobalEdit s.cfg.lits f ∧ t = stageGlobal f (retire s)) ∨
    (∃ fs, i = .init fs ∧ s.mode = .idle ∧ legalRate s.cfg.lits fs = true ∧ t = initEffect fs (retire s)) ∨
    (∃ n, i = .block n ∧ s.mode = .idle ∧ s.status.initDone = true ∧ 1 ≤ n ∧ n ≤ s.cfg.lits.blockMax ∧ t = blockStart n (retire s)) := by
  have gt : ∀ {w}, answerGet w s = .next t → t = s ∨ (∃ w, t = respPush w (retire s)) := fun h => by
    rcases answerGet_cases h with h | h
    · exact .inl h
    · exact .inr ⟨_, h⟩
  have hmode : s.mode ≠ .running → s.mode = .idle := by cases s.mode <;> simp
  cases i <;> simp only [exec] at h
  case nop => right; left; simpa [execNop] using h.symm
  case clrStatus => right; right; right; left; simpa [execClrStatus] using h.symm
  case init fs =>
    unfold execInit at h
    split at h
    · left; simpa using h.symm
    · next hm =>
      split at h
      · next hl => right; right; right; right; right; right; right; left; exact ⟨fs, rfl, hmode hm, hl, by simpa using h.symm⟩
      · right; right; right; right; left; exact ⟨_, _, by simpa using h.symm⟩
  case block n =>
    unfold execBlock at h
    split at h
    · left; simpa using h.symm
    · next hm =>
      split at h
      · right; right; right; right; left; exact ⟨_, _, by simpa using h.symm⟩
      · next hi =>
        split at h
        · right; right; right; right; left; exact ⟨_, _, by simpa using h.symm⟩
        · next hn =>
          split at h
          · right; left; simpa using h.symm
          · right; right; right; right; right; right; right; right
            refine ⟨n, rfl, hmode hm, by simpa using hi, by omega, by omega, by simpa using h.symm⟩
  case setDesign | setOrder | setRoute | setWave =>
    right; right; right; right; right; right; left
    exact ⟨_, by constructor, (Host.Outcome.next.inj h).symm⟩
  case setGain | setPol | setLfoRate | setLfoDepth | setLfoOfs | setLfoEn | setDlyTime | setDlyFb | setDlyMix | setDlyEn =>
    right; right; right; right; right; left
    exact ⟨_, _, by constructor, (Host.Outcome.next.inj h).symm⟩
  all_goals (rcases gt h with h | h; exacts [.inl h, .inr (.inr (.inl h))])

/-! ### What a step, the decoder, the engine and the host can do -/

/-- A step is nothing, or one agent's move from the state whose schedule fields may have moved on. -/
theorem step_cases {s t : State} (h : step s = .next t) :
    t = s ∨ ∃ s', (s' = s ∨ ∃ l n, s' = { s with sched := l, turns := n }) ∧
      (t = hostMove s' ∨ decoderMove s' = .next t ∨ engineMove s' = .next t) := by
  unfold step at h
  split at h
  · left; simpa using h.symm
  · right
    refine ⟨afterPick s, ?_, ?_⟩
    · unfold afterPick; split
      · right; exact ⟨_, _, rfl⟩
      · left; rfl
    · next a _ =>
      cases a
      · left; simpa [moveOf] using h.symm
      · right; left; exact h
      · right; right; exact h

/-- The decoder waits, records an error, or runs a command. -/
theorem decoder_cases {s t : State} (h : decoderMove s = .next t) :
    t = s ∨ (∃ e op, t = raiseError e op s) ∨ ∃ i, exec i s = .next t := by
  unfold decoderMove at h
  split at h
  · split at h
    · right; left; exact ⟨_, _, by simpa using h.symm⟩
    · right; right; exact ⟨_, h⟩
  · left; simpa using h.symm

/-- The engine waits, ends a block, pushes a frame, or computes one. -/
theorem engine_cases {s t : State} (h : engineMove s = .next t) :
    t = s ∨ (s.mode = .running ∧ s.left = 0 ∧ t = blockEnd s) ∨
    (s.mode = .running ∧ s.left ≠ 0 ∧ ∃ y, s.out = some y ∧ t = outPush y s) ∨
    (s.mode = .running ∧ s.left ≠ 0 ∧ s.out = none ∧ ∃ x0 x1 rest, s.ain = x0 :: x1 :: rest ∧
      framesReadable s = true ∧ t = frame (x0, x1) { s with ain := rest }) := by
  unfold engineMove at h
  split at h
  · left; simpa using h.symm
  · next hm =>
    split at h
    · next hl => right; left; exact ⟨hm, hl, by simpa using h.symm⟩
    · next hl =>
      split at h
      · next y hy =>
        split at h
        · left; simpa using h.symm
        · right; right; left; exact ⟨hm, hl, y, hy, by simpa using h.symm⟩
      · next hy =>
        split at h
        · next x0 x1 rest hx =>
          split at h
          · next hf => right; right; right; exact ⟨hm, hl, hy, x0, x1, rest, hx, hf, by simpa using h.symm⟩
          · cases h
        · left; simpa using h.symm

/-- A host transfer changes the ports and the host's own list only. -/
theorem host_keeps (s : State) :
    hostMove s = { s with cmd := (hostMove s).cmd, resp := (hostMove s).resp, ain := (hostMove s).ain
                          aout := (hostMove s).aout, host := (hostMove s).host } := by
  unfold hostMove; split <;> rfl

/-- A property that does not read the ports and the schedule is kept by every step if each effect keeps it. -/
theorem step_keeps {P : State → Prop}
    (ports : ∀ (s : State) c r a o h l n, P s →
      P { s with cmd := c, resp := r, ain := a, aout := o, host := h, sched := l, turns := n })
    (error : ∀ (s : State) e op, P s → P { s with status := s.status.record e op })
    (clear : ∀ (s : State), P s → P { s with status := s.status.cleared })
    (band : ∀ (s : State) b f, BandEdit s.cfg f → P s → P (stageBand b f s))
    (glob : ∀ (s : State) f, GlobalEdit s.cfg.lits f → P s → P (stageGlobal f s))
    (init : ∀ (s : State) fs, s.mode = .idle → legalRate s.cfg.lits fs = true → P s → P (initEffect fs s))
    (start : ∀ (s : State) n, s.mode = .idle → s.status.initDone = true → 1 ≤ n → n ≤ s.cfg.lits.blockMax → P s → P (blockStart n s))
    (stop : ∀ (s : State), s.mode = .running → s.left = 0 → P s → P (blockEnd s))
    (push : ∀ (s : State) y, s.mode = .running → s.left ≠ 0 → s.out = some y → P s → P (outPush y s))
    (comp : ∀ (s : State) x, s.mode = .running → s.left ≠ 0 → s.out = none → P s → P (frame x s))
    {s t : State} (hs : P s) (h : step s = .next t) : P t := by
  rcases step_cases h with rfl | ⟨s', hs', h⟩
  · exact hs
  · have hP : P s' := by
      rcases hs' with rfl | ⟨l, n, rfl⟩
      · exact hs
      · exact ports s s.cmd s.resp s.ain s.aout s.host l n hs
    have hret : P (retire s') := ports s' (s'.cmd.drop pairWords) s'.resp s'.ain s'.aout s'.host s'.sched s'.turns hP
    rcases h with rfl | h | h
    · rw [host_keeps]; exact ports s' _ _ _ _ _ s'.sched s'.turns hP
    · rcases decoder_cases h with rfl | ⟨e, o, rfl⟩ | ⟨i, h⟩
      · exact hP
      · exact error _ e o hret
      · rcases exec_cases h with rfl | rfl | ⟨w, rfl⟩ | rfl | ⟨e, o, rfl⟩ | ⟨b, f, hf, rfl⟩ | ⟨f, hf, rfl⟩ |
          ⟨fs, -, h1, h2, rfl⟩ | ⟨n, -, h1, h2, h3, h4, rfl⟩
        · exact hP
        · exact hret
        · exact ports _ (s'.cmd.drop pairWords) (s'.resp ++ [w]) s'.ain s'.aout s'.host s'.sched s'.turns hret
        · exact clear _ hret
        · exact error _ e o hret
        · exact band _ _ _ hf hret
        · exact glob _ _ hf hret
        · exact init _ _ h1 h2 hret
        · exact start _ _ h1 h2 h3 h4 hret
    · rcases engine_cases h with rfl | ⟨h1, h2, rfl⟩ | ⟨h1, h2, y, h3, rfl⟩ | ⟨h1, h2, h3, x0, x1, rest, h4, h5, rfl⟩
      · exact hP
      · exact stop _ h1 h2 hP
      · exact push _ _ h1 h2 h3 hP
      · exact comp { s' with ain := rest } (x0, x1) h1 h2 h3 (ports s' s'.cmd s'.resp rest s'.aout s'.host s'.sched s'.turns hP)

end Sys2Proof.Machine
end

