-- ==== Sys2Proof/Laws/Command.lean ====
section
/-! SUPPORT. What a frame does not read: the staging set, STATUS, CMD and RESP (20 R113), and the sequencing fields and the ports of
the engine. With other values there it computes the same. Then frames one after another, as a block runs them. -/

namespace Sys2Proof.Machine

/-- A frame commutes with an update of fields that its operations carry along unread, but for E.out, which the frame sets. -/
theorem frame_commutes (f : State → State) (hm : ∀ s b, modulate (f s) b = f (modulate s b))
    (hf : ∀ c b x s, bandFilter c b x (f s) = (f (bandFilter c b x s).1, (bandFilter c b x s).2))
    (hb : ∀ c b v s, bandDelay c b v (f s) = (f (bandDelay c b v s).1, (bandDelay c b v s).2))
    (hr : ∀ s, (f s).active.route = s.active.route ∧ (f s).cfg = s.cfg)
    (hd : ∀ c x s, dcBlock c x (f s) = (f (dcBlock c x s).1, (dcBlock c x s).2))
    (ho : ∀ s y, { f s with out := y } = { f { s with out := y } with out := y }) (x : AudioFrame) (s : State) :
    frame x (f s) = { f (frame x s) with out := (frame x s).out } := by
  have mods : ∀ (l : List Band) s, l.foldl modulate (f s) = f (l.foldl modulate s) := by
    intro l
    induction l with
    | nil => exact fun _ => rfl
    | cons b l ih => intro s; simp only [List.foldl_cons, hm, ih]
  have lane : ∀ c x s a b, laneStep c x (f s, a) b = (f (laneStep c x (s, a) b).1, (laneStep c x (s, a) b).2) := by
    intro c x s a b
    simp only [laneStep, hf, hb, hr]
  have lanes : ∀ c x (l : List Band) s a, l.foldl (laneStep c x) (f s, a) =
      (f (l.foldl (laneStep c x) (s, a)).1, (l.foldl (laneStep c x) (s, a)).2) := by
    intro c x l
    induction l with
    | nil => exact fun _ _ => rfl
    | cons b l ih =>
      intro s a
      rw [List.foldl_cons, List.foldl_cons, lane, ih]
  have chan : ∀ c x s, channelFrame c x (f s) = (f (channelFrame c x s).1, (channelFrame c x s).2) := by
    intro c x s
    simp only [channelFrame, lanes, hd]
  simp only [frame, mods, chan]
  exact ho _ _

theorem frame_withCommandSide (x : AudioFrame) (s t : State) :
    frame x (s.withCommandSide t) = (frame x s).withCommandSide t := by
  have h := frame_commutes (fun s => s.withCommandSide t) ?_ ?_ ?_ ?_ ?_ ?_ x s
  · generalize frame x s = u at h ⊢
    exact h
  · intro s b; rfl
  · intro c b x s; rfl
  · intro c b v s
    unfold bandDelay
    rw [show param (s.withCommandSide t) b = param s b from rfl]
    split <;> rfl
  · intro s; exact ⟨rfl, rfl⟩
  · intro c x s; rfl
  · intro s y; rfl

/-- A frame reads neither E.mode, E.left, E.out nor the engine's ports, and it sets E.out. -/
theorem frame_withSequence (x : AudioFrame) (s : State) (m : Mode) (n : Nat) (o : Option AudioFrame) (i a : List Word) :
    frame x { s with mode := m, left := n, out := o, ain := i, aout := a } =
      { frame x s with mode := m, left := n, ain := i, aout := a } := by
  have h := frame_commutes (fun s => { s with mode := m, left := n, out := o, ain := i, aout := a }) ?_ ?_ ?_ ?_ ?_ ?_ x s
  · generalize frame x s = u at h ⊢
    exact h
  · intro s b; rfl
  · intro c b x s; rfl
  · intro c b v s
    unfold bandDelay
    rw [show param { s with mode := m, left := n, out := o, ain := i, aout := a } b = param s b from rfl]
    split <;> rfl
  · intro s; exact ⟨rfl, rfl⟩
  · intro c x s; rfl
  · intro s y; rfl

/-! ### Frames one after another -/

/-- A frame always leaves an output frame in E.out. -/
theorem frame_out (x : AudioFrame) (s : State) : ∃ y, (frame x s).out = some y := by
  simp only [frame]
  exact ⟨_, rfl⟩

@[simp] theorem framesRun_nil (s : State) : framesRun [] s = s := by simp only [framesRun, List.foldl_nil]

@[simp] theorem framesRun_cons (x : AudioFrame) (xs : List AudioFrame) (s : State) :
    framesRun (x :: xs) s = framesRun xs (frame x s) := by simp only [framesRun, List.foldl_cons]

@[simp] theorem blockOutput_nil (s : State) : blockOutput [] s = [] := by simp only [blockOutput]

theorem blockOutput_cons {x : AudioFrame} {s : State} {y : AudioFrame} (h : (frame x s).out = some y) (xs : List AudioFrame) :
    blockOutput (x :: xs) s = y.1 :: y.2 :: blockOutput xs (frame x s) := by
  simp only [blockOutput, h, Option.map_some, Option.getD_some, frameWords, List.cons_append, List.nil_append]

@[simp] theorem framesOf_pair (x0 x1 : Word) (rest : List Word) : framesOf (x0 :: x1 :: rest) = (x0, x1) :: framesOf rest := by
  simp only [framesOf]

/-- Room for more words is room for fewer. -/
theorem streamHolds_mono {cfg : Platform} {u a b : Nat} (h : a ≤ b) (g : streamHolds cfg u b = true) :
    streamHolds cfg u a = true := by
  unfold streamHolds at *
  cases hd : cfg.depth <;> rw [hd] at g
  simp only [decide_eq_true_eq] at g ⊢
  omega

end Sys2Proof.Machine
end

