-- ==== Sys2Proof/Laws/Encode.lean ====
section
/-! SUPPORT. The fields of a control word as numbers, and what the encoder's control words hold. -/

namespace Sys2Proof

theorem opField_toNat (cw : Word) : (opField cw).toNat = cw.toNat / 2 ^ 24 := by
  unfold opField
  simp [BitVec.extractLsb'_toNat, Nat.shiftRight_eq_div_pow]
  omega

theorem bandField_val (cw : Word) : (bandField cw).val = cw.toNat / 2 ^ 20 % 16 := by
  have h : (bandField cw).val = (cw.extractLsb' 20 4).toNat := rfl
  rw [h, BitVec.extractLsb'_toNat, Nat.shiftRight_eq_div_pow]

theorem immField_lt (cw : Word) : immField cw < 65536 := (cw.extractLsb' 0 16).isLt

/-- A control word is the sum of its four fields, each at its place. -/
theorem cw_toNat (cw : Word) : cw.toNat =
    (opField cw).toNat * 2 ^ 24 + (bandField cw).val * 2 ^ 20 + (cw.extractLsb' 16 4).toNat * 2 ^ 16 + immField cw := by
  rw [opField_toNat, bandField_val]
  simp [immField, BitVec.extractLsb'_toNat, Nat.shiftRight_eq_div_pow]
  have := cw.isLt
  omega

theorem controlWord_toNat (op : BitVec 8) (b : Band) {n : Nat} (h : n < 65536) :
    (controlWord op b n).toNat = op.toNat * 2 ^ 24 + b.val * 2 ^ 20 + n := by
  have ho := op.isLt
  have hb := band_lt b
  have e : controlWord op b n = BitVec.ofNat 32 (op.toNat * 2 ^ 24 + b.val * 2 ^ 20 + n) := by
    apply BitVec.eq_of_toNat_eq
    simp only [controlWord, BitVec.toNat_or, BitVec.toNat_shiftLeft, BitVec.toNat_setWidth, BitVec.toNat_ofNat]
    rw [Nat.mod_eq_of_lt (a := op.toNat) (by omega), Nat.mod_eq_of_lt (a := b.val) (by omega),
      Nat.mod_eq_of_lt (a := n) (by omega), Nat.shiftLeft_eq, Nat.shiftLeft_eq, Nat.mod_eq_of_lt (by omega),
      Nat.mod_eq_of_lt (by omega)]
    have a1 := Nat.two_pow_add_eq_or_of_lt (i := 24) (b := b.val * 2 ^ 20) (by omega) op.toNat
    have a2 := Nat.two_pow_add_eq_or_of_lt (i := 20) (b := n) (by omega) (op.toNat * 2 ^ 4 + b.val)
    rw [Nat.mul_comm op.toNat, ← a1,
      show 2 ^ 24 * op.toNat + b.val * 2 ^ 20 = 2 ^ 20 * (op.toNat * 2 ^ 4 + b.val) by ring, ← a2,
      Nat.mod_eq_of_lt (by omega)]
  rw [e, BitVec.toNat_ofNat, Nat.mod_eq_of_lt (by omega)]

theorem controlWord_op (op : BitVec 8) (b : Band) {n : Nat} (h : n < 65536) : opField (controlWord op b n) = op := by
  apply BitVec.eq_of_toNat_eq
  rw [opField_toNat, controlWord_toNat op b h]
  have := band_lt b
  omega

theorem controlWord_band (op : BitVec 8) (b : Band) {n : Nat} (h : n < 65536) :
    bandField (controlWord op b n) = b := by
  apply Fin.ext
  rw [bandField_val, controlWord_toNat op b h]
  have := band_lt b
  omega

theorem controlWord_imm (op : BitVec 8) (b : Band) {n : Nat} (h : n < 65536) : immField (controlWord op b n) = n := by
  simp [immField, BitVec.extractLsb'_toNat, controlWord_toNat op b h]
  omega

/-- RSV of an encoded control word is 0. -/
theorem controlWord_rsv (op : BitVec 8) (b : Band) {n : Nat} (h : n < 65536) :
    (controlWord op b n).extractLsb' 16 4 = 0#4 := by
  apply BitVec.eq_of_toNat_eq
  simp [BitVec.extractLsb'_toNat, Nat.shiftRight_eq_div_pow, controlWord_toNat op b h]
  omega

/-- A row that is found has the opcode looked for, and stands in the table. -/
theorem rowOf_some {op : BitVec 8} {r : OpRow} (h : rowOf op = some r) : r.code = op ∧ r ∈ opTable :=
  ⟨by simpa using List.find?_some h, List.mem_of_find?_eq_some h⟩

end Sys2Proof
end

