-- ==== Sys2Proof/Laws/Float.lean ====
section
/-! SUPPORT. Facts about the binary32 primitives: what a rounded pattern is worth, exact conversions, and the order. -/

namespace Sys2Proof.Machine

/-! ### Rounding -/

theorem roundHalfEven_le {n d q : Nat} (hd : 0 < d) (h : n ≤ q * d) : roundHalfEven n d ≤ q := by
  have h1 := Nat.div_add_mod n d
  have h2 := Nat.mod_lt n hd
  unfold roundHalfEven
  dsimp only
  by_cases hq : n / d = q
  · have : n % d = 0 := by
      have : d * (n / d) = q * d := by rw [hq, Nat.mul_comm]
      omega
    rw [this, hq, if_pos (by omega)]
  · have hlt : n / d < q := by
      have : n / d ≤ q := Nat.div_le_of_le_mul (by rw [Nat.mul_comm]; exact h)
      omega
    split
    · omega
    · split
      · omega
      · omega

theorem le_roundHalfEven (n d : Nat) : n / d ≤ roundHalfEven n d := by
  unfold roundHalfEven
  dsimp only
  split
  · exact Nat.le_refl _
  · split <;> omega

theorem roundHalfEven_mul {d : Nat} (hd : 0 < d) (q : Nat) : roundHalfEven (q * d) d = q := by
  unfold roundHalfEven
  simp [Nat.mul_div_cancel _ hd, hd]

/-- The exponent step of roundMag. -/
def roundShift (n d : Nat) : Nat := Nat.log2 (n / d) - 23

/-- The significand that roundMag computes never needs more than 24 bits and a carry. -/
theorem roundHalfEven_shift_le (n d : Nat) (hd : 0 < d) : roundHalfEven n (d * 2 ^ roundShift n d) ≤ 2 ^ 24 := by
  apply roundHalfEven_le (Nat.mul_pos hd (Nat.two_pow_pos _))
  have h1 : n / d < 2 ^ (Nat.log2 (n / d) + 1) := Nat.lt_log2_self
  have h2 : n < d * 2 ^ (Nat.log2 (n / d) + 1) := by
    have := Nat.lt_mul_of_div_lt h1 hd
    rwa [Nat.mul_comm] at this
  have h3 : 2 ^ (Nat.log2 (n / d) + 1) ≤ 2 ^ 24 * 2 ^ roundShift n d := by
    rw [← Nat.pow_add]
    exact Nat.pow_le_pow_right (by decide) (by simp only [roundShift]; omega)
  calc n ≤ d * 2 ^ (Nat.log2 (n / d) + 1) := Nat.le_of_lt h2
    _ ≤ d * (2 ^ 24 * 2 ^ roundShift n d) := Nat.mul_le_mul_left _ h3
    _ = 2 ^ 24 * (d * 2 ^ roundShift n d) := by ring

/-- Above the subnormal range the significand has its full 24 bits. -/
theorem le_roundHalfEven_shift (n d : Nat) (hs : 0 < roundShift n d) :
    2 ^ 23 ≤ roundHalfEven n (d * 2 ^ roundShift n d) := by
  refine Nat.le_trans ?_ (le_roundHalfEven _ _)
  rw [← Nat.div_div_eq_div_mul]
  have h0 : n / d ≠ 0 := by
    intro h
    simp [roundShift, h] at hs
  have h1 : 2 ^ Nat.log2 (n / d) ≤ n / d := Nat.log2_self_le h0
  rw [Nat.le_div_iff_mul_le (Nat.two_pow_pos _), ← Nat.pow_add]
  have : 23 + roundShift n d = Nat.log2 (n / d) := by simp only [roundShift] at *; omega
  rw [this]
  exact h1

theorem magBits_ofNat {m : Nat} (h : m < 2 ^ 31) : magBits (BitVec.ofNat 32 m) = m := by
  simp only [magBits, BitVec.toNat_ofNat]
  omega

/-- What a rounded pattern is worth, if it did not overflow. -/
theorem magOf_roundMag (n d : Nat) (hd : 0 < d) (h : roundMag n d < 0x7F800000) :
    magOf (BitVec.ofNat 32 (roundMag n d)) =
      roundHalfEven n (d * 2 ^ roundShift n d) * 2 ^ roundShift n d := by
  have hq := roundHalfEven_shift_le n d hd
  have hr : roundMag n d = roundShift n d * 2 ^ 23 + roundHalfEven n (d * 2 ^ roundShift n d) := by
    have e : roundMag n d = min 0x7F800000 (roundShift n d * 2 ^ 23 + roundHalfEven n (d * 2 ^ roundShift n d)) := rfl
    omega
  have hm := magBits_ofNat (m := roundMag n d) (by omega)
  unfold magOf expOf fracOf
  rw [hm, hr]
  generalize hs : roundShift n d = s at hq ⊢
  generalize hg : roundHalfEven n (d * 2 ^ s) = q at hq ⊢
  by_cases h0 : s = 0
  · subst h0
    simp only [Nat.zero_mul, Nat.zero_add, Nat.pow_zero, Nat.mul_one]
    by_cases h1 : q < 2 ^ 23
    · rw [if_pos (by omega), Nat.mod_eq_of_lt h1]
    · by_cases h2 : q < 2 ^ 24
      · have e1 : q / 2 ^ 23 = 1 := by omega
        rw [e1, if_neg (by decide), Nat.sub_self, Nat.pow_zero, Nat.mul_one]
        omega
      · have e : q = 2 ^ 24 := by omega
        subst e
        decide
  · have hlow : 2 ^ 23 ≤ q := by
      have := le_roundHalfEven_shift n d (by omega)
      rw [hs, hg] at this
      exact this
    by_cases h2 : q < 2 ^ 24
    · have e1 : (s * 2 ^ 23 + q) / 2 ^ 23 = s + 1 := by omega
      have e2 : (s * 2 ^ 23 + q) % 2 ^ 23 = q - 2 ^ 23 := by omega
      have e3 : 2 ^ 23 + (q - 2 ^ 23) = q := by omega
      rw [e1, e2, e3, if_neg (by omega), Nat.add_sub_cancel]
    · have e : q = 2 ^ 24 := by omega
      subst e
      have e1 : (s * 2 ^ 23 + 2 ^ 24) / 2 ^ 23 = s + 2 := by omega
      have e2 : (s * 2 ^ 23 + 2 ^ 24) % 2 ^ 23 = 0 := by omega
      rw [e1, e2, if_neg (by omega), Nat.add_zero, show s + 2 - 1 = 1 + s by omega, Nat.pow_add]
      ring

/-- A magnitude of at most 2^k smallest subnormals rounds to a pattern of at most that power of two. -/
theorem roundMag_le_pow {n d k : Nat} (hd : 0 < d) (hk : 23 ≤ k) (h : n ≤ 2 ^ k * d) :
    roundMag n d ≤ (k - 22) * 2 ^ 23 := by
  have hq := roundHalfEven_shift_le n d hd
  have hdiv : n / d ≤ 2 ^ k := Nat.div_le_of_le_mul (by rw [Nat.mul_comm]; exact h)
  have hlog : Nat.log2 (n / d) ≤ k := by
    by_contra hc
    have h0 : n / d ≠ 0 := by
      intro e
      simp [e] at hc
    have h1 : 2 ^ Nat.log2 (n / d) ≤ n / d := Nat.log2_self_le h0
    have h2 : 2 ^ (k + 1) ≤ 2 ^ Nat.log2 (n / d) := Nat.pow_le_pow_right (by decide) (by omega)
    have h3 : (2 : Nat) ^ (k + 1) = 2 * 2 ^ k := by rw [Nat.pow_succ]; ring
    have h4 : 0 < 2 ^ k := Nat.two_pow_pos k
    omega
  have hr : roundMag n d ≤ roundShift n d * 2 ^ 23 + roundHalfEven n (d * 2 ^ roundShift n d) := by
    exact Nat.min_le_right _ _
  by_cases hl : Nat.log2 (n / d) = k
  · have hs : roundShift n d = k - 23 := by simp only [roundShift]; omega
    have : roundHalfEven n (d * 2 ^ roundShift n d) ≤ 2 ^ 23 := by
      apply roundHalfEven_le (Nat.mul_pos hd (Nat.two_pow_pos _))
      rw [hs]
      have e : (2 : Nat) ^ 23 * (d * 2 ^ (k - 23)) = 2 ^ k * d := by
        have : (2 : Nat) ^ k = 2 ^ 23 * 2 ^ (k - 23) := by rw [← Nat.pow_add]; congr 1; omega
        rw [this]; ring
      rw [e]
      exact h
    generalize roundHalfEven n (d * 2 ^ roundShift n d) = q at hr this
    generalize roundShift n d = s at hr hs
    generalize roundMag n d = r at hr ⊢
    clear h hq hdiv
    have : (k - 22) * 2 ^ 23 = (k - 23) * 2 ^ 23 + 2 ^ 23 := by
      rw [show k - 22 = k - 23 + 1 by omega, Nat.succ_mul]
    rw [hs] at hr
    rw [this]
    exact Nat.le_trans hr (Nat.add_le_add_left (by assumption) _)
  · have hs : roundShift n d ≤ k - 24 := by simp only [roundShift]; omega
    by_cases hk2 : k = 23
    · have : roundShift n d = 0 := by omega
      have h5 : roundHalfEven n (d * 2 ^ roundShift n d) ≤ 2 ^ 23 := by
        apply roundHalfEven_le (Nat.mul_pos hd (Nat.two_pow_pos _))
        rw [this, Nat.pow_zero, Nat.mul_one, ← hk2]
        exact h
      rw [this, Nat.zero_mul, Nat.zero_add, ← this] at hr
      rw [hk2]
      exact Nat.le_trans hr h5
    · have e : (k - 22) * 2 ^ 23 = (k - 24) * 2 ^ 23 + 2 ^ 24 := by
        rw [show k - 22 = k - 24 + 2 by omega, Nat.add_mul, show 2 * 2 ^ 23 = 2 ^ 24 by decide]
      rw [e]
      exact Nat.le_trans hr (Nat.add_le_add (Nat.mul_le_mul_right _ hs) hq)

/-! ### Magnitudes in order -/

theorem magOf_mono {x y : F32} (h : magBits x ≤ magBits y) : magOf x ≤ magOf y := by
  unfold magOf expOf fracOf
  generalize magBits x = m at *
  generalize magBits y = n at *
  by_cases hm : m / 2 ^ 23 = 0
  · rw [if_pos hm]
    by_cases hn : n / 2 ^ 23 = 0
    · rw [if_pos hn]; omega
    · rw [if_neg hn]
      have : 1 ≤ 2 ^ (n / 2 ^ 23 - 1) := Nat.one_le_two_pow
      calc m % 2 ^ 23 ≤ (2 ^ 23 + n % 2 ^ 23) * 1 := by omega
        _ ≤ (2 ^ 23 + n % 2 ^ 23) * 2 ^ (n / 2 ^ 23 - 1) := Nat.mul_le_mul_left _ this
  · have hn : n / 2 ^ 23 ≠ 0 := by omega
    rw [if_neg hm, if_neg hn]
    by_cases he : m / 2 ^ 23 = n / 2 ^ 23
    · rw [he]
      exact Nat.mul_le_mul_right _ (by omega)
    · have hlt : m / 2 ^ 23 - 1 + 1 ≤ n / 2 ^ 23 - 1 := by omega
      calc (2 ^ 23 + m % 2 ^ 23) * 2 ^ (m / 2 ^ 23 - 1) ≤ 2 ^ 24 * 2 ^ (m / 2 ^ 23 - 1) :=
            Nat.mul_le_mul_right _ (by omega)
        _ = 2 ^ 23 * 2 ^ (m / 2 ^ 23 - 1 + 1) := by rw [Nat.pow_succ]; ring
        _ ≤ 2 ^ 23 * 2 ^ (n / 2 ^ 23 - 1) := Nat.mul_le_mul_left _ (Nat.pow_le_pow_right (by decide) hlt)
        _ ≤ (2 ^ 23 + n % 2 ^ 23) * 2 ^ (n / 2 ^ 23 - 1) := Nat.mul_le_mul_right _ (by omega)

/-! ### Conversion from an integer -/

/-- An integer below 2^24 converts exactly: sign 0, finite, its value that integer. -/
theorem u2f_exact {n : Nat} (h : n < 2 ^ 24) :
    magOf (u2f n) = n * 2 ^ 149 ∧ signOf (u2f n) = false ∧ isFinite (u2f n) = true ∧ magBits (u2f n) ≤ 151 * 2 ^ 23 := by
  have hle : roundMag (n * 2 ^ 149) 1 ≤ (173 - 22) * 2 ^ 23 :=
    roundMag_le_pow (by decide) (by decide) (by
      have : n * 2 ^ 149 ≤ 2 ^ 24 * 2 ^ 149 := Nat.mul_le_mul_right _ (by omega)
      calc n * 2 ^ 149 ≤ 2 ^ 24 * 2 ^ 149 := this
        _ = 2 ^ 173 * 1 := by decide)
  have hu : u2f n = BitVec.ofNat 32 (roundMag (n * 2 ^ 149) 1) := by simp [u2f, packSign]
  have hm := magBits_ofNat (m := roundMag (n * 2 ^ 149) 1) (by omega)
  refine ⟨?_, ?_, ?_, ?_⟩
  · rw [hu, magOf_roundMag _ _ (by decide) (by omega), Nat.one_mul]
    have hs : roundShift (n * 2 ^ 149) 1 ≤ 149 := by
      simp only [roundShift, Nat.div_one]
      by_cases h0 : n * 2 ^ 149 = 0
      · rw [h0]; decide
      · have h1 : 2 ^ Nat.log2 (n * 2 ^ 149) ≤ n * 2 ^ 149 := Nat.log2_self_le h0
        have h2 : n * 2 ^ 149 < 2 ^ 24 * 2 ^ 149 := Nat.mul_lt_mul_of_pos_right h (by decide)
        have h3 : 2 ^ Nat.log2 (n * 2 ^ 149) < 2 ^ 173 := by
          calc _ < 2 ^ 24 * 2 ^ 149 := Nat.lt_of_le_of_lt h1 h2
            _ = 2 ^ 173 := by decide
        have := (Nat.pow_lt_pow_iff_right (by decide : 1 < 2)).mp h3
        omega
    generalize roundShift (n * 2 ^ 149) 1 = s at hs
    have e : n * 2 ^ 149 = n * 2 ^ (149 - s) * 2 ^ s := by
      rw [Nat.mul_assoc, ← Nat.pow_add, Nat.sub_add_cancel hs]
    rw [e, roundHalfEven_mul (Nat.two_pow_pos s)]
  · rw [hu, signOf, BitVec.msb_eq_decide]
    simp only [BitVec.toNat_ofNat, decide_eq_false_iff_not]
    omega
  · rw [hu, isFinite, hm]
    exact decide_eq_true (by omega)
  · rw [hu, hm]
    omega

/-! ### DENORM, the order and the clamp -/

/-- FTZ reads a subnormal or a zero as the zero of its sign. -/
theorem flush_ftz (x : F32) : flush .ftz x = if magBits x < 2 ^ 23 then packSign (signOf x) 0 else x := by
  have h : (isTiny x = true) = (magBits x < 2 ^ 23) := by
    unfold isTiny expOf
    rw [decide_eq_true_eq]
    exact propext (by omega)
  simp only [flush, h]

theorem isNaN_flush (dn : Denorm) (x : F32) : isNaN (flush dn x) = isNaN x := by
  cases dn
  · rfl
  · rw [flush_ftz]
    split
    · next h =>
      have e : isNaN x = false := by simp only [isNaN, decide_eq_false_iff_not]; omega
      rw [e]
      cases signOf x <;> decide
    · rfl

/-- FTZ reads a subnormal or a zero as 0, and DENORM reads every other pattern as it is. -/
theorem orderKey_flush (dn : Denorm) (x : F32) :
    orderKey (flush dn x) = if dn = .ftz ∧ magBits x < 2 ^ 23 then 0 else orderKey x := by
  cases dn
  · simp [flush]
  · rw [flush_ftz]
    by_cases h : magBits x < 2 ^ 23
    · rw [if_pos h, if_pos ⟨rfl, h⟩]
      cases signOf x <;> decide
    · rw [if_neg h, if_neg (fun e => h e.2)]

/-- DENORM keeps the order of the values it reads. -/
theorem orderKey_flush_mono (dn : Denorm) {x y : F32} (h : orderKey x ≤ orderKey y) :
    orderKey (flush dn x) ≤ orderKey (flush dn y) := by
  rw [orderKey_flush, orderKey_flush]
  cases dn
  · simpa using h
  · simp only [true_and]
    unfold orderKey at *
    cases hx : signOf x <;> cases hy : signOf y <;> simp only [hx, hy, Bool.false_eq_true, ↓reduceIte] at h ⊢ <;> split <;> split <;> omega

/-- Everything fclamp can answer. -/
theorem fclamp_cases (dn : Denorm) (v lo hi : F32) :
    (isNaN v = true ∧ fclamp dn v lo hi = lo) ∨
    (isNaN v = false ∧ flt (flush dn v) (flush dn lo) = true ∧ fclamp dn v lo hi = lo) ∨
    (isNaN v = false ∧ flt (flush dn v) (flush dn lo) = false ∧ flt (flush dn hi) (flush dn v) = true ∧
      fclamp dn v lo hi = hi) ∨
    (isNaN v = false ∧ flt (flush dn v) (flush dn lo) = false ∧ flt (flush dn hi) (flush dn v) = false ∧
      fclamp dn v lo hi = if fle lo v && fle v hi then v else flush dn v) := by
  unfold fclamp
  cases isNaN v <;> cases flt (flush dn v) (flush dn lo) <;> cases flt (flush dn hi) (flush dn v) <;> simp

/-- Without FTZ the clamp compares and copies. -/
theorem fclamp_ieee (v lo hi : F32) :
    fclamp .ieee v lo hi = if isNaN v then lo else if flt v lo then lo else if flt hi v then hi else v := by
  simp [fclamp, flush]

end Sys2Proof.Machine
end

