-- ==== Sys2Proof/Laws/Lanes.lean ====
section
/-! SUPPORT. One lane, a channel and a band, in a channel's loop: what the loop does to a lane is the lane's own step, whatever the
other lanes hold. -/

namespace Sys2Proof.Machine

/-- s and t agree on all that the step of lane (c, b) reads. -/
structure SameLane (c : Chan) (b : Band) (s t : State) : Prop where
  cfg : s.cfg = t.cfg
  active : s.active = t.active
  sr : s.sr = t.sr
  dmax : s.dmax = t.dmax
  smooth : s.smooth = t.smooth
  filter : laneGet s.filters c b = laneGet t.filters c b
  line : laneGet s.lines c b = laneGet t.lines c b
  word : ∀ i, dRead s.mem c b i = dRead t.mem c b i

theorem SameLane.refl (c : Chan) (b : Band) (s : State) : SameLane c b s s :=
  ⟨rfl, rfl, rfl, rfl, rfl, rfl, rfl, fun _ => rfl⟩

theorem SameLane.trans {c : Chan} {b : Band} {s t u : State} (h : SameLane c b s t) (g : SameLane c b t u) : SameLane c b s u :=
  ⟨h.cfg.trans g.cfg, h.active.trans g.active, h.sr.trans g.sr, h.dmax.trans g.dmax, h.smooth.trans g.smooth,
    h.filter.trans g.filter, h.line.trans g.line, fun i => (h.word i).trans (g.word i)⟩

/-- The step of one lane leaves every other lane as it was. -/
theorem laneStep_sameLane (c : Chan) (x a : F32) (s : State) (b : Band) {c' : Chan} {b' : Band} (h : ¬(c' = c ∧ b' = b)) :
    SameLane c' b' (laneStep c x (s, a) b).1 s := by
  obtain ⟨h1, h2, h3⟩ := laneStep_other c x a s b h
  exact ⟨by simp, by simp, by simp, by simp, by simp, h1, h2, h3⟩

theorem laneStep_wf (c : Chan) (x a : F32) (s : State) (b : Band) (h : Memory.wf s.mem) :
    Memory.wf (laneStep c x (s, a) b).1.mem := by
  simp only [laneStep]
  cases hd : (param (bandFilter c b x s).1 b).dlyEn
  · rw [bandDelay_disabled _ _ _ _ hd]; simpa using h
  · rw [(bandDelay_enabled _ _ _ _ hd).2.1]; exact dWrite_wf (by simpa using h) _ _ _ _

theorem lanes_wf (c : Chan) (x : F32) (l : List Band) (s : State) (a : F32) (h : Memory.wf s.mem) :
    Memory.wf (l.foldl (laneStep c x) (s, a)).1.mem :=
  lanes_induct c x l (P := fun t => Memory.wf t.mem) (fun s a b => laneStep_wf c x a s b) s a h

/-- The delayed value of a lane depends on the lane alone. -/
theorem delayValue_congr {c : Chan} {b : Band} {s t : State} (h : SameLane c b s t) (d : F32) :
    delayValue s.cfg s.mem c b (laneGet s.lines c b).w d = delayValue t.cfg t.mem c b (laneGet t.lines c b).w d := by
  simp only [delayValue, h.cfg, h.line, h.word]

/-- The filtered and scaled sample of a lane depends on the lane alone. -/
theorem bandFilter_congr {c : Chan} {b : Band} {s t : State} (h : SameLane c b s t) (x : F32) :
    (bandFilter c b x s).2 = (bandFilter c b x t).2 := by
  have hg : bandGain s b = bandGain t b := by
    unfold bandGain
    rw [param_of_active h.active b, h.cfg, h.smooth]
  simp only [bandFilter, hg, h.cfg, h.active, h.filter]

/-- The step of a lane depends on the lane alone. -/
theorem laneStep_congr {c : Chan} {b : Band} {s t : State} (h : SameLane c b s t) (hs : Memory.wf s.mem) (ht : Memory.wf t.mem)
    (x a a' : F32) : SameLane c b (laneStep c x (s, a) b).1 (laneStep c x (t, a') b).1 := by
  have hp : param s b = param t b := param_of_active h.active b
  have hf := bandFilter_congr h x
  have hb : SameLane c b (bandFilter c b x s).1 (bandFilter c b x t).1 :=
    ⟨by simpa using h.cfg, by simpa using h.active, by simpa using h.sr, by simpa using h.dmax, by simpa using h.smooth,
      by simp only [bandFilter, laneSet_same, h.cfg, h.active, h.filter], by simpa using h.line, fun i => by simpa using h.word i⟩
  refine ⟨by simpa using h.cfg, by simpa using h.active, by simpa using h.sr, by simpa using h.dmax, by simpa using h.smooth,
    by rw [laneStep_filters, laneStep_filters, h.cfg, h.active, h.filter, if_pos ⟨rfl, rfl⟩], ?_, fun i => ?_⟩ <;> simp only [laneStep]
  all_goals
    generalize hu : (bandFilter c b x s).1 = u at hb ⊢
    generalize hv : (bandFilter c b x t).1 = v at hb ⊢
    have hq : param u b = param v b := param_of_active hb.active b
    have hw := delayValue_congr hb (bandTime v b)
    have hd : bandTime u b = bandTime v b := by simp only [bandTime, hb.cfg, hb.sr, hb.dmax, hb.smooth]
    cases he : (param v b).dlyEn
  · rw [bandDelay_disabled _ _ _ _ he, bandDelay_disabled _ _ _ _ (hq ▸ he)]
    exact hb.line
  · rw [(bandDelay_enabled _ _ _ _ he).1, (bandDelay_enabled _ _ _ _ (hq ▸ he)).1, hd, hw, hb.line, hb.cfg]
  · rw [bandDelay_disabled _ _ _ _ he, bandDelay_disabled _ _ _ _ (hq ▸ he)]
    exact hb.word i
  · rw [(bandDelay_enabled _ _ _ _ he).2.1, (bandDelay_enabled _ _ _ _ (hq ▸ he)).2.1, hd, hw, hb.line, hb.cfg, hb.smooth, hf]
    have wu : Memory.wf u.mem := by rw [← hu]; simpa using hs
    have wv : Memory.wf v.mem := by rw [← hv]; simpa using ht
    by_cases hi : i = (laneGet v.lines c b).w
    · rw [hi, dRead_dWrite_same wu, dRead_dWrite_same wv]
    · rw [dRead_dWrite_other _ _ (fun e => hi e.2.2), dRead_dWrite_other _ _ (fun e => hi e.2.2)]
      exact hb.word i

/-- In a channel's loop each of its bands takes its own step once, from what the lane held before the loop. -/
theorem lanes_lane (c : Chan) (x : F32) (l : List Band) (hl : l.Nodup) (s : State) (a a' : F32) (hw : Memory.wf s.mem) {b : Band}
    (h : b ∈ l) : SameLane c b (l.foldl (laneStep c x) (s, a)).1 (laneStep c x (s, a') b).1 := by
  induction l generalizing s a with
  | nil => exact absurd h (by simp)
  | cons b' l ih =>
    obtain ⟨hn, hl'⟩ := List.nodup_cons.mp hl
    rw [List.foldl_cons, ← Prod.mk.eta (p := laneStep c x (s, a) b')]
    have w' := laneStep_wf c x a s b' hw
    by_cases hb : b = b'
    · subst hb
      have other : ∀ (l : List Band) t a, b ∉ l → SameLane c b (l.foldl (laneStep c x) (t, a)).1 t := by
        intro l
        induction l with
        | nil => exact fun t _ _ => SameLane.refl c b t
        | cons d l ih =>
          intro t a hm
          rw [List.foldl_cons, ← Prod.mk.eta (p := laneStep c x (t, a) d)]
          exact (ih _ _ (fun e => hm (List.mem_cons_of_mem _ e))).trans
            (laneStep_sameLane c x a t d (fun e => hm (e.2 ▸ List.mem_cons_self)))
      exact (other l _ _ hn).trans (laneStep_congr (SameLane.refl c b s) hw hw x a a')
    · exact (ih hl' _ _ w' (by simpa [hb] using h)).trans
        (laneStep_congr (laneStep_sameLane c x a s b' (fun e => hb e.2)) w' hw x _ a')

/-- A channel's loop leaves the lanes of the other channel as they were. -/
theorem lanes_sameLane (c : Chan) (x : F32) (l : List Band) (s : State) (a : F32) {c' : Chan} {b : Band} (h : c' ≠ c) :
    SameLane c' b (l.foldl (laneStep c x) (s, a)).1 s :=
  lanes_induct c x l (P := fun t => SameLane c' b t s)
    (fun t a d ht => (laneStep_sameLane c x a t d (fun e => h e.1)).trans ht) s a (SameLane.refl c' b s)

/-- A band's contribution depends on its lane alone. -/
theorem contribution_congr {c : Chan} {b : Band} {s t : State} (h : SameLane c b s t) (x : F32) :
    contribution c x s b = contribution c x t b := by
  have hp : param s b = param t b := param_of_active h.active b
  simp only [contribution, bandFilter_congr h x]
  cases hd : (param t b).dlyEn <;> have hd' := hp ▸ hd
  · rw [bandDelay_disabled, bandDelay_disabled]
    · simpa [param] using hd
    · simpa [param] using hd'
  · rw [(bandDelay_enabled c b _ _ (by simpa [param] using hd')).2.2, (bandDelay_enabled c b _ _ (by simpa [param] using hd)).2.2]
    simp [delayValue, h.line, h.word, h.cfg, h.smooth, bandTime, h.sr, h.dmax]

/-- A channel leaves the DC blocker of the other as it was. -/
theorem channelFrame_dc_other (x : F32) (s : State) {c c' : Chan} (h : c' ≠ c) : (channelFrame c x s).1.dc[c'] = s.dc[c'] := by
  have : c.val ≠ c'.val := fun e => h (Fin.ext e.symm)
  simp [channelFrame, dcBlock, this]

end Sys2Proof.Machine
end

