-- ==== Sys2Proof/Laws/PerInstr.lean ====
section
/-! SUPPORT. One statement about every command as syntax, with a lemma for each constructor: what its encoded control word
holds. -/

namespace Sys2Proof.Laws.EncodedWord

/-- The control word of a well-formed command holds the opcode of its row, which the table assigns, and RSV = 0. -/
def Statement (i : Instr) : Prop :=
  i.wellFormed = true →
    opField (encode i).1 = i.opcode ∧ (encode i).1.extractLsb' 16 4 = 0#4 ∧ (rowOf i.opcode).isSome = true

/-- The three parts for one control word. -/
theorem of_fields (op : BitVec 8) (b : Band) {n : Nat} (h : n < 65536) (hr : (rowOf op).isSome = true) :
    opField (controlWord op b n) = op ∧ (controlWord op b n).extractLsb' 16 4 = 0#4 ∧ (rowOf op).isSome = true :=
  ⟨controlWord_op op b h, controlWord_rsv op b h, hr⟩

theorem nop : Statement .nop := fun _ => of_fields _ 0 (n := 0) (by decide) rfl
theorem init (fs : F32) : Statement (.init fs) := fun _ => of_fields _ 0 (n := 0) (by decide) rfl
theorem block (n : Nat) : Statement (.block n) := fun h => of_fields _ 0 (of_decide_eq_true h) rfl
theorem getStatus : Statement .getStatus := fun _ => of_fields _ 0 (n := 0) (by decide) rfl
theorem clrStatus : Statement .clrStatus := fun _ => of_fields _ 0 (n := 0) (by decide) rfl
theorem getSr : Statement .getSr := fun _ => of_fields _ 0 (n := 0) (by decide) rfl
theorem setGain (b : Band) (x : F32) : Statement (.setGain b x) := fun _ => of_fields _ b (n := 0) (by decide) rfl
theorem setPol (b : Band) (imm : Nat) : Statement (.setPol b imm) := fun h => of_fields _ b (of_decide_eq_true h) rfl
theorem setLfoRate (b : Band) (x : F32) : Statement (.setLfoRate b x) := fun _ => of_fields _ b (n := 0) (by decide) rfl
theorem setLfoDepth (b : Band) (x : F32) : Statement (.setLfoDepth b x) := fun _ => of_fields _ b (n := 0) (by decide) rfl
theorem setLfoOfs (b : Band) (x : F32) : Statement (.setLfoOfs b x) := fun _ => of_fields _ b (n := 0) (by decide) rfl
theorem setLfoEn (b : Band) (imm : Nat) : Statement (.setLfoEn b imm) := fun h => of_fields _ b (of_decide_eq_true h) rfl
theorem setDlyTime (b : Band) (x : F32) : Statement (.setDlyTime b x) := fun _ => of_fields _ b (n := 0) (by decide) rfl
theorem setDlyFb (b : Band) (x : F32) : Statement (.setDlyFb b x) := fun _ => of_fields _ b (n := 0) (by decide) rfl
theorem setDlyMix (b : Band) (x : F32) : Statement (.setDlyMix b x) := fun _ => of_fields _ b (n := 0) (by decide) rfl
theorem setDlyEn (b : Band) (imm : Nat) : Statement (.setDlyEn b imm) := fun h => of_fields _ b (of_decide_eq_true h) rfl
theorem getGain (b : Band) : Statement (.getGain b) := fun _ => of_fields _ b (n := 0) (by decide) rfl
theorem getPol (b : Band) : Statement (.getPol b) := fun _ => of_fields _ b (n := 0) (by decide) rfl
theorem getLfoRate (b : Band) : Statement (.getLfoRate b) := fun _ => of_fields _ b (n := 0) (by decide) rfl
theorem getLfoDepth (b : Band) : Statement (.getLfoDepth b) := fun _ => of_fields _ b (n := 0) (by decide) rfl
theorem getLfoOfs (b : Band) : Statement (.getLfoOfs b) := fun _ => of_fields _ b (n := 0) (by decide) rfl
theorem getLfoEn (b : Band) : Statement (.getLfoEn b) := fun _ => of_fields _ b (n := 0) (by decide) rfl
theorem getDlyTime (b : Band) : Statement (.getDlyTime b) := fun _ => of_fields _ b (n := 0) (by decide) rfl
theorem getDlyFb (b : Band) : Statement (.getDlyFb b) := fun _ => of_fields _ b (n := 0) (by decide) rfl
theorem getDlyMix (b : Band) : Statement (.getDlyMix b) := fun _ => of_fields _ b (n := 0) (by decide) rfl
theorem getDlyEn (b : Band) : Statement (.getDlyEn b) := fun _ => of_fields _ b (n := 0) (by decide) rfl
theorem setDesign (imm : Nat) : Statement (.setDesign imm) := fun h => of_fields _ 0 (of_decide_eq_true h) rfl
theorem setOrder (imm : Nat) : Statement (.setOrder imm) := fun h => of_fields _ 0 (of_decide_eq_true h) rfl
theorem setRoute (imm : Nat) : Statement (.setRoute imm) := fun h => of_fields _ 0 (of_decide_eq_true h) rfl
theorem setWave (imm : Nat) : Statement (.setWave imm) := fun h => of_fields _ 0 (of_decide_eq_true h) rfl
theorem getDesign : Statement .getDesign := fun _ => of_fields _ 0 (n := 0) (by decide) rfl
theorem getOrder : Statement .getOrder := fun _ => of_fields _ 0 (n := 0) (by decide) rfl
theorem getRoute : Statement .getRoute := fun _ => of_fields _ 0 (n := 0) (by decide) rfl
theorem getWave : Statement .getWave := fun _ => of_fields _ 0 (n := 0) (by decide) rfl

end Sys2Proof.Laws.EncodedWord
end

