-- ==== Sys2Proof/Machine/Assembler.lean ====
section
/-! DEFINITION. The assembler of 30 R153 and R154: text to command pairs. An operand that is missing, left over, malformed or
out of range makes the line an error, here `none`. What R153 leaves open of the text (white space, hexadecimal digits
of either case, a signed decimal literal, lines of two words for `.cmd`) is the model's choice (log 21). -/

namespace Sys2Proof.Machine

/-! ### Pieces of a line -/

/-- White space within a line. -/
def isBlank (c : Char) : Bool := c = ' ' || c = '\t' || c = '\r'

/-- The text without white space at its ends. -/
def trim (cs : List Char) : List Char := ((cs.dropWhile isBlank).reverse.dropWhile isBlank).reverse

/-- The text before the comment. -/
def uncomment (cs : List Char) : List Char := cs.takeWhile (fun c => c != ';')

/-- The pieces between the occurrences of a character. -/
def splitAtChar (sep : Char) : List Char → List (List Char)
  | [] => [[]]
  | c :: cs =>
    if c = sep then [] :: splitAtChar sep cs
    else match splitAtChar sep cs with
      | [] => [[c]]
      | p :: ps => (c :: p) :: ps

/-- The operands of a line: none for a blank text, else the trimmed pieces between the commas. -/
def operandsOf (cs : List Char) : List (List Char) :=
  if (trim cs).isEmpty then [] else (splitAtChar ',' cs).map trim

/-! ### Numbers -/

/-- The value of a digit below 16. -/
def digitValue (c : Char) : Option Nat :=
  if '0' ≤ c ∧ c ≤ '9' then some (c.toNat - '0'.toNat)
  else if 'a' ≤ c ∧ c ≤ 'f' then some (c.toNat - 'a'.toNat + 10)
  else if 'A' ≤ c ∧ c ≤ 'F' then some (c.toNat - 'A'.toNat + 10)
  else none

/-- The digits of a base read after the value acc. -/
def digitsFrom (base : Nat) : Nat → List Char → Option Nat
  | acc, [] => some acc
  | acc, c :: cs =>
    match digitValue c with
    | some d => if d < base then digitsFrom base (base * acc + d) cs else none
    | none => none

/-- At least one digit of a base. -/
def readDigits (base : Nat) (cs : List Char) : Option Nat := if cs.isEmpty then none else digitsFrom base 0 cs

/-- `<int>`: decimal, or hexadecimal after 0x. -/
def readInt (cs : List Char) : Option Nat :=
  match cs with
  | '0' :: 'x' :: hs => readDigits 16 hs
  | _ => readDigits 10 cs

/-- An integer below a bound. -/
def readBelow (bound : Nat) (cs : List Char) : Option Nat :=
  match readInt cs with
  | some n => if n < bound then some n else none
  | none => none

/-- `<band>`: a decimal integer 0..15. -/
def readBand (cs : List Char) : Option Band :=
  match readDigits 10 cs with
  | some n => if h : n < 16 then some ⟨n, h⟩ else none
  | none => none

/-- An unsigned decimal literal: digits, then a point and digits if there is a fraction. The magnitude nearest it, ties to even;
none when that is infinite. -/
def readMagnitude (cs : List Char) : Option Nat :=
  let whole := cs.takeWhile (fun c => c != '.')
  let frac := (cs.dropWhile (fun c => c != '.')).drop 1
  let point := cs.any (fun c => c == '.')
  if whole.isEmpty || (point && frac.isEmpty) then none
  else match readDigits 10 (whole ++ frac) with
    | none => none
    | some n =>
      let m := roundMag (n * 2 ^ 149) (10 ^ frac.length)
      if m < 0x7F800000 then some m else none

/-- `<float>`: a decimal literal with an optional minus sign, or `f32:0x` and eight hexadecimal digits. -/
def readFloat (cs : List Char) : Option F32 :=
  match cs with
  | 'f' :: '3' :: '2' :: ':' :: '0' :: 'x' :: hs =>
    if hs.length = 8 then (readDigits 16 hs).map (BitVec.ofNat 32) else none
  | '-' :: ds => (readMagnitude ds).map (packSign true)
  | _ => (readMagnitude cs).map (packSign false)

/-! ### Commands -/

/-- The operand forms of R153. -/
inductive LineForm where
  | plain (i : Instr)
  | float (mk : F32 → Instr)
  | int (mk : Nat → Instr)
  | band (mk : Band → Instr)
  | bandFloat (f : BandField) (mk : Band → F32 → Instr)
  | bandInt (f : BandField) (mk : Band → Nat → Instr)

/-- The mnemonics of 30 R143 with their operand forms. -/
def mnemonics : List (String × LineForm) :=
  [ ("NOP", .plain .nop), ("INIT", .float .init), ("BLOCK", .int .block), ("GET_STATUS", .plain .getStatus),
    ("CLR_STATUS", .plain .clrStatus), ("GET_SR", .plain .getSr),
    ("SET_GAIN", .bandFloat .gain .setGain), ("SET_POL", .bandInt .pol .setPol),
    ("SET_LFO_RATE", .bandFloat .lfoRate .setLfoRate), ("SET_LFO_DEPTH", .bandFloat .lfoDepth .setLfoDepth),
    ("SET_LFO_OFS", .bandFloat .lfoOfs .setLfoOfs), ("SET_LFO_EN", .bandInt .lfoEn .setLfoEn),
    ("SET_DLY_TIME", .bandFloat .dlyTime .setDlyTime), ("SET_DLY_FB", .bandFloat .dlyFb .setDlyFb),
    ("SET_DLY_MIX", .bandFloat .dlyMix .setDlyMix), ("SET_DLY_EN", .bandInt .dlyEn .setDlyEn) ] ++
  [ ("GET_GAIN", .band .getGain), ("GET_POL", .band .getPol), ("GET_LFO_RATE", .band .getLfoRate),
    ("GET_LFO_DEPTH", .band .getLfoDepth), ("GET_LFO_OFS", .band .getLfoOfs), ("GET_LFO_EN", .band .getLfoEn),
    ("GET_DLY_TIME", .band .getDlyTime), ("GET_DLY_FB", .band .getDlyFb), ("GET_DLY_MIX", .band .getDlyMix),
    ("GET_DLY_EN", .band .getDlyEn),
    ("SET_DESIGN", .int .setDesign), ("SET_ORDER", .int .setOrder), ("SET_ROUTE", .int .setRoute),
    ("SET_WAVE", .int .setWave), ("GET_DESIGN", .plain .getDesign), ("GET_ORDER", .plain .getOrder),
    ("GET_ROUTE", .plain .getRoute), ("GET_WAVE", .plain .getWave) ]

/-- The form of a mnemonic. -/
def formOf (name : List Char) : Option LineForm := (mnemonics.find? (fun r => r.1.toList == name)).map Prod.snd

/-- The command of a form and its operands. -/
def commandOf (f : LineForm) (ops : List (List Char)) : Option Instr :=
  match f, ops with
  | .plain i, [] => some i
  | .float mk, [x] => (readFloat x).map mk
  | .int mk, [x] => (readBelow 65536 x).map mk
  | .band mk, [b] => (readBand b).map mk
  | .bandFloat _ mk, [b, x] => (readBand b).bind fun b => (readFloat x).map (mk b)
  | .bandInt _ mk, [b, x] => (readBand b).bind fun b => (readBelow 65536 x).map (mk b)
  | _, _ => none

/-- `SETALL <setter>, <operand>`: the setter is any BF or BI mnemonic. -/
def setAllLine (ops : List (List Char)) : Option (List Instr) :=
  match ops with
  | [m, x] =>
    match formOf m with
    | some (.bandFloat f _) => (readFloat x).bind (setAll f)
    | some (.bandInt f _) => (readBelow 65536 x).bind fun n => setAll f (BitVec.ofNat 32 n)
    | _ => none
  | _ => none

/-- The operand of entry k of LOAD_STATE: a float for a float setter, an integer for the others. -/
def readEntry (mk : Word → Instr) (x : List Char) : Option Word :=
  match mk 0#32 with
  | .setPol _ _ | .setLfoEn _ _ | .setDlyEn _ _ | .setDesign _ | .setOrder _ | .setRoute _ | .setWave _ =>
    (readBelow 65536 x).map (BitVec.ofNat 32)
  | _ => readFloat x

/-- All the answers, if every one is there. -/
def allSome {α : Type} : List (Option α) → Option (List α)
  | [] => some []
  | none :: _ => none
  | some a :: rest => (allSome rest).map (fun as => a :: as)

/-- `LOAD_STATE v0, ..., v163`. -/
def loadStateLine (ops : List (List Char)) : Option (List Instr) :=
  if ops.length = recordSetters.length then (allSome (List.zipWith readEntry recordSetters ops)).bind loadState else none

/-- `.cmd <cw>, <data>`: one raw command pair, whether it decodes or not. -/
def rawLine (ops : List (List Char)) : Option (List (Word × Word)) :=
  match ops with
  | [c, d] => (readBelow (2 ^ 32) c).bind fun c => (readBelow (2 ^ 32) d).map fun d => [(BitVec.ofNat 32 c, BitVec.ofNat 32 d)]
  | _ => none

/-- The command pairs of one line; none for a blank line or a comment alone. -/
def assembleLine (line : List Char) : Option (List (Word × Word)) :=
  let text := trim (uncomment line)
  let name := text.takeWhile (fun c => !isBlank c)
  let ops := operandsOf (text.dropWhile (fun c => !isBlank c))
  if name = [] then some []
  else if name = ".cmd".toList then rawLine ops
  else if name = "SETALL".toList then (setAllLine ops).map (fun is => is.map encode)
  else if name = "BYPASS_DELAYS".toList then (if ops = [] then bypassDelays.map (fun is => is.map encode) else none)
  else if name = "SAVE_STATE".toList then (if ops = [] then some (saveState.map encode) else none)
  else if name = "LOAD_STATE".toList then (loadStateLine ops).map (fun is => is.map encode)
  else ((formOf name).bind fun f => commandOf f ops).map (fun i => [encode i])

/-- The command pairs of a program text, line after line; none if a line is in error. -/
def assemble (text : List Char) : Option (List (Word × Word)) :=
  (allSome ((splitAtChar '\n' text).map assembleLine)).map List.flatten

end Sys2Proof.Machine
end

