-- ==== Sys2Proof/Tests/Slice0.lean ====
section
/-! SUPPORT. Tests of one step or one operation each, with expected results from 95_test_vectors.md (the vector is named) or from
the rule named, and a witness for the hypotheses of every obligation that has any. -/

namespace Sys2Proof.Tests

set_option Elab.async false

open Sys2Proof Sys2Proof.Machine

/-! ### WellFormed refuses an ill-formed term of each check (30 R145, R153: an immediate is in 0..65535) -/

theorem test_ill_formed_block : Instr.wellFormed (.block 65536) = false := by decide
theorem test_ill_formed_setPol : Instr.wellFormed (.setPol 0 65536) = false := by decide
theorem test_ill_formed_setLfoEn : Instr.wellFormed (.setLfoEn 0 65536) = false := by decide
theorem test_ill_formed_setDlyEn : Instr.wellFormed (.setDlyEn 0 65536) = false := by decide
theorem test_ill_formed_setDesign : Instr.wellFormed (.setDesign 65536) = false := by decide
theorem test_ill_formed_setOrder : Instr.wellFormed (.setOrder 65536) = false := by decide
theorem test_ill_formed_setRoute : Instr.wellFormed (.setRoute 65536) = false := by decide
theorem test_ill_formed_setWave : Instr.wellFormed (.setWave 65536) = false := by decide
theorem test_well_formed_limit : Instr.wellFormed (.block 65535) = true := by decide

/-! ### Every command's word, as 95 V-EN-1 and V-EN-2 write it out -/

theorem test_decode_nop : decode 0x00000000#32 0xDEADBEEF#32 = .ok (.nop) := by decide
theorem test_decode_init : decode 0x01000000#32 0x473B8000#32 = .ok (.init 0x473B8000#32) := by decide
theorem test_decode_block : decode 0x02000040#32 0#32 = .ok (.block 64) := by decide
theorem test_decode_getStatus : decode 0x03000000#32 0#32 = .ok (.getStatus) := by decide
theorem test_decode_clrStatus : decode 0x04000000#32 0#32 = .ok (.clrStatus) := by decide
theorem test_decode_getSr : decode 0x05000000#32 0#32 = .ok (.getSr) := by decide
theorem test_decode_setGain : decode 0x10300000#32 0x3F666666#32 = .ok (.setGain 3 0x3F666666#32) := by decide
theorem test_decode_setPol : decode 0x11F0FFFF#32 0#32 = .ok (.setPol 15 65535) := by decide
theorem test_decode_setLfoRate : decode 0x12000000#32 0x3F000000#32 = .ok (.setLfoRate 0 0x3F000000#32) := by decide
theorem test_decode_setLfoDepth : decode 0x13500000#32 0x3E800000#32 = .ok (.setLfoDepth 5 0x3E800000#32) := by decide
theorem test_decode_setLfoOfs : decode 0x14100000#32 0xBF000000#32 = .ok (.setLfoOfs 1 0xBF000000#32) := by decide
theorem test_decode_setLfoEn : decode 0x15700001#32 0#32 = .ok (.setLfoEn 7 1) := by decide
theorem test_decode_setDlyTime : decode 0x16400000#32 0x3F000000#32 = .ok (.setDlyTime 4 0x3F000000#32) := by decide
theorem test_decode_setDlyFb : decode 0x17400000#32 0x3F000000#32 = .ok (.setDlyFb 4 0x3F000000#32) := by decide
theorem test_decode_setDlyMix : decode 0x18400000#32 0x3F000000#32 = .ok (.setDlyMix 4 0x3F000000#32) := by decide
theorem test_decode_setDlyEn : decode 0x19400001#32 0#32 = .ok (.setDlyEn 4 1) := by decide
theorem test_decode_getGain : decode 0x20F00000#32 0#32 = .ok (.getGain 15) := by decide
theorem test_decode_getPol : decode 0x21F00000#32 0#32 = .ok (.getPol 15) := by decide
theorem test_decode_getLfoRate : decode 0x22F00000#32 0#32 = .ok (.getLfoRate 15) := by decide
theorem test_decode_getLfoDepth : decode 0x23F00000#32 0#32 = .ok (.getLfoDepth 15) := by decide
theorem test_decode_getLfoOfs : decode 0x24F00000#32 0#32 = .ok (.getLfoOfs 15) := by decide
theorem test_decode_getLfoEn : decode 0x25F00000#32 0#32 = .ok (.getLfoEn 15) := by decide
theorem test_decode_getDlyTime : decode 0x26F00000#32 0#32 = .ok (.getDlyTime 15) := by decide
theorem test_decode_getDlyFb : decode 0x27F00000#32 0#32 = .ok (.getDlyFb 15) := by decide
theorem test_decode_getDlyMix : decode 0x28F00000#32 0#32 = .ok (.getDlyMix 15) := by decide
theorem test_decode_getDlyEn : decode 0x29F00000#32 0#32 = .ok (.getDlyEn 15) := by decide
theorem test_decode_setDesign : decode 0x30000001#32 0#32 = .ok (.setDesign 1) := by decide
theorem test_decode_setOrder : decode 0x31000006#32 0#32 = .ok (.setOrder 6) := by decide
theorem test_decode_setRoute : decode 0x32000001#32 0#32 = .ok (.setRoute 1) := by decide
theorem test_decode_setWave : decode 0x33000001#32 0#32 = .ok (.setWave 1) := by decide
theorem test_decode_getDesign : decode 0x38000000#32 0#32 = .ok (.getDesign) := by decide
theorem test_decode_getOrder : decode 0x39000000#32 0#32 = .ok (.getOrder) := by decide
theorem test_decode_getRoute : decode 0x3A000000#32 0#32 = .ok (.getRoute) := by decide
theorem test_decode_getWave : decode 0x3B000000#32 0#32 = .ok (.getWave) := by decide

/-! ### Decode errors (95 V-EN-2) -/

theorem test_illegal_op : [0x06000000#32, 0x0F000000#32, 0x1A000000#32, 0x2A000000#32, 0x34000000#32, 0x3C000000#32, 0x40000000#32, 0xF0000000#32, 0xFF000000#32].map
    (fun cw => decode cw 0#32) = List.replicate 9 (.error .illegalOp) := by decide
theorem test_rsv_field : [0x10310000#32, 0x10300001#32, 0x02100040#32, 0x02010000#32, 0x00000001#32, 0x03800000#32,
    0x21000001#32, 0x38000001#32, 0x15F10001#32, 0x31100006#32, 0x01000001#32].map (fun cw => decode cw 0#32) =
    List.replicate 11 (.error .rsvField) := by decide

/-! ### The host's interface -/

theorem test_table_word_gi : decodeTableWord 32 0x31000006 = some (.setOrder 6) := by decide
theorem test_table_word_bf : decodeTableWord 64 0x3F66666610300000 = some (.setGain 3 0x3F666666#32) := by decide
theorem test_fetch_word_runs : (match step (State.reset.withFetchWord 32 0x31000006) with
    | .next t => some (t.staging.order, t.cmd)
    | _ => none) = some (.o6, []) := by decide

/-- Half a pair stands on CMD until the host sends the other word (20 R104, R109). -/
theorem test_half_pair_waits : (match step { State.reset with cmd := [0x31000006#32], host := [.sendCmd 0#32] } with
    | .next t => some (t.staging.order, t.cmd)
    | _ => none) = some (.o2, [0x31000006#32, 0#32]) := by decide

/-! ### Small states -/

/-- A field of the next state. -/
def got {α : Type} (f : State → α) (r : Result) : Option α :=
  match r with
  | .next s => some (f s)
  | .fault _ => none
  | .refused _ => none

/-- An idle machine as INIT 48000.0 leaves it, but for the smoother coefficients. -/
def ready : State :=
  { State.reset with
    sr := 0x473B8000#32
    dmax := 96000
    status := { State.reset.status with initDone := true }
    lines := Vector.replicate 2 (Vector.replicate 16 { w := 0, fb := posZero, known := true }) }

/-- A machine that has one frame left and one input frame. -/
def busyState : State :=
  { ready with mode := .running, left := 1, key := wantedKey ready, ain := [one, posZero] }

/-- A machine that is waiting to push its last frame. -/
def pushing : State := { busyState with out := some (one, posZero), ain := [] }

/-- A machine with two errors recorded (95 V-SC-3, fourth row). -/
def erred : State := raiseError .illegalOp 0x06#8 (raiseError .rsvField 0x30#8 ready)

/-- A machine whose RESP is full. -/
def respFullState : State := { ready with cfg := { ready.cfg with depth := some 1 }, resp := [0#32] }

/-- Ten different values in the staged fields of band 15. -/
def stagedState : State :=
  stageBand 15 (fun _ => { gain := 0x3F000001#32, pol := true, lfoRate := 0x3F000002#32, lfoDepth := 0x3F000003#32
                           lfoOfs := 0x3F000004#32, lfoEn := true, dlyTime := 0x3F000005#32, dlyFb := 0x3F000006#32
                           dlyMix := 0x3F000007#32, dlyEn := true })
    (stageGlobal (fun g => { g with design := .d2, order := .o6, route := .odd, wave := .noise }) ready)

/-- A machine with band 4 delayed. -/
def delayed : State :=
  { busyState with active := { busyState.active with
      band := busyState.active.band.set 4 { BandParams.reset with dlyEn := true } } }

/-! ### System commands -/

theorem test_nop : got (fun s => (statusWord s, s.cmd)) (exec .nop { ready with cmd := [0#32, 0#32] }) = some (1#32, []) := by
  decide
theorem test_init_48000 : got (fun s => (s.sr, s.dmax, statusWord s)) (exec (.init 0x473B8000#32) State.reset) =
    some (0x473B8000#32, 96000, 1#32) := by decide +kernel   -- V-SC-1
theorem test_init_44100_half : got (fun s => s.dmax) (exec (.init 0x472C4480#32) State.reset) = some 88201 := by
  decide +kernel   -- V-SC-1
theorem test_init_7999 : got (fun s => (s.sr, statusWord s)) (exec (.init 0x45F9F800#32) State.reset) =
    some (0#32, 0x134#32) := by decide   -- V-SC-1
theorem test_init_nan : got statusWord (exec (.init 0x7FC00000#32) State.reset) = some 0x134#32 := by decide   -- V-SC-1
theorem test_block_before_init : got statusWord (exec (.block 0) State.reset) = some 0x244#32 := by decide   -- V-SC-2
theorem test_block_4097 : got statusWord (exec (.block 4097) ready) = some 0x255#32 := by decide   -- V-SC-2
theorem test_get_status : got (fun s => s.resp) (exec .getStatus erred) = some [0x302D#32] := by decide   -- V-SC-3
theorem test_clr_status : got statusWord (exec .clrStatus erred) = some 1#32 := by decide   -- V-SC-3
theorem test_get_sr : got (fun s => s.resp) (exec .getSr ready) = some [0x473B8000#32] := by decide   -- V-SC-3
theorem test_get_holds : got (fun s => s.resp) (exec .getSr respFullState) = some [0#32] := by decide   -- 20 R112

/-! ### Setters (95 V-PC-1, V-PC-2) -/

theorem test_set_gain : got (fun s => s.staging.band[0].gain) (exec (.setGain 0 0x40A00000#32) State.reset) =
    some 0x40000000#32 := by decide
theorem test_set_gain_subnormal : got (fun s => s.staging.band[3].gain) (exec (.setGain 3 1#32) State.reset) =
    some 1#32 := by decide
theorem test_set_gain_ftz : got (fun s => s.staging.band[3].gain) (exec (.setGain 3 0x80000001#32)
    { State.reset with cfg := { State.reset.cfg with denorm := .ftz } }) = some 0x80000000#32 := by decide   -- 00 R18
theorem test_set_lfo_rate : got (fun s => s.staging.band[5].lfoRate) (exec (.setLfoRate 5 0x80000000#32) State.reset) =
    some 0x80000000#32 := by decide
theorem test_set_lfo_depth : got (fun s => s.staging.band[5].lfoDepth) (exec (.setLfoDepth 5 0x7F800000#32) State.reset) =
    some 0x3F800000#32 := by decide
theorem test_set_lfo_ofs : got (fun s => s.staging.band[1].lfoOfs) (exec (.setLfoOfs 1 0x7FC00000#32) State.reset) =
    some 0xBF800000#32 := by decide
theorem test_set_dly_time : got (fun s => s.staging.band[2].dlyTime) (exec (.setDlyTime 2 0x40200000#32) State.reset) =
    some 0x40000000#32 := by decide
theorem test_set_dly_fb : got (fun s => s.staging.band[3].dlyFb) (exec (.setDlyFb 3 0x3F800000#32) State.reset) =
    some 0x3F7D70A4#32 := by decide
theorem test_set_dly_mix : got (fun s => s.staging.band[3].dlyMix) (exec (.setDlyMix 3 0xBF800000#32) State.reset) =
    some 0#32 := by decide
theorem test_set_pol : got (fun s => s.staging.band[4].pol) (exec (.setPol 4 65535) State.reset) = some true := by decide
theorem test_set_lfo_en : got (fun s => s.staging.band[4].lfoEn) (exec (.setLfoEn 4 2) State.reset) = some true := by decide
theorem test_set_dly_en : got (fun s => s.staging.band[15].dlyEn) (exec (.setDlyEn 15 0) stagedState) = some false := by decide
theorem test_set_design : [0, 1, 2, 3, 65535].map (fun n => got (fun s => designWord s.staging.design) (exec (.setDesign n) ready)) =
    [some 0#32, some 1#32, some 2#32, some 2#32, some 2#32] := by decide
theorem test_set_order : [0, 3, 4, 7, 8, 10, 65535].map (fun n => got (fun s => orderWord s.staging.order) (exec (.setOrder n) ready)) =
    [some 2#32, some 2#32, some 4#32, some 6#32, some 8#32, some 8#32, some 8#32] := by decide
theorem test_set_route : [0, 1, 2, 9].map (fun n => got (fun s => routeWord s.staging.route) (exec (.setRoute n) ready)) =
    [some 0#32, some 1#32, some 2#32, some 2#32] := by decide
theorem test_set_wave : [0, 1, 2].map (fun n => got (fun s => waveWord s.staging.wave) (exec (.setWave n) ready)) =
    [some 0#32, some 1#32, some 1#32] := by decide
theorem test_staging_isolation : got (fun s => (s.staging.band[0].gain, s.active.band[0].gain))
    (exec (.setGain 0 0x3F000000#32) ready) = some (0x3F000000#32, 0x3F800000#32) := by decide   -- V-PC-4

/-! ### Getters (46 R462 to R471, R476 to R479) -/

theorem test_get_gain : got (fun s => s.resp) (exec (.getGain 15) stagedState) = some [0x3F000001#32] := by decide
theorem test_get_pol : got (fun s => s.resp) (exec (.getPol 15) stagedState) = some [1#32] := by decide
theorem test_get_lfo_rate : got (fun s => s.resp) (exec (.getLfoRate 15) stagedState) = some [0x3F000002#32] := by decide
theorem test_get_lfo_depth : got (fun s => s.resp) (exec (.getLfoDepth 15) stagedState) = some [0x3F000003#32] := by decide
theorem test_get_lfo_ofs : got (fun s => s.resp) (exec (.getLfoOfs 15) stagedState) = some [0x3F000004#32] := by decide
theorem test_get_lfo_en : got (fun s => s.resp) (exec (.getLfoEn 15) stagedState) = some [1#32] := by decide
theorem test_get_dly_time : got (fun s => s.resp) (exec (.getDlyTime 15) stagedState) = some [0x3F000005#32] := by decide
theorem test_get_dly_fb : got (fun s => s.resp) (exec (.getDlyFb 15) stagedState) = some [0x3F000006#32] := by decide
theorem test_get_dly_mix : got (fun s => s.resp) (exec (.getDlyMix 15) stagedState) = some [0x3F000007#32] := by decide
theorem test_get_dly_en : got (fun s => s.resp) (exec (.getDlyEn 14) stagedState) = some [0#32] := by decide
theorem test_get_design : got (fun s => s.resp) (exec .getDesign stagedState) = some [2#32] := by decide
theorem test_get_order : got (fun s => s.resp) (exec .getOrder stagedState) = some [6#32] := by decide
theorem test_get_route : got (fun s => s.resp) (exec .getRoute stagedState) = some [1#32] := by decide
theorem test_get_wave : got (fun s => s.resp) (exec .getWave stagedState) = some [1#32] := by decide

/-! ### The datapath -/

theorem test_subtract_is_signed_zero : fsub .ieee 0x80000000#32 0x00000000#32 = 0x80000000#32 := by decide   -- 00 R17
theorem test_flush_is_after_rounding : fmul .ftz 0x00800000#32 0x3F7FFFFF#32 = 0x00800000#32 ∧
    fmul .ieee 0x00800000#32 0x3F7FFFFE#32 = 0x007FFFFF#32 := by decide   -- 00 R17, R18
theorem test_biquad_lp : biquadCoef .reference .lp 0x42C80000#32 0x473B8000#32 0x3F3504F3#32 =
    ⟨0x38320538#32, 0x38B20538#32, 0x38320538#32, 0xBFFDA16A#32, 0x3F7B4DF5#32⟩ := by decide +kernel   -- V-FB-1
theorem test_biquad_hp : biquadCoef .reference .hp 0x45610000#32 0x45FA0000#32 0x3F3504F3#32 =
    ⟨0x3CA485DF#32, 0xBD2485DF#32, 0x3CA485DF#32, 0x3FC7CF71#32, 0x3F242F9D#32⟩ := by decide +kernel   -- V-FB-1
theorem test_sections_stable : ([Literals.default.fsMin, Literals.default.fsMax].flatMap fun fs => [0, 7, 15].flatMap fun b => secs.map fun k =>
    stableCoef (biquadCoef .reference (bandType b) (effFreq Platform.default fs b) fs (designQ Literals.default .d0 .o8 k))) =
    List.replicate 24 true := by decide +kernel   -- 40 R210 at both ends of the legal rates
theorem test_smallest_margin : (let q := biquadCoef .reference .lp 0x42C80000#32 0x483B8000#32 0x3F3504F3#32
    (q.a1, q.a2, stableCoef q)) = (0xBFFF685A#32, 0x3F7ED166#32, true) := by decide +kernel   -- V-FB-4
theorem test_section_unstable : stableCoef ⟨one, one, one, 0xC0000000#32, one⟩ = false ∧
    stableCoef ⟨one, one, one, 0xC0000000#32, 0x3F7FFFFF#32⟩ = false := by decide   -- 40 R210: |a2| < 1, |a1| < 1 + a2
theorem test_freq_clamp : effFreq Platform.default 0x45FA0000#32 13 = 0x45610000#32 := by decide   -- V-FB-1
theorem test_design_q : designQ Literals.default .d0 .o8 3 = 0x402406CF#32 := by decide   -- V-FB-0
theorem test_section : (sectionProcess .ieee ⟨⟨one, 0x40000000#32, 0x40400000#32, one, 0#32⟩, one, 0x40000000#32⟩ one).2 =
    0x40000000#32 := by decide   -- 40 R208: y = b0·v + s1
theorem test_section_taps : (sectionProcess .ieee ⟨⟨one, 0x40000000#32, 0x40400000#32, one, 0#32⟩, one, 0x40000000#32⟩ one).1.s1 =
    0x40000000#32 := by decide   -- 40 R208: s1 = (b1·v - a1·y) + s2
theorem test_xs32 : xs32 0x9E3779B9#32 = 0x510C4619#32 ∧ noisePoint .ieee 0x510C4619#32 = 0x3F22188C#32 := by decide   -- 41 R247
theorem test_noise_seed : noiseSeed 15 = 0xE3779B90#32 := by decide   -- 41 R248
theorem test_delay_time : delaySetTime .ieee 0x473B8000#32 96000 0x3A83126F#32 = 0x42400001#32 := by decide +kernel   -- V-DL-1
theorem test_delay_time_floor : delaySetTime .ieee 0x473B8000#32 96000 0x3727C5AC#32 = one := by decide +kernel   -- V-DL-1
theorem test_delay_read : (delayRead 0 4 0x40100000#32 (delayWrite 0 4 0x40000000#32 (delayWrite 0 4 one ready))).2 =
    0x3F400000#32 := by decide +kernel   -- 42 R283: di = 2, fr = 0.25, s0 = 1, s1 = 0
theorem test_cursor_wrap : behind 524288 0 1 = 524287 ∧ behind 524288 1 4 = 524285 := by decide   -- V-DL-4
theorem test_smooth_coef : [Literals.default.fcGain, Literals.default.fcLfo, Literals.default.fcSlow].map (fun f => smoothCoef .reference f 0x473B8000#32) =
    [0x3A2B8447#32, 0x39093FD2#32, 0x375B9CA0#32] := by decide +kernel   -- V-SM-1
theorem test_lfo_inc_period : (let cfg := { Platform.default with lits := { Literals.default with lfoTMin := one, lfoTMax := one } }
    [0x00000000#32, one].map fun r => lfoInc cfg r 0x473B8000#32) = [89478#32, 89478#32] := by decide +kernel   -- 41 R242: 2^32/48000 is 89478.485
theorem test_subnormal_rate_ftz : (lfoSetRates { ready with
    cfg := { ready.cfg with denorm := .ftz, unit := .platform 0 }
    active := { ready.active with band := ready.active.band.set 0 { BandParams.reset with lfoRate := 0x00000001#32 } } }).lfo[(0 : Band)].inc =
    Config.lfoInc (.platform 0) 0x3DCCCCCD#32 0x42C80000#32 0x00000000#32 ready.sr := rfl   -- 46 R451
theorem test_order_range : (let l := { Literals.default with orderMin := .o4, orderMax := .o6 }
    [0, 3, 5, 6, 65535].map (clampOrder l)) = [.o4, .o4, .o4, .o6, .o6] := by decide   -- 46 R473, 00 R7
theorem test_smooth_step : smoothStep .ieee one 0x3A2B8447#32 0xBF800000#32 = 0x3F7FAA3E#32 := by decide   -- V-SM-4
theorem test_equal_power : fsqrt .ieee 0x3E99999A#32 = 0x3F0C378C#32 ∧ fsqrt .ieee (fsub .ieee one 0x3E99999A#32) =
    0x3F562F5A#32 := by decide +kernel   -- V-MX-5
theorem test_dc_step : dcValue Platform.default ⟨one, 0x3F7D7247#32⟩ one = 0x3F7C2DDE#32 := by decide   -- V-MX-2
theorem test_frame_impulse : (frame (one, posZero) (blockStart 4 (initEffect 0x473B8000#32 State.reset))).out =
    some (0x400C6A70#32, 0#32) := by decide +kernel   -- V-PR-2, frame 0
theorem test_frame_odd : (frame (one, one) (blockStart 4
    (stageGlobal (fun g => { g with design := .d1, order := .o4, route := .odd })
      (initEffect 0x473B8000#32 State.reset)))).out = some (0x3E96DC69#32, 0x3E96DC69#32) := by decide +kernel   -- V-PR-5, frame 0
theorem test_push_last : got (fun s => (s.mode, s.left, s.aout)) (engineMove pushing) = some (.idle, 0, [one, posZero]) := by
  decide   -- 44 R382, R383
theorem test_fault_is_named : engineMove { delayed with lines := State.reset.lines } = .fault .unspecifiedDelayWord := by
  rfl   -- 10 R80

/-! ### The assembler (30 R153, R154; 95 V-EN-1) -/

theorem test_assemble_set_gain : assemble "SET_GAIN 3, 0.9".toList = some [(0x10300000#32, 0x3F666666#32)] := by decide +kernel
theorem test_assemble_raw : assemble ".cmd 0x30010000, 0".toList = some [(0x30010000#32, 0#32)] := by decide +kernel
theorem test_assemble_setall : (assemble "SETALL SET_POL, 1".toList).map (fun l => (l.length, l.getLast?)) =
    some (16, some (0x11F00001#32, 0#32)) := by decide +kernel
theorem test_assemble_range : assemble "BLOCK 65536".toList = none := by decide +kernel

/-! ### Witnesses: concrete states and operands that meet the hypotheses of each obligation, clause by clause -/

theorem witness_DecodeOfEncode : Instr.wellFormed (.setPol 15 65535) = true ∧ Instr.wellFormed (.block 0) = true := by decide

theorem witness_DecodedPairsReencode : decode 0x11F0FFFF#32 0xDEADBEEF#32 = .ok (.setPol 15 65535) ∧
    decode 0x10300000#32 0x3F666666#32 = .ok (.setGain 3 0x3F666666#32) := by decide

theorem witness_EveryPairIsClassified :
    ([0x06, 0x0F, 0x1A, 0x1F, 0x2A, 0x2F, 0x34, 0x37, 0x3C, 0xFF].all fun op => decide (illegalOpcode op)) = true ∧
    ([0x00, 0x05, 0x10, 0x19, 0x20, 0x29, 0x30, 0x33, 0x38, 0x3B].all fun op => decide (¬illegalOpcode op)) = true ∧
    (0x10310000#32).extractLsb' 16 4 ≠ 0#4 := by decide

theorem witness_DataIsFloatOperandOrIgnored : ¬usesData ((0x20F00000#32 : Word).toNat / 2 ^ 24) ∧
    ¬usesData 0x00 ∧ ¬usesData 0x19 := by decide

/-- A decoder with one command on CMD, alone and contested. -/
def oneCommand : State := { State.reset with cmd := [0x31000006#32, 0#32] }

theorem witness_StepRunsDecodedCommand :
    decode 0x31000006#32 0#32 = .ok (.setOrder 6) ∧ holds (.setOrder 6) oneCommand = false ∧
    engineReady oneCommand = false ∧ hostReady oneCommand = false ∧
    engineReady { busyState with cmd := oneCommand.cmd, sched := [.decoder] } = true := by decide

theorem witness_CommandsHoldOrComplete :
    holds (.block 1) busyState = true ∧ holds .getSr respFullState = true ∧ holds (.init one) ready = false := by decide

theorem witness_ErrorsAreRecorded :
    decode 0x06000000#32 0#32 = .error .illegalOp ∧ decode 0x10310000#32 0#32 = .error .rsvField ∧
    ready.status.err = false ∧ erred.status.err = true := by decide

theorem witness_InitRejectsBadRates : ready.mode = .idle ∧ legalRate Literals.default 0x45F9FFFF#32 = false ∧
    legalRate Literals.default 0x483B8001#32 = false ∧ legalRate Literals.default 0x7FC00000#32 = false := by decide

theorem witness_InitReinitialisesDatapath : erred.mode = .idle ∧ legalRate Literals.default 0x45FA0000#32 = true ∧
    legalRate Literals.default 0x483B8000#32 = true := by decide

theorem witness_BlockChecksComeInOrder : State.reset.mode = .idle ∧ State.reset.status.initDone = false ∧
    ready.status.initDone = true ∧ 4096 < 4097 := by decide

theorem witness_BlockStartEffect : ready.mode = .idle ∧ ready.status.initDone = true ∧
    ready.staging.band[0].dlyEn = false ∧ stagedState.staging.band[15].dlyEn = true ∧ stagedState.mode = .idle := by decide

theorem witness_BlockStartFilters : ready.mode = .idle ∧ ready.status.initDone = true ∧ ready.key ≠ wantedKey ready ∧
    { ready with key := wantedKey ready }.key = wantedKey ready ∧
    (let t := { ready with key := { valid := true, design := .d0, order := .o6, fs := ready.sr } }
     t.key ≠ wantedKey t ∧ t.key.valid = true ∧ activeSections t.staging.order ≤ 1 ∧ 2 < activeSections t.key.order) := by
  decide

theorem witness_GetStatusAnswersTheRegister : respFull erred = false := by decide

theorem witness_GettersAnswerStaging : respFull stagedState = false := by decide

theorem witness_GetterAnswersSetter :
    exec (BandField.gain.setter 3 0x40A00000#32) ready =
      .next (stageBand 3 (fun p => { p with gain := clampGain Platform.default 0x40A00000#32 }) (retire ready)) ∧
    respFull (stageBand 3 (fun p => { p with gain := clampGain Platform.default 0x40A00000#32 }) (retire ready)) = false := ⟨rfl, by decide⟩

theorem witness_ClampStaysInDomain : isNaN posZero = false ∧ isNaN Literals.default.gainMax = false ∧ fle posZero Literals.default.gainMax = true ∧
    flush .ftz posZero = posZero ∧ flush .ftz Literals.default.gainMax = Literals.default.gainMax ∧
    inDomain 0x80000000#32 posZero Literals.default.gainMax ∧ isNaN 0xFFFFFFFF#32 = true ∧
    flt (flush .ieee 0x80000001#32) posZero = true ∧ flt (flush .ftz 0x80800000#32) posZero = true ∧
    flt Literals.default.gainMax (flush .ftz 0x40000001#32) = true ∧ ¬inDomain 0x80000001#32 posZero Literals.default.gainMax ∧
    inDomain (flush .ftz 0x80000001#32) posZero Literals.default.gainMax := by decide

theorem witness_SerialisationRoundTrip : State.reset.staging.legal busyState.cfg.lits ∧ streamHolds busyState.cfg 1 (0 + 164) = true ∧
    streamHolds { busyState.cfg with depth := some 164 } 1 (0 + 164) = true := by decide

theorem witness_LfoAdvanceDrawsOnWrap :
    (0xFFFFFFFE#32).toNat + (1#32).toNat < 2 ^ 32 ∧ 2 ^ 32 ≤ (0xFFFFFFFF#32).toNat + (1#32).toNat := by decide

theorem witness_DesignFrequenciesStayBelowNyquist : legalRate Literals.default Literals.default.fsMin = true ∧ legalRate Literals.default Literals.default.fsMax = true := by decide

theorem witness_DelayTimeIsClamped : 1 ≤ 1 ∧ 1 < 2 ^ 24 ∧ 1 ≤ 2 ^ 24 - 1 := by decide

theorem witness_ChannelsDoNotMix : Memory.wf ready.mem ∧ Memory.wf [(3, 0x3F#8), (4, 0x01#8)] := by decide

theorem witness_DelayReadAvoidsCursor : 524286 + 2 ≤ ready.cfg.lits.dlen ∧ 524286 < 2 ^ 24 ∧
    inDomain one one (u2f 524286) ∧ inDomain (u2f 524286) one (u2f 524286) ∧ (laneGet ready.lines 0 4).w < ready.cfg.lits.dlen := by
  decide +kernel

theorem witness_ClearedLineReadsZero : 96000 + 2 ≤ ready.cfg.lits.dlen ∧ 96000 < 2 ^ 24 ∧ inDomain 0x3F800001#32 one (u2f 96000) := by decide +kernel

theorem witness_DelayWriteStoresAtCursor : Memory.wf [(3, 0x3F#8), (4, 0x01#8)] ∧
    (0 : Chan) ≠ 1 := by decide

theorem witness_DelayClearIsPrivate : ¬((1 : Chan) = 0 ∧ (4 : Band) = 4) ∧ ¬inLine 524288 0 4 (wordAddr 0 5 0) := by decide

/-- Sections to which an order of 2 and an order of 8 give filters. -/
theorem witness_FrameAdvancesEveryBand : (0 : Sec).val < 1 ∧ 1 ≤ (1 : Sec).val ∧ (3 : Sec).val < 4 := by decide

theorem witness_FrameTouchesEnabledLines : Memory.wf delayed.mem ∧ delayed.active.band[4].dlyEn = true ∧ delayed.active.band[3].dlyEn = false := by
  decide

/-- A machine at the reset parameters with the smoother coefficients of 48000.0 Hz (95 V-SM-1). -/
def tuned : State := { busyState with coefs := { gain := 0x3A2B8447#32, lfo := 0x39093FD2#32, slow := 0x375B9CA0#32 } }

theorem witness_ResetParametersMoveNoSmoother :
    tuned.active.band = Vector.replicate 16 BandParams.reset ∧ tuned.smooth = Vector.replicate 16 Smoothers.reset ∧
    isFinite tuned.coefs.gain = true ∧ isFinite tuned.coefs.lfo = true ∧ isFinite tuned.coefs.slow = true ∧
    (∀ b : Band, isFinite (lfoValue tuned.cfg tuned.active.wave tuned.active.band[b].lfoOfs tuned.lfo[b]) = true) := by
  decide +kernel

theorem witness_EngineMoves : busyState.mode = .running ∧ 1 ≤ busyState.left ∧ busyState.out = none ∧
    busyState.ain = [one, posZero] ∧ framesReadable busyState = true ∧
    pushing.out = some (one, posZero) ∧ aoutFull pushing = false ∧
    { pushing with out := none, ain := [one] }.ain.length < 2 ∧
    aoutFull { pushing with cfg := respFullState.cfg, aout := [one] } = true := by decide

theorem witness_BlockRunsToItsEnd : busyState.mode = .running ∧ busyState.out = none ∧ busyState.left = 1 ∧
    2 * 1 ≤ busyState.ain.length ∧ streamHolds busyState.cfg 2 (busyState.aout.length + 2 * 1) = true ∧
    framesReadable busyState = true ∧ (framesOf (busyState.ain.take (2 * 1)))[0]? = some (one, posZero) := by decide

theorem witness_CommandsLeaveTheEngine : Instr.reachesEngine .clrStatus = false ∧ Instr.reachesEngine (.setGain 0 one) = false ∧
    ∃ t, exec .clrStatus erred = .next t := ⟨rfl, rfl, _, rfl⟩

theorem witness_EngineLeavesTheCommands : engineMove pushing = .next (outPush (one, posZero) pushing) := rfl

theorem witness_CommandsAndEngineCommute : Instr.reachesEngine .clrStatus = false ∧ Instr.readsBusy .clrStatus = false ∧
    exec .clrStatus pushing = .next { retire pushing with status := pushing.status.cleared } ∧
    engineMove pushing = .next (outPush (one, posZero) pushing) := ⟨rfl, rfl, rfl, rfl⟩

/-! A running machine has each of the properties that every step keeps, and it can step. -/

theorem witness_step : step pushing = .next (outPush (one, posZero) pushing) := rfl
theorem witness_MemoryStaysCanonical : MemoryCanonical { pushing with mem := [(3, 0x3F#8)] } := by decide +kernel
theorem witness_ParametersStayLegal : ParamsLegal pushing := by decide
theorem witness_NoiseNeverDies : NoiseAlive pushing := by decide
theorem witness_SequencingStaysSound : Sequenced pushing ∧ Sequenced ready := by decide
theorem witness_InitialisationStaysSound : InitSound pushing ∧ InitSound State.reset := by decide +kernel
theorem witness_InactiveSectionsStayQuiet : FiltersSound pushing := by decide
theorem witness_ChannelCoefficientsStayEqual : ChannelsAgree pushing ∧ InitSound pushing ∧ SectionsStable pushing :=
  ⟨by decide, witness_InitialisationStaysSound.1, fun _ _ => by decide +kernel⟩
theorem witness_StatusStaysSound : StatusSound pushing ∧ StatusSound erred := by decide
theorem witness_DisabledLinesStaySilent : DisabledSilent pushing := by
  intro _ b _ c
  refine ⟨?_, ?_, fun i _ => ?_⟩
  · revert b c; decide
  · revert b c; decide
  · show dRead [] c b i = posZero
    simp only [dRead, readByte]
    decide

theorem witness_RunsAreSafe : StateSound pushing :=
  ⟨by decide, witness_ParametersStayLegal, witness_NoiseNeverDies, witness_SequencingStaysSound.1,
    witness_InitialisationStaysSound.1, witness_InactiveSectionsStayQuiet, witness_ChannelCoefficientsStayEqual.1,
    witness_ChannelCoefficientsStayEqual.2.2,
    witness_StatusStaysSound.1, witness_DisabledLinesStaySilent⟩

/-- The same state with another value in a field that reset leaves unspecified. -/
theorem witness_UnspecifiedResetValuesAreUnobservable :
    Sequenced State.reset ∧ InitSound State.reset ∧ FiltersSound State.reset ∧
    AgreeUpToUnspecified State.reset { State.reset with dmax := 7 } := by
  refine ⟨by decide, by decide, by decide, rfl, rfl, fun _ => rfl, fun h => ?_, fun _ _ _ => ⟨rfl, rfl, fun _ _ => rfl⟩⟩
  exact absurd h (by decide)

/-- A host with each kind of transfer first, and streams with and without something in them. -/
theorem witness_HostTransfersAreFifo :
    { ready with host := [.sendCmd 0#32] }.host = .sendCmd 0#32 :: [] ∧
    { ready with host := [.sendSample one] }.host = .sendSample one :: [] ∧
    hostReady { ready with host := [.takeResp], resp := [7#32] } = true ∧
    hostReady { ready with host := [.takeSample], aout := [one, posZero] } = true ∧
    hostReady { ready with host := [.takeResp] } = false ∧
    hostReady { ready with host := [.takeSample] } = false := by decide

end Sys2Proof.Tests
end

section
/-! SUPPORT. What the decoder answers, by the fields of CW: the mask test of 30 R144 as a statement about RSV, BAND and IMM,
the opcode map read by opcode number, and from them the claims of 30 R142 and R148. -/

namespace Sys2Proof

open Machine

/-! ### The classes of 30 R143 by the fields they use -/

/-- The class takes a band from CW[23:20]. -/
def FieldClass.hasBand : FieldClass → Bool
  | .bf | .bi | .bg => true
  | .s0 | .sd | .si | .gi => false

/-- The class takes an immediate from CW[15:0]. -/
def FieldClass.hasImm : FieldClass → Bool
  | .si | .bi | .gi => true
  | .s0 | .sd | .bf | .bg => false

/-- Every field of CW that the class does not use is zero. -/
def FieldClass.UnusedZero (c : FieldClass) (cw : Word) : Prop :=
  cw.extractLsb' 16 4 = 0#4 ∧ (c.hasBand = false → cw.extractLsb' 20 4 = 0#4) ∧
    (c.hasImm = false → cw.extractLsb' 0 16 = 0#16)

/-! ### The mask test by fields -/

/-- Two words are equal when their four fields are. -/
theorem word_eq_iff_fields (x y : Word) : x = y ↔
    opField x = opField y ∧ x.extractLsb' 20 4 = y.extractLsb' 20 4 ∧
      x.extractLsb' 16 4 = y.extractLsb' 16 4 ∧ x.extractLsb' 0 16 = y.extractLsb' 0 16 := by
  refine ⟨fun h => by simp [h], fun ⟨hop, hband, hrsv, himm⟩ => BitVec.eq_of_toNat_eq ?_⟩
  rw [cw_toNat x, cw_toNat y]
  simp only [bandField, immField, hop, hband, hrsv, himm]

@[simp] theorem opField_and (x y : Word) : opField (x &&& y) = opField x &&& opField y :=
  BitVec.extractLsb'_and

theorem matchWord_eq_controlWord (op : BitVec 8) : matchWord op = controlWord op 0 0 := by
  simp [matchWord, controlWord]

@[simp] theorem opField_matchWord (op : BitVec 8) : opField (matchWord op) = op :=
  matchWord_eq_controlWord op ▸ controlWord_op op 0 (by decide)

theorem extractLsb'_band_eq (cw : Word) : cw.extractLsb' 20 4 = BitVec.ofNat 4 (bandField cw).val :=
  ((BitVec.ofNat_toNat 4 _).trans (BitVec.setWidth_eq _)).symm

theorem extractLsb'_imm_eq (cw : Word) : cw.extractLsb' 0 16 = BitVec.ofNat 16 (immField cw) :=
  ((BitVec.ofNat_toNat 16 _).trans (BitVec.setWidth_eq _)).symm

theorem matchWord_band (op : BitVec 8) : (matchWord op).extractLsb' 20 4 = 0#4 := by
  rw [extractLsb'_band_eq, matchWord_eq_controlWord, controlWord_band op 0 (by decide)]
  rfl

theorem matchWord_rsv (op : BitVec 8) : (matchWord op).extractLsb' 16 4 = 0#4 :=
  matchWord_eq_controlWord op ▸ controlWord_rsv op 0 (by decide)

theorem matchWord_imm (op : BitVec 8) : (matchWord op).extractLsb' 0 16 = 0#16 := by
  rw [extractLsb'_imm_eq, matchWord_eq_controlWord, controlWord_imm op 0 (by decide)]

/-- The mask keeps OP and RSV, and keeps BAND and IMM exactly where the class does not use them. -/
theorem mask_fields (c : FieldClass) :
    opField c.mask = BitVec.allOnes 8 ∧ c.mask.extractLsb' 16 4 = BitVec.allOnes 4 ∧
      c.mask.extractLsb' 20 4 = (if c.hasBand then 0#4 else BitVec.allOnes 4) ∧
      c.mask.extractLsb' 0 16 = (if c.hasImm then 0#16 else BitVec.allOnes 16) := by
  cases c <;> decide

/-- A field whose mask bits are set only where it is unused must be zero only there. -/
theorem and_unusedMask_eq_zero_iff {w : Nat} (used : Bool) (x : BitVec w) :
    x &&& (if used then 0#w else BitVec.allOnes w) = 0#w ↔ (used = false → x = 0#w) := by
  cases used <;> simp

/-- The mask test of 30 R144 says that the unused fields are zero (30 R148). -/
theorem masked_eq_matchWord_iff (c : FieldClass) (cw : Word) :
    cw &&& c.mask = matchWord (opField cw) ↔ c.UnusedZero cw := by
  obtain ⟨hop, hrsv, hband, himm⟩ := mask_fields c
  rw [word_eq_iff_fields, opField_and, BitVec.extractLsb'_and, BitVec.extractLsb'_and, BitVec.extractLsb'_and,
    hop, hrsv, hband, himm, opField_matchWord, matchWord_rsv, matchWord_band, matchWord_imm]
  simp only [FieldClass.UnusedZero, and_unusedMask_eq_zero_iff, BitVec.and_allOnes, true_and]
  exact and_left_comm

/-! ### The three answers of the decoder (30 R147) -/

theorem decode_of_rowOf_none {cw : Word} (h : rowOf (opField cw) = none) (data : Word) :
    decode cw data = .error .illegalOp := by
  simp [decode, h]

theorem decode_of_unusedZero {cw : Word} {r : OpRow} (h : rowOf (opField cw) = some r) (hz : r.cls.UnusedZero cw)
    (data : Word) : decode cw data = .ok (r.instr (bandField cw) (immField cw) data) := by
  have hmask := (masked_eq_matchWord_iff r.cls cw).mpr hz
  simp [decode, h, (rowOf_some h).1, hmask]

theorem decode_of_not_unusedZero {cw : Word} {r : OpRow} (h : rowOf (opField cw) = some r)
    (hz : ¬r.cls.UnusedZero cw) (data : Word) : decode cw data = .error .rsvField := by
  have hmask := mt (masked_eq_matchWord_iff r.cls cw).mp hz
  simp [decode, h, (rowOf_some h).1, hmask]

/-! ### The opcode map by opcode number -/

theorem rowOf_eq_none_iff (op : BitVec 8) : rowOf op = none ↔ illegalOpcode op.toNat := by
  have habsent : rowOf op = none ↔ ∀ r ∈ opTable, r.code.toNat ≠ op.toNat := by
    simp [rowOf, BitVec.toNat_inj]
  rw [habsent]
  simp only [opTable, List.forall_mem_cons, List.not_mem_nil, false_implies, implies_true, and_true, BitVec.toNat_ofNat]
  omega

/-- The row's class uses BAND and IMM where 30 R143 gives its opcode one. -/
theorem class_of_opcode : ∀ r ∈ opTable,
    (r.cls.hasBand = true ↔ usesBand r.code.toNat) ∧ (r.cls.hasImm = true ↔ usesImm r.code.toNat) := by
  decide

/-- A row whose opcode has no float operand makes the same command of every DATA (30 R142): row by row, the opcode is one of
R142's or the row's command does not mention DATA. -/
theorem instr_ignores_data : ∀ r ∈ opTable, ¬usesData r.code.toNat →
    ∀ b n d d', r.instr b n d = r.instr b n d' := by
  simp only [opTable, List.forall_mem_cons, BitVec.toNat_ofNat]
  simp

/-- The condition of RSV_FIELD in 30 R148, by the row's class and by the opcode. -/
theorem unusedZero_iff_of_rowOf {cw : Word} {r : OpRow} (h : rowOf (opField cw) = some r) :
    r.cls.UnusedZero cw ↔
      ¬(cw.extractLsb' 16 4 ≠ 0#4 ∨ (¬usesBand (cw.toNat / 2 ^ 24) ∧ cw.extractLsb' 20 4 ≠ 0#4) ∨
        (¬usesImm (cw.toNat / 2 ^ 24) ∧ cw.extractLsb' 0 16 ≠ 0#16)) := by
  obtain ⟨hcode, hmem⟩ := rowOf_some h
  obtain ⟨hband, himm⟩ := class_of_opcode r hmem
  rw [hcode, opField_toNat] at hband himm
  rw [FieldClass.UnusedZero, ← hband, ← himm]
  simp only [ne_eq, not_or, not_not, not_and_not_right, Bool.not_eq_true]

/-- Settles O3, by the mask test as a statement about the unused fields. -/
theorem everyPairIsClassified : Obligations.EveryPairIsClassified := by
  intro cw data
  have hnone : rowOf (opField cw) = none ↔ illegalOpcode (cw.toNat / 2 ^ 24) := by
    rw [rowOf_eq_none_iff, opField_toNat]
  have hrow (hlegal : ¬illegalOpcode (cw.toNat / 2 ^ 24)) : ∃ r, rowOf (opField cw) = some r :=
    Option.ne_none_iff_exists'.mp (mt hnone.mp hlegal)
  refine ⟨fun hill => decode_of_rowOf_none (hnone.mpr hill) data, fun hlegal hunused => ?_, fun hlegal hunused => ?_⟩
  · obtain ⟨r, hr⟩ := hrow hlegal
    exact decode_of_not_unusedZero hr (fun hz => (unusedZero_iff_of_rowOf hr).mp hz hunused) data
  · obtain ⟨r, hr⟩ := hrow hlegal
    exact ⟨_, decode_of_unusedZero hr ((unusedZero_iff_of_rowOf hr).mpr hunused) data⟩

/-! ### DATA (30 R142) -/

theorem decode_ignores_data {cw : Word} (h : ¬usesData (cw.toNat / 2 ^ 24)) (d d' : Word) :
    decode cw d = decode cw d' := by
  cases hr : rowOf (opField cw) with
  | none => rw [decode_of_rowOf_none hr, decode_of_rowOf_none hr]
  | some r =>
    obtain ⟨hcode, hmem⟩ := rowOf_some hr
    by_cases hz : r.cls.UnusedZero cw
    · have hdata : ¬usesData r.code.toNat := by rwa [hcode, opField_toNat]
      rw [decode_of_unusedZero hr hz, decode_of_unusedZero hr hz, instr_ignores_data r hmem hdata]
    · rw [decode_of_not_unusedZero hr hz, decode_of_not_unusedZero hr hz]

/-- A control word whose unused operands are zero decodes to the command of its row. -/
theorem decode_controlWord {op : BitVec 8} {r : OpRow} (hr : rowOf op = some r) (b : Band) {n : Nat} (hn : n < 65536)
    (hb : r.cls.hasBand = false → b = 0) (hi : r.cls.hasImm = false → n = 0) (data : Word) :
    decode (controlWord op b n) data = .ok (r.instr b n data) := by
  have hrow : rowOf (opField (controlWord op b n)) = some r := by rw [controlWord_op op b hn, hr]
  have hz : r.cls.UnusedZero (controlWord op b n) := by
    refine ⟨controlWord_rsv op b hn, fun hc => ?_, fun hc => ?_⟩
    · rw [extractLsb'_band_eq, controlWord_band op b hn, hb hc]
      rfl
    · rw [extractLsb'_imm_eq, controlWord_imm op b hn, hi hc]
  rw [decode_of_unusedZero hrow hz, controlWord_band op b hn, controlWord_imm op b hn]

/-- OP and BAND added up make the control word with IMM = 0. -/
theorem matchWord_add_band (op : BitVec 8) (b : Band) :
    matchWord op + BitVec.ofNat 32 b.val <<< 20 = controlWord op b 0 := by
  have hop := op.isLt
  have hb := band_lt b
  apply BitVec.eq_of_toNat_eq
  rw [BitVec.toNat_add, matchWord_eq_controlWord, controlWord_toNat op 0 (by decide), controlWord_toNat op b (by decide),
    BitVec.toNat_shiftLeft, BitVec.toNat_ofNat, Nat.shiftLeft_eq, Fin.val_zero]
  omega

/-- A float setter's control word, written as 30 R142 and R143 add it up, decodes with DATA as its operand. -/
theorem decode_floatSetter {op : BitVec 8} {r : OpRow} (hr : rowOf op = some r) (hc : r.cls = .bf) (b : Band)
    (data : Word) : decode (matchWord op + BitVec.ofNat 32 b.val <<< 20) data = .ok (r.instr b 0 data) := by
  rw [matchWord_add_band]
  exact decode_controlWord hr b (by decide) (fun h => by simp [hc, FieldClass.hasBand] at h) (fun _ => rfl) data

/-- Settles O4: the rows without a float operand do not read DATA, and the setters' rows hand it on. -/
theorem dataIsFloatOperandOrIgnored : Obligations.DataIsFloatOperandOrIgnored := by
  refine ⟨fun cw d d' h => decode_ignores_data h d d', fun d => ?_, fun b d => ?_⟩
  · exact decode_controlWord (op := 0x01#8) rfl 0 (by decide) (fun _ => rfl) (fun _ => rfl) d
  · exact ⟨decode_floatSetter (op := 0x10#8) rfl rfl b d, decode_floatSetter (op := 0x12#8) rfl rfl b d,
      decode_floatSetter (op := 0x13#8) rfl rfl b d, decode_floatSetter (op := 0x14#8) rfl rfl b d,
      decode_floatSetter (op := 0x16#8) rfl rfl b d, decode_floatSetter (op := 0x17#8) rfl rfl b d,
      decode_floatSetter (op := 0x18#8) rfl rfl b d⟩

end Sys2Proof
end

section
/-! SUPPORT. When a binary32 sum stays finite, what a product with +0.0 and a sum with a zero are, and from them the claim of
42 R288. -/

namespace Sys2Proof.Machine

/-! ### Magnitudes through the primitives -/

theorem magBits_packSign (neg : Bool) {m : Nat} (h : m < 2 ^ 31) : magBits (packSign neg m) = m := by
  simp only [magBits, packSign, BitVec.toNat_ofNat]
  cases neg <;> simp only [Bool.false_eq_true, ↓reduceIte] <;> omega

@[simp] theorem magBits_flipSign (x : F32) : magBits (flipSign x) = magBits x := by
  rw [magBits, flipSign, BitVec.toNat_xor, Nat.xor_mod_two_pow]
  simp [magBits]

/-- DENORM never makes a magnitude larger. -/
theorem magBits_flush_le (dn : Denorm) (x : F32) : magBits (flush dn x) ≤ magBits x := by
  cases dn with
  | ieee => exact Nat.le_refl _
  | ftz =>
    rw [flush_ftz]
    split
    · rw [magBits_packSign _ (by decide)]
      exact Nat.zero_le _
    · exact Nat.le_refl _

theorem isFinite_flush (dn : Denorm) {x : F32} (h : isFinite x = true) : isFinite (flush dn x) = true :=
  decide_eq_true (Nat.lt_of_le_of_lt (magBits_flush_le dn x) (of_decide_eq_true h))

theorem isNaN_of_isFinite {x : F32} (h : isFinite x = true) : isNaN x = false :=
  decide_eq_false (Nat.not_lt_of_lt (of_decide_eq_true h))

theorem isInf_of_isFinite {x : F32} (h : isFinite x = true) : isInf x = false :=
  decide_eq_false (Nat.ne_of_lt (of_decide_eq_true h))

theorem natAbs_valueOf (x : F32) : (valueOf x).natAbs = magOf x := by
  unfold valueOf
  split <;> simp

/-! ### Finite sums -/

/-- The magnitude bits of 2^24 as a binary32 value. -/
def magBits24 : Nat := 151 * 2 ^ 23

theorem isFinite_of_le_magBits24 {x : F32} (h : magBits x ≤ magBits24) : isFinite x = true :=
  decide_eq_true (Nat.lt_of_le_of_lt h (by decide))

/-- A value of at most 2^24 is at most 2^173 smallest subnormals. -/
theorem magOf_le_of_le_magBits24 {x : F32} (h : magBits x ≤ magBits24) : magOf x ≤ 2 ^ 173 :=
  calc magOf x ≤ magOf (BitVec.ofNat 32 magBits24) := magOf_mono h
    _ = 2 ^ 173 := by decide

theorem isFinite_faddExact {a b : F32} (ha : magBits a ≤ magBits24) (hb : magBits b ≤ magBits24) :
    isFinite (faddExact a b) = true := by
  have hfa := isFinite_of_le_magBits24 ha
  have hfb := isFinite_of_le_magBits24 hb
  simp only [faddExact, isNaN_of_isFinite hfa, isNaN_of_isFinite hfb, isInf_of_isFinite hfa, isInf_of_isFinite hfb,
    Bool.or_false, Bool.false_eq_true, ↓reduceIte]
  have hsum : (valueOf a + valueOf b).natAbs ≤ 2 ^ 174 * 1 := by
    have hma := magOf_le_of_le_magBits24 ha
    have hmb := magOf_le_of_le_magBits24 hb
    calc (valueOf a + valueOf b).natAbs ≤ magOf a + magOf b := by
          simpa only [natAbs_valueOf] using Int.natAbs_add_le (valueOf a) (valueOf b)
      _ ≤ 2 ^ 173 + 2 ^ 173 := Nat.add_le_add hma hmb
      _ = 2 ^ 174 * 1 := by decide
  have hround := roundMag_le_pow (by decide) (by decide) hsum
  split
  · exact decide_eq_true (by rw [magBits_packSign _ (by decide)]; decide)
  · exact decide_eq_true (by rw [magBits_packSign _ (by omega)]; omega)

/-- A sum of values of at most 2^24 is finite. -/
theorem isFinite_fadd (dn : Denorm) {a b : F32} (ha : magBits a ≤ magBits24) (hb : magBits b ≤ magBits24) :
    isFinite (fadd dn a b) = true :=
  isFinite_flush dn (isFinite_faddExact (Nat.le_trans (magBits_flush_le dn a) ha) (Nat.le_trans (magBits_flush_le dn b) hb))

theorem isFinite_fsub (dn : Denorm) {a b : F32} (ha : magBits a ≤ magBits24) (hb : magBits b ≤ magBits24) :
    isFinite (fsub dn a b) = true :=
  isFinite_fadd dn ha (by rwa [magBits_flipSign])

/-! ### Arithmetic with zeros -/

theorem fsub_posZero_posZero (dn : Denorm) : fsub dn posZero posZero = posZero := by
  cases dn <;> decide

theorem fmulExact_posZero {x : F32} (h : isFinite x = true) : fmulExact x posZero = packSign (signOf x) 0 := by
  have hsign : signOf posZero = false := by decide
  have hmag : magOf posZero = 0 := by decide
  have hround : roundMag 0 (2 ^ 149) = 0 := by decide
  have hz : isFinite posZero = true := by decide
  simp only [fmulExact, isNaN_of_isFinite h, isNaN_of_isFinite hz, isInf_of_isFinite h, isInf_of_isFinite hz, Bool.or_false,
    Bool.false_eq_true, ↓reduceIte, hsign, hmag, Nat.mul_zero, hround, Bool.bne_false]

theorem flush_zero (dn : Denorm) (neg : Bool) : flush dn (packSign neg 0) = packSign neg 0 := by
  cases dn <;> cases neg <;> decide

/-- The product of a finite value and +0.0 is a zero: that of the value's sign as DENORM reads it. -/
theorem fmul_posZero (dn : Denorm) {x : F32} (h : isFinite x = true) :
    fmul dn x posZero = packSign (signOf (flush dn x)) 0 := by
  have hz : flush dn posZero = posZero := flush_zero dn false
  rw [fmul, hz, fmulExact_posZero (isFinite_flush dn h), flush_zero]

/-- +0.0 plus a zero of either sign is +0.0. -/
theorem fadd_posZero_zero (dn : Denorm) (neg : Bool) : fadd dn posZero (packSign neg 0) = posZero := by
  cases dn <;> cases neg <;> decide

/-! ### A delay in [1.0, DMAX] -/

/-- A value between 1.0 and a non-negative bound has at most the bound's magnitude. -/
theorem magBits_le_of_inDomain_one {d hi : F32} (h : inDomain d one hi) (hhi : signOf hi = false) :
    magBits d ≤ magBits hi := by
  obtain ⟨hlow, hhigh⟩ := h
  simp only [fle, Bool.and_eq_true, decide_eq_true_eq] at hlow hhigh
  obtain ⟨-, hlow⟩ := hlow
  obtain ⟨-, hhigh⟩ := hhigh
  have hone : orderKey one = 0x3F800000 := by decide
  rw [hone] at hlow
  cases hs : signOf d with
  | true =>
    rw [orderKey, hs, if_pos rfl] at hlow
    omega
  | false =>
    rw [orderKey, orderKey, hs, hhi, if_neg Bool.false_ne_true, if_neg Bool.false_ne_true] at hhigh
    omega

/-- The whole part of a delay of at most DMAX is at most DMAX. -/
theorem ffloor_le_of_magBits_le {d : F32} {n : Nat} (hn : n < 2 ^ 24) (h : magBits d ≤ magBits (u2f n)) : ffloor d ≤ n := by
  obtain ⟨hmag, -⟩ := u2f_exact hn
  apply Nat.div_le_of_le_mul
  rw [Nat.mul_comm, ← hmag]
  exact magOf_mono h

/-- The fraction `d - u2f(ffloor(d))` of a delay in [1.0, DMAX] is finite. -/
theorem isFinite_delayFraction (dn : Denorm) {d : F32} {dmax : Nat} (hmax : dmax < 2 ^ 24) (h : inDomain d one (u2f dmax)) :
    isFinite (fsub dn d (u2f (ffloor d))) = true := by
  obtain ⟨-, hsign, -, hbits⟩ := u2f_exact hmax
  have hd := magBits_le_of_inDomain_one h hsign
  obtain ⟨-, -, -, hfloor⟩ := u2f_exact (Nat.lt_of_le_of_lt (ffloor_le_of_magBits_le hmax hd) hmax)
  exact isFinite_fsub dn (Nat.le_trans hd hbits) hfloor

/-! ### Reading a cleared line (42 R288) -/

theorem behind_lt {dlen : Nat} (h : 0 < dlen) (w j : Nat) : behind dlen w j < dlen :=
  Nat.mod_lt _ h

/-- Where every word of the line is +0.0, the interpolation of 42 R283 is +0.0 for every delay with a finite fraction. -/
theorem delayValue_of_zeroWords {cfg : Platform} {m : Memory} {c : Chan} {b : Band} (hlen : 0 < cfg.lits.dlen)
    (hzero : ∀ i < cfg.lits.dlen, dRead m c b i = posZero) (w : Nat) {d : F32}
    (hd : isFinite (fsub cfg.denorm d (u2f (ffloor d))) = true) : delayValue cfg m c b w d = posZero := by
  simp only [delayValue, hzero _ (behind_lt hlen _ _)]
  rw [fsub_posZero_posZero, fmul_posZero _ hd, fadd_posZero_zero]

/-- Settles O32: both words read are +0.0, so the interpolation adds a zero to +0.0. -/
theorem clearedLineReadsZero : Obligations.ClearedLineReadsZero := by
  intro s c b d dmax hlen hmax hd
  exact delayValue_of_zeroWords (cfg := s.cfg) (by omega) (fun i hi => dRead_clearWords_same s.mem c b hi) _
    (isFinite_delayFraction _ hmax hd)

end Sys2Proof.Machine
end

section
/-! SUPPORT. The sum that a channel's loop accumulates: which bands it adds and what each adds, and from them the claim of
44 R355. -/

namespace Sys2Proof.Machine

/-! ### The contribution of a band (44 R351 to R353) -/

/-- With the delay enabled the delayed value is mixed with the filtered sample; else the filtered sample is the contribution. The band's
own filter step changes neither its parameters nor its delay line. -/
theorem contribution_eq_ite (c : Chan) (x : F32) (s : State) (b : Band) :
    contribution c x s b =
      if (param s b).dlyEn then
        fadd s.cfg.denorm
          (fmul s.cfg.denorm (delayValue s.cfg s.mem c b (laneGet s.lines c b).w (bandTime s b)) s.smooth[b].wet)
          (fmul s.cfg.denorm (bandFilter c b x s).2 s.smooth[b].dry)
      else (bandFilter c b x s).2 := by
  have hp : param (bandFilter c b x s).1 b = param s b := param_of_active (bandFilter_active c b x s) b
  rw [contribution]
  split
  next h =>
    rw [(bandDelay_enabled c b _ _ (hp ▸ h)).2.2]
    simp only [bandFilter_cfg, bandFilter_mem, bandFilter_lines, bandFilter_smooth, bandTime, bandFilter_sr, bandFilter_dmax]
  next h => rw [bandDelay_disabled c b _ _ (hp ▸ Bool.eq_false_of_not_eq_true h)]

/-! ### The accumulated sum (44 R354, R355) -/

/-- One band's step adds the band's contribution when the band is routed. -/
theorem laneStep_sum (c : Chan) (x a : F32) (s : State) (b : Band) :
    (laneStep c x (s, a) b).2 =
      if routeSelect s.active.route b then fadd s.cfg.denorm a (contribution c x s b) else a := by
  simp only [laneStep, contribution, bandDelay_active, bandDelay_cfg, bandFilter_active, bandFilter_cfg]

/-- The step of one band leaves the contribution of every other band as it was. -/
theorem contribution_laneStep_other (c : Chan) (x a : F32) (s : State) {b b' : Band} (h : b' ≠ b) :
    contribution c x (laneStep c x (s, a) b).1 b' = contribution c x s b' :=
  contribution_congr (laneStep_sameLane c x a s b (fun e => h e.2)) x

/-- The loop over distinct bands adds the contributions of the routed ones in the order of the list, each as it stands in the
state before the loop. -/
theorem lanes_sum (c : Chan) (x : F32) (l : List Band) (hl : l.Nodup) (s : State) (a : F32) :
    (l.foldl (laneStep c x) (s, a)).2 =
      ((l.filter (routeSelect s.active.route)).map (contribution c x s)).foldl (fadd s.cfg.denorm) a := by
  induction l generalizing s a with
  | nil => rfl
  | cons b l ih =>
    obtain ⟨hn, hl'⟩ := List.nodup_cons.mp hl
    have later : (l.filter (routeSelect s.active.route)).map (contribution c x (laneStep c x (s, a) b).1) =
        (l.filter (routeSelect s.active.route)).map (contribution c x s) :=
      List.map_congr_left fun b' hb' =>
        contribution_laneStep_other c x a s (fun e => hn (e ▸ List.mem_of_mem_filter hb'))
    rw [List.foldl_cons, ← Prod.mk.eta (p := laneStep c x (s, a) b), ih hl', laneStep_active, laneStep_cfg, later, laneStep_sum]
    by_cases hb : routeSelect s.active.route b = true
    · rw [if_pos hb, List.filter_cons_of_pos hb, List.map_cons, List.foldl_cons]
    · rw [if_neg hb, List.filter_cons_of_neg hb]

/-- A channel puts out its DC-blocked sum. -/
theorem channelFrame_value (c : Chan) (x : F32) (s : State) :
    (channelFrame c x s).2 = dcValue s.cfg s.dc[c]
      (((bands.filter (routeSelect s.active.route)).map (contribution c x s)).foldl (fadd s.cfg.denorm) posZero) := by
  simp only [channelFrame, dcBlock, lanes_cfg, lanes_dc, lanes_sum c x bands bands_nodup]

/-- Settles O38: no band's step changes what a later band contributes, so the loop's sum is the sum over the routed bands. -/
theorem channelSumAddsRoutedBands : Obligations.ChannelSumAddsRoutedBands :=
  fun c x s => ⟨channelFrame_value c x s, contribution_eq_ite c x s⟩

end Sys2Proof.Machine
end

section
/-! SUPPORT. The machine right after power-on reset, array by array and with the parameters left free, and from that the
claim of 10 R80 and 70 R550. -/

namespace Sys2Proof.Machine

/-! ### The arrays right after reset (10 R80) -/

@[simp] theorem lanes_replicate_get {α : Type} (x : α) (c : Chan) (b : Band) :
    laneGet (Vector.replicate 2 (Vector.replicate 16 x)) c b = x := by
  have h : (Vector.replicate 2 (Vector.replicate 16 x) : Lanes α)[c] = Vector.replicate 16 x :=
    Vector.getElem_replicate c.isLt
  rw [laneGet, h]
  exact Vector.getElem_replicate b.isLt

theorem resetOf_staging_band (cfg : Platform) (b : Band) : (State.resetOf cfg).staging.band[b] = BandParams.reset :=
  Vector.getElem_replicate b.isLt

theorem resetOf_section (cfg : Platform) (c : Chan) (b : Band) (k : Sec) :
    (laneGet (State.resetOf cfg).filters c b)[k] = Section.reset := by
  have h : laneGet (State.resetOf cfg).filters c b = Vector.replicate 4 Section.reset := lanes_replicate_get _ c b
  rw [h]
  exact Vector.getElem_replicate k.isLt

/-- Each band's noise generator starts from the seed that the literals have for that band (10 R59). -/
theorem resetOf_lfo (cfg : Platform) (b : Band) : (State.resetOf cfg).lfo[b] = Lfo.reset cfg.lits.noiseSeed[b] :=
  bankOf_get (fun b => Lfo.reset cfg.lits.noiseSeed[b]) b

@[simp] theorem resetOf_line (cfg : Platform) (c : Chan) (b : Band) :
    laneGet (State.resetOf cfg).lines c b = { w := 0, fb := posZero, known := false } :=
  lanes_replicate_get _ c b

theorem resetOf_smooth (cfg : Platform) (b : Band) : (State.resetOf cfg).smooth[b] = Smoothers.reset :=
  Vector.getElem_replicate b.isLt

theorem resetOf_dc (cfg : Platform) (c : Chan) : (State.resetOf cfg).dc[c] = { x1 := posZero, y1 := posZero } :=
  Vector.getElem_replicate c.isLt

/-! ### STATUS (10 R54) -/

/-- STATUS reads 0 while the engine is idle, nothing is initialised and no error is recorded. -/
theorem statusWord_eq_zero {s : State} (hm : s.mode = .idle) (hi : s.status.initDone = false)
    (hc : s.status.cleared = s.status) : statusWord s = 0#32 := by
  rw [statusWord, ← hc, busy, hm]
  simp [Status.cleared, bitAt, hi]

/-- Settles O60: each array reads its reset value in every place, each noise generator its own band's seed, and every other
field is as the reset state writes it. -/
theorem resetValues : Obligations.ResetValues := by
  intro cfg s
  have taps : ∀ c b, ∀ k : Sec, (laneGet s.filters c b)[k].s1 = posZero ∧ (laneGet s.filters c b)[k].s2 = posZero :=
    fun c b k => by rw [resetOf_section cfg c b k]; exact ⟨rfl, rfl⟩
  have lines : ∀ c b, (laneGet s.lines c b).w = 0 ∧ (laneGet s.lines c b).fb = posZero :=
    fun c b => by rw [resetOf_line cfg c b]; exact ⟨rfl, rfl⟩
  have status : statusWord s = 0#32 := statusWord_eq_zero rfl rfl rfl
  exact ⟨resetOf_staging_band cfg, rfl, rfl, rfl, rfl, rfl, rfl, status, rfl, rfl, rfl, taps, resetOf_lfo cfg, lines,
    resetOf_smooth cfg, resetOf_dc cfg, rfl, rfl, rfl, rfl, rfl, rfl⟩

end Sys2Proof.Machine
end

section
/-! SUPPORT. Each row of the opcode map against the encoder: what a row's command encodes to, and from it the two round trips
of 30 R140 to R148 and the byte order of 20 R107. -/

namespace Sys2Proof

open Machine

/-! ### From a command to its pair and back -/

/-- A command whose opcode finds a row that makes the command of the encoded operands is decoded as it was encoded, if the
operands that the row's class does not use were encoded as 0. -/
theorem decode_encode_of_row {i : Instr} {r : OpRow} (hr : rowOf i.opcode = some r) (b : Band) {n : Nat} (hn : n < 65536)
    (hb : r.cls.hasBand = false → b = 0) (hi : r.cls.hasImm = false → n = 0) {data : Word}
    (he : encode i = (controlWord i.opcode b n, data)) (hmake : r.instr b n data = i) :
    decode (encode i).1 (encode i).2 = .ok i := by
  rw [he, decode_controlWord hr b hn hb hi data, hmake]

/-- Settles O1: the command's opcode finds its own row, and the row reads back the fields that the encoder wrote; a field
that the encoder left at 0 is one that the row's class does not use. -/
theorem decodeOfEncode : Obligations.DecodeOfEncode := by
  intro i h
  cases i
  case nop | init x | getStatus | clrStatus | getSr | getDesign | getOrder | getRoute | getWave =>
    exact decode_encode_of_row rfl 0 (n := 0) (by decide) (fun _ => rfl) (fun _ => rfl) rfl rfl
  case block n | setDesign n | setOrder n | setRoute n | setWave n =>
    exact decode_encode_of_row rfl 0 (of_decide_eq_true h) (fun _ => rfl) (fun hc => by cases hc) rfl rfl
  case setPol b n | setLfoEn b n | setDlyEn b n =>
    exact decode_encode_of_row rfl b (of_decide_eq_true h) (fun hc => by cases hc) (fun hc => by cases hc) rfl rfl
  case setGain b x | setLfoRate b x | setLfoDepth b x | setLfoOfs b x | setDlyTime b x | setDlyFb b x | setDlyMix b x =>
    exact decode_encode_of_row rfl b (n := 0) (by decide) (fun hc => by cases hc) (fun _ => rfl) rfl rfl
  case getGain b | getPol b | getLfoRate b | getLfoDepth b | getLfoOfs b | getLfoEn b | getDlyTime b | getDlyFb b
      | getDlyMix b | getDlyEn b =>
    exact decode_encode_of_row rfl b (n := 0) (by decide) (fun hc => by cases hc) (fun _ => rfl) rfl rfl

/-! ### From a pair to its command and back -/

/-- A pair decodes to a command only through the row of its opcode, with every unused field zero. -/
theorem decode_ok {cw data : Word} {i : Instr} (h : decode cw data = .ok i) :
    ∃ r, rowOf (opField cw) = some r ∧ r.cls.UnusedZero cw ∧ i = r.instr (bandField cw) (immField cw) data := by
  cases hr : rowOf (opField cw) with
  | none => rw [decode_of_rowOf_none hr] at h; cases h
  | some r =>
    by_cases hz : r.cls.UnusedZero cw
    · rw [decode_of_unusedZero hr hz] at h
      exact ⟨r, rfl, hz, (Except.ok.inj h).symm⟩
    · rw [decode_of_not_unusedZero hr hz] at h; cases h

/-- What the command of a row encodes to: the row's opcode and the fields that its class uses. -/
def OpRow.EncodesBack (r : OpRow) : Prop :=
  ∀ (b : Band) (n : Nat) (d : Word), n < 65536 → (r.instr b n d).wellFormed = true ∧
    (encode (r.instr b n d)).1 = controlWord r.code (if r.cls.hasBand then b else 0) (if r.cls.hasImm then n else 0) ∧
    (usesData r.code.toNat → (encode (r.instr b n d)).2 = d)

/-- Row by row, the encoder writes what the row reads. -/
theorem row_encodesBack : ∀ r ∈ opTable, r.EncodesBack := by
  simp only [opTable, List.forall_mem_cons, List.not_mem_nil, false_implies, implies_true, and_true]
  simp only [OpRow.EncodesBack, BitVec.toNat_ofNat]
  simp +contextual [Instr.wellFormed, immFits, encode, Instr.opcode, FieldClass.hasBand, FieldClass.hasImm]

/-- With its unused fields zero, a control word is made of its opcode and the fields that are used. -/
theorem controlWord_of_unusedZero {c : FieldClass} {cw : Word} (h : c.UnusedZero cw) :
    controlWord (opField cw) (if c.hasBand then bandField cw else 0) (if c.hasImm then immField cw else 0) = cw := by
  obtain ⟨hrsv, hband, himm⟩ := h
  have hb : (if c.hasBand then bandField cw else 0) = bandField cw := by
    split
    · rfl
    next hc => simp only [bandField, hband (Bool.eq_false_of_not_eq_true hc)]; rfl
  have hi : (if c.hasImm then immField cw else 0) = immField cw := by
    split
    · rfl
    next hc => simp only [immField, himm (Bool.eq_false_of_not_eq_true hc)]; rfl
  apply BitVec.eq_of_toNat_eq
  rw [hb, hi, controlWord_toNat _ _ (immField_lt cw), cw_toNat cw, hrsv]
  simp

/-- Settles O2: a pair that decodes is read by one row, whose command encodes to the same fields; DATA is the float operand or
the row's opcode ignores it. -/
theorem decodedPairsReencode : Obligations.DecodedPairsReencode := by
  intro cw data i h
  obtain ⟨r, hr, hz, rfl⟩ := decode_ok h
  obtain ⟨hcode, hmem⟩ := rowOf_some hr
  obtain ⟨hwf, hcw, hdata⟩ := row_encodesBack r hmem (bandField cw) (immField cw) data (immField_lt cw)
  refine ⟨hwf, ?_, ?_⟩
  · rw [hcw, hcode, controlWord_of_unusedZero hz]
  · by_cases hu : usesData r.code.toNat
    · exact .inl (hdata hu)
    · rw [hcode, opField_toNat] at hu
      exact .inr fun d => (decode_ignores_data hu d data).trans h

/-! ### Bytes -/

/-- Settles O5: the eight bytes of a pair make its two words again. -/
theorem pairsTravelLittleEndian : Obligations.PairsTravelLittleEndian := by
  intro cw data rest
  refine ⟨rfl, ?_⟩
  simp only [bytesOfPair, List.cons_append, List.nil_append, decodeBytes, wordOfBytes_byteOfWord]

/-- Settles O6: each word is decoded by its fields. -/
theorem sampleWordsDecode : Obligations.SampleWordsDecode := by
  unfold Obligations.SampleWordsDecode
  decide

end Sys2Proof
end

section
/-! SUPPORT. Commands one by one: what the decoder and the schedule make of the pair at the head of CMD, what each command changes,
which commands hold, and the claims of 20 R112, 45 and 46 about single commands. -/

namespace Sys2Proof.Machine

/-! ### The decoder's move (30 R147) and the schedule (20 R113) -/

theorem decoderMove_of_ok {s : State} {cw data : Word} {rest : List Word} {i : Instr} (hcmd : s.cmd = cw :: data :: rest)
    (hi : decode cw data = .ok i) : decoderMove s = exec i s := by
  simp only [decoderMove, hcmd, hi]

theorem decoderMove_of_error {s : State} {cw data : Word} {rest : List Word} {e : DecodeError}
    (hcmd : s.cmd = cw :: data :: rest) (he : decode cw data = .error e) :
    decoderMove s = .next (raiseError (decodeErrorCode e) (opField cw) s) := by
  simp only [decoderMove, hcmd, he]

theorem decoderReady_of_ok {s : State} {cw data : Word} {rest : List Word} {i : Instr} (hcmd : s.cmd = cw :: data :: rest)
    (hi : decode cw data = .ok i) (hh : holds i s = false) : decoderReady s = true := by
  simp only [decoderReady, hcmd, hi, hh, Bool.not_false]

/-- The only agent that can move does, and the schedule stays. -/
theorem step_of_ready_one {s : State} {a : Agent} (h : readyAgents s = [a]) : step s = moveOf a s := by
  simp only [step, pick, afterPick, h]

/-- Of several agents that can move, the one that the schedule names does, and its entry is used up. -/
theorem step_of_ready_many {s : State} {a b : Agent} {rest : List Agent} {later : List Agent}
    (h : readyAgents s = a :: b :: rest) (hs : s.sched = a :: later) :
    step s = moveOf a { s with sched := later, turns := s.turns + 1 } := by
  simp only [step, pick, winner, afterPick, h, hs, List.mem_cons, true_or, ↓reduceIte, List.tail_cons]

/-- The decoder stands first among the agents that can move. -/
theorem readyAgents_of_decoderReady {s : State} (h : decoderReady s = true) :
    readyAgents s = .decoder :: ((if engineReady s then [.engine] else []) ++ if hostReady s then [.host] else []) := by
  cases he : engineReady s <;> cases ht : hostReady s <;> simp [readyAgents, agentReady, h, he, ht]

/-- Settles O7: the decoder is among the agents that can move; alone it moves, and contested it wins by the schedule. -/
theorem stepRunsDecodedCommand : Obligations.StepRunsDecodedCommand := by
  intro s cw data rest i hcmd hi hh
  have hready := readyAgents_of_decoderReady (decoderReady_of_ok hcmd hi hh)
  refine ⟨fun he ht => ?_, fun later hs hr => ?_⟩
  · rw [he, ht] at hready
    rw [step_of_ready_one hready]
    exact decoderMove_of_ok hcmd hi
  · obtain ⟨b, rest, many⟩ : ∃ b rest, readyAgents s = .decoder :: b :: rest := by
      rw [hready]
      rcases hr with he | ht
      · exact ⟨.engine, _, by rw [if_pos he]; rfl⟩
      · cases engineReady s
        · exact ⟨.host, [], by rw [if_pos ht]; rfl⟩
        · exact ⟨.engine, _, rfl⟩
    rw [step_of_ready_many many hs]
    exact decoderMove_of_ok (s := { s with sched := later, turns := s.turns + 1 }) hcmd hi

/-! ### Errors (60 R503) -/

theorem retire_eq (s : State) : retire s = { s with cmd := s.cmd.drop 2 } := rfl

/-- `raise Error(code)`, with the record of the error written out. -/
theorem raiseError_eq (e : ErrorCode) (op : BitVec 8) (s : State) :
    raiseError e op s = { s with
      cmd := s.cmd.drop 2
      status := if s.status.err then { s.status with errOvf := true }
        else { s.status with err := true, errCode := errorNumber e, errOp := op } } := rfl

/-- Settles O9: the error that is raised is the decoder's, with its number and the opcode field. -/
theorem errorsAreRecorded : Obligations.ErrorsAreRecorded := by
  intro s cw data rest e hcmd he
  have hnum : errorNumber (decodeErrorCode e) = if e = .illegalOp then 1#4 else 2#4 := by cases e <;> rfl
  refine ⟨fun herr => ?_, fun herr => ?_⟩
  · rw [decoderMove_of_error hcmd he, raiseError_eq, hcmd, herr, hnum]
    rfl
  · rw [decoderMove_of_error hcmd he, raiseError_eq, hcmd, herr]
    rfl

/-! ### INIT and BLOCK on an idle machine (45 R402, R403) -/

theorem exec_init_accepted {s : State} {fs : F32} (hm : s.mode = .idle) (hr : legalRate s.cfg.lits fs = true) :
    exec (.init fs) s = .next (initEffect fs (retire s)) := by
  simp only [exec, execInit, hm, hr, reduceCtorEq, ↓reduceIte]

theorem exec_init_rejected {s : State} {fs : F32} (hm : s.mode = .idle) (hr : legalRate s.cfg.lits fs = false) :
    exec (.init fs) s = .next (raiseError .badRate 0x01#8 s) := by
  simp only [exec, execInit, hm, hr, reduceCtorEq, Bool.false_eq_true, ↓reduceIte]

theorem exec_block_notInit {s : State} (hm : s.mode = .idle) (hi : s.status.initDone = false) (n : Nat) :
    exec (.block n) s = .next (raiseError .notInit 0x02#8 s) := by
  simp only [exec, execBlock, hm, hi, reduceCtorEq, Bool.not_false, ↓reduceIte]

theorem exec_block_badLength {s : State} {n : Nat} (hm : s.mode = .idle) (hi : s.status.initDone = true)
    (hn : s.cfg.lits.blockMax < n) : exec (.block n) s = .next (raiseError .badLength 0x02#8 s) := by
  simp only [exec, execBlock, hm, hi, hn, reduceCtorEq, Bool.not_true, Bool.false_eq_true, ↓reduceIte]

theorem exec_block_zero {s : State} (hm : s.mode = .idle) (hi : s.status.initDone = true) :
    exec (.block 0) s = .next (retire s) := by
  simp only [exec, execBlock, hm, hi, reduceCtorEq, Bool.not_true, Bool.false_eq_true, Nat.not_lt_zero, ↓reduceIte]

/-- Settles O11. -/
theorem initRejectsBadRates : Obligations.InitRejectsBadRates :=
  fun _ _ hm hr => exec_init_rejected hm hr

/-- Settles O13: each check is reached when those before it passed. -/
theorem blockChecksComeInOrder : Obligations.BlockChecksComeInOrder :=
  fun _ n hm => ⟨fun hi => exec_block_notInit hm hi n, fun hi hn => exec_block_badLength hm hi hn,
    fun hi hn => hn ▸ exec_block_zero hm hi⟩

/-! ### Answers on RESP (20 R112) -/

theorem answerGet_full {s : State} (h : respFull s = true) (w : Word) : answerGet w s = .next s := by
  simp only [answerGet, h, ↓reduceIte]

theorem answerGet_room {s : State} (h : respFull s = false) (w : Word) :
    answerGet w s = .next { s with cmd := s.cmd.drop 2, resp := s.resp ++ [w] } := by
  simp only [answerGet, h, Bool.false_eq_true, ↓reduceIte]
  rfl

/-- Every GET command answers one word on RESP. -/
theorem exec_of_isGet {i : Instr} (h : i.isGet = true) (s : State) : ∃ w, exec i s = answerGet w s := by
  cases i
  case getStatus | getSr | getGain | getPol | getLfoRate | getLfoDepth | getLfoOfs | getLfoEn | getDlyTime | getDlyFb
      | getDlyMix | getDlyEn | getDesign | getOrder | getRoute | getWave => exact ⟨_, rfl⟩
  all_goals simp [Instr.isGet, Instr.opcode] at h

/-! ### Holds (20 R112) -/

theorem holds_eq (i : Instr) (s : State) :
    holds i s = (i.reachesEngine && busy s || i.isGet && respFull s) := by
  cases i <;> simp [holds, Instr.reachesEngine, Instr.isGet, Instr.opcode]

theorem busy_iff (s : State) : busy s = true ↔ s.mode = .running := decide_eq_true_iff

/-- BLOCK and INIT wait while a block runs. -/
theorem exec_of_running {i : Instr} {s : State} (hi : i.reachesEngine = true) (hm : s.mode = .running) :
    exec i s = .next s := by
  cases i
  case init fs => simp only [exec, execInit, hm, ↓reduceIte]
  case block n => simp only [exec, execBlock, hm, ↓reduceIte]
  all_goals cases hi

/-- A command that neither reaches the engine nor answers completes at once. -/
theorem exec_of_plain {i : Instr} (hr : i.reachesEngine = false) (hg : i.isGet = false) (s : State) :
    ∃ t, exec i s = .next t ∧ t.cmd = s.cmd.drop 2 ∧ t.cfg = s.cfg := by
  cases i
  case nop | clrStatus | setGain | setPol | setLfoRate | setLfoDepth | setLfoOfs | setLfoEn | setDlyTime | setDlyFb
      | setDlyMix | setDlyEn | setDesign | setOrder | setRoute | setWave => exact ⟨_, rfl, rfl, rfl⟩
  case init | block => cases hr
  all_goals simp [Instr.isGet, Instr.opcode] at hg

/-- While no block runs BLOCK and INIT complete, whether they are accepted or not. -/
theorem exec_of_idle {i : Instr} {s : State} (hi : i.reachesEngine = true) (hm : s.mode ≠ .running) :
    ∃ t, exec i s = .next t ∧ t.cmd = s.cmd.drop 2 ∧ t.cfg = s.cfg := by
  cases i
  case init fs =>
    simp only [exec, execInit, if_neg hm]
    split
    · exact ⟨_, rfl, by simp⟩
    · exact ⟨_, rfl, rfl, rfl⟩
  case block n =>
    simp only [exec, execBlock, if_neg hm]
    split
    · exact ⟨_, rfl, rfl, rfl⟩
    · split
      · exact ⟨_, rfl, rfl, rfl⟩
      · split
        · exact ⟨_, rfl, rfl, rfl⟩
        · exact ⟨_, rfl, by simp⟩
  all_goals cases hi

/-- Settles O8: a command waits for the engine, waits for RESP, or completes. -/
theorem commandsHoldOrComplete : Obligations.CommandsHoldOrComplete := by
  intro i s
  have hiff : holds i s = true ↔ (i.reachesEngine = true ∧ s.mode = .running) ∨ (i.isGet = true ∧ respFull s = true) := by
    rw [holds_eq, Bool.or_eq_true, Bool.and_eq_true, Bool.and_eq_true, busy_iff]
  refine ⟨hiff, fun h => ?_, fun h => ?_⟩
  · rcases hiff.mp h with ⟨hr, hm⟩ | ⟨hg, hf⟩
    · exact exec_of_running hr hm
    · obtain ⟨w, hw⟩ := exec_of_isGet hg s
      rw [hw, answerGet_full hf]
  · have hno := mt hiff.mpr (by simp [h])
    rw [not_or, not_and, not_and] at hno
    obtain ⟨hm, hf⟩ := hno
    cases hr : i.reachesEngine with
    | true => exact exec_of_idle hr (hm hr)
    | false =>
      cases hg : i.isGet with
      | true =>
        obtain ⟨w, hw⟩ := exec_of_isGet hg s
        rw [hw, answerGet_room (Bool.eq_false_of_not_eq_true (hf hg))]
        exact ⟨_, rfl, rfl, rfl⟩
      | false => exact exec_of_plain hr hg s

/-! ### System commands (45) -/

theorem signOf_eq (x : F32) : signOf x = decide (2 ^ 31 ≤ x.toNat) := BitVec.msb_eq_decide x

theorem fle_iff (a b : F32) : fle a b = true ↔ isNaN a = false ∧ isNaN b = false ∧ orderKey a ≤ orderKey b := by
  simp only [fle, Bool.and_eq_true, Bool.not_eq_true', decide_eq_true_eq, and_assoc]

theorem flt_iff (a b : F32) : flt a b = true ↔ isNaN a = false ∧ isNaN b = false ∧ orderKey a < orderKey b := by
  simp only [flt, Bool.and_eq_true, Bool.not_eq_true', decide_eq_true_eq, and_assoc]

theorem isNaN_eq_false_iff (x : F32) : isNaN x = false ↔ magBits x ≤ 0x7F800000 := by
  rw [isNaN, decide_eq_false_iff_not, Nat.not_lt]

/-- Settles O10: both bounds are positive, so the order of patterns is that of their magnitude bits, and a sign bit puts a
pattern below the lower bound. -/
theorem legalRatesAreAnInterval : Obligations.LegalRatesAreAnInterval := by
  intro fs
  have hlo : isNaN Literals.default.fsMin = false ∧ orderKey Literals.default.fsMin = 0x45FA0000 := by decide
  have hhi : isNaN Literals.default.fsMax = false ∧ orderKey Literals.default.fsMax = 0x483B8000 := by decide
  have hfs := fs.isLt
  rw [legalRate, Bool.and_eq_true, fle_iff, fle_iff, hlo.1, hlo.2, hhi.1, hhi.2, isNaN_eq_false_iff, orderKey, signOf_eq, magBits]
  by_cases hneg : 2 ^ 31 ≤ fs.toNat
  · simp only [hneg, decide_true, ↓reduceIte, true_and]
    omega
  · simp only [hneg, decide_false, Bool.false_eq_true, ↓reduceIte, true_and]
    omega

theorem bitAt_getLsbD (f : Bool) {n : Nat} (hn : n < 32) (j : Nat) : (bitAt f n).getLsbD j = (f && decide (j = n)) := by
  cases f
  · simp [bitAt]
  · have : (1#32).getLsbD (j - n) = decide (j - n = 0) := by simp [BitVec.getLsbD_one]
    simp only [bitAt, ↓reduceIte, BitVec.getLsbD_shiftLeft, this, Bool.true_and]
    by_cases h : j = n
    · simp [h, hn]
    · simp [h]; omega

/-- STATUS bit by bit (10 R54). -/
theorem statusWord_getLsbD (s : State) (j : Nat) (hj : j < 32) :
    (statusWord s).getLsbD j =
      (s.status.initDone && decide (j = 0) || busy s && decide (j = 1) || s.status.err && decide (j = 2) ||
        s.status.errOvf && decide (j = 3) || (!decide (j < 4) && s.status.errCode.getLsbD (j - 4)) ||
        (!decide (j < 8) && s.status.errOp.getLsbD (j - 8))) := by
  have h4 : j - 4 < 32 := by omega
  have h8 : j - 8 < 32 := by omega
  simp only [statusWord, BitVec.getLsbD_or, bitAt_getLsbD _ (show 0 < 32 by decide), bitAt_getLsbD _ (show 1 < 32 by decide),
    bitAt_getLsbD _ (show 2 < 32 by decide), bitAt_getLsbD _ (show 3 < 32 by decide), BitVec.getLsbD_shiftLeft,
    BitVec.getLsbD_setWidth, hj, h4, h8, decide_true, Bool.true_and]

/-- Settles O16: each field of STATUS stands at its place of the word, and no two places overlap. -/
theorem getStatusAnswersTheRegister : Obligations.GetStatusAnswersTheRegister := by
  intro s hr
  have bit := statusWord_getLsbD s
  refine ⟨statusWord s, answerGet_room hr _, ?_, ?_, ?_, ?_, ?_, ?_, ?_⟩
  · rw [bit 0 (by decide)]; simp
  · rw [bit 1 (by decide)]; simp [busy]
  · rw [bit 2 (by decide)]; simp
  · rw [bit 3 (by decide)]; simp
  · apply BitVec.eq_of_getLsbD_eq
    intro j hj
    rw [BitVec.getLsbD_extractLsb', bit _ (by omega)]
    interval_cases j <;> simp
  · apply BitVec.eq_of_getLsbD_eq
    intro j hj
    rw [BitVec.getLsbD_extractLsb', bit _ (by omega)]
    interval_cases j <;> simp
  · apply BitVec.eq_of_getLsbD_eq
    intro j hj
    have hcode : s.status.errCode.getLsbD (16 + j - 4) = false := BitVec.getLsbD_of_ge _ _ (by omega)
    have hop : s.status.errOp.getLsbD (16 + j - 8) = false := BitVec.getLsbD_of_ge _ _ (by omega)
    have hlow : 16 + j ≠ 0 ∧ 16 + j ≠ 1 ∧ 16 + j ≠ 2 ∧ 16 + j ≠ 3 := by omega
    rw [BitVec.getLsbD_extractLsb', bit _ (by omega), hcode, hop]
    simp [hlow]

/-- Settles O17. -/
theorem nopClrStatusAndGetSr : Obligations.NopClrStatusAndGetSr :=
  ⟨fun _ => rfl, fun _ => rfl, fun s hr => answerGet_room hr s.sr⟩

/-! ### Per-band setters and getters (46 R450 to R471) -/

/-- What a setter with operand v does to its band's staged parameters. -/
def BandField.store (f : BandField) (cfg : Platform) (v : Word) (p : BandParams) : BandParams :=
  match f with
  | .gain => { p with gain := clampGain cfg v }
  | .pol => { p with pol := flagOf v.toNat }
  | .lfoRate => { p with lfoRate := clampLfoRate cfg v }
  | .lfoDepth => { p with lfoDepth := clampLfoDepth cfg v }
  | .lfoOfs => { p with lfoOfs := clampLfoOfs cfg v }
  | .lfoEn => { p with lfoEn := flagOf v.toNat }
  | .dlyTime => { p with dlyTime := clampDlyTime cfg v }
  | .dlyFb => { p with dlyFb := clampDlyFb cfg v }
  | .dlyMix => { p with dlyMix := clampDlyMix cfg v }
  | .dlyEn => { p with dlyEn := flagOf v.toNat }

theorem exec_bandSetter (f : BandField) (b : Band) (v : Word) (s : State) :
    exec (f.setter b v) s = .next (stageBand b (f.store s.cfg v) (retire s)) := by
  cases f <;> rfl

theorem exec_bandGetter (f : BandField) (b : Band) (s : State) :
    exec (f.getter b) s = answerGet (f.word s.staging.band[b]) s := by
  cases f <;> rfl

theorem flagWord_flagOf (v : Word) : flagWord (flagOf v.toNat) = if v = 0#32 then 0#32 else 1#32 := by
  by_cases h : v = 0#32
  · subst h; rfl
  · have hn : v.toNat ≠ 0 := fun e => h (BitVec.eq_of_toNat_eq e)
    simp only [flagOf, hn, ne_eq, not_false_eq_true, decide_true, flagWord, ↓reduceIte, h]

/-- The word of the field that a setter wrote is its operand, clamped or as a flag. -/
theorem word_store (f : BandField) (cfg : Platform) (v : Word) (p : BandParams) :
    f.word (f.store cfg v p) = f.stored cfg v := by
  cases f
  case pol | lfoEn | dlyEn => exact flagWord_flagOf v
  all_goals rfl

@[simp] theorem stageBand_band (b : Band) (f : BandParams → BandParams) (s : State) :
    (stageBand b f s).staging.band[b] = f s.staging.band[b] := bank_set_same _ _ _

/-- Settles O18: each setter writes its field of one staged band. -/
theorem bandSettersStoreClamped : Obligations.BandSettersStoreClamped :=
  fun _ _ _ _ => ⟨rfl, rfl, rfl, rfl, rfl, rfl, rfl, rfl, rfl, rfl⟩

theorem orderWord_eq (o : FilterOrder) : orderWord o = BitVec.ofNat 32 (2 * activeSections o) := by
  cases o <;> rfl

/-- Settles O20: with room on RESP every getter answers its staged value. -/
theorem gettersAnswerStaging : Obligations.GettersAnswerStaging := by
  intro s b hr
  have field (f : BandField) := (exec_bandGetter f b s).trans (answerGet_room hr _)
  refine ⟨field .gain, field .pol, field .lfoRate, field .lfoDepth, field .lfoOfs, field .lfoEn, field .dlyTime, field .dlyFb,
    field .dlyMix, field .dlyEn, answerGet_room hr _, ?_, answerGet_room hr _, answerGet_room hr _⟩
  rw [← orderWord_eq]
  exact answerGet_room hr _

/-- Settles O21: the getter answers the word of the field that the setter has just written. -/
theorem getterAnswersSetter : Obligations.GetterAnswersSetter := by
  intro f b v s t ht hr
  rw [exec_bandSetter] at ht
  obtain rfl := Host.Outcome.next.inj ht
  refine ⟨_, (exec_bandGetter f b _).trans (answerGet_room hr _), ?_, rfl⟩
  rw [stageBand_band, word_store]
  rfl

/-! ### Global setters (46 R472 to R475) -/

theorem activeSections_bounds (o : FilterOrder) : 1 ≤ activeSections o ∧ activeSections o ≤ 4 := by
  cases o <;> decide

theorem designWord_clamp (n : Nat) : designWord (clampDesign n) = BitVec.ofNat 32 (min n 2) := by
  have h : min n 2 = 0 ∨ min n 2 = 1 ∨ min n 2 = 2 := by omega
  rcases h with h | h | h <;> simp only [clampDesign, h] <;> rfl

theorem routeWord_clamp (n : Nat) : routeWord (clampRoute n) = BitVec.ofNat 32 (min n 2) := by
  have h : min n 2 = 0 ∨ min n 2 = 1 ∨ min n 2 = 2 := by omega
  rcases h with h | h | h <;> simp only [clampRoute, h] <;> rfl

theorem waveWord_clamp (n : Nat) : waveWord (clampWave n) = BitVec.ofNat 32 (min n 1) := by
  have h : min n 1 = 0 ∨ min n 1 = 1 := by omega
  rcases h with h | h <;> simp only [clampWave, h] <;> rfl

/-- The clamped order, as a number. -/
theorem activeSections_clampOrder (l : Literals) (n : Nat) : 2 * activeSections (clampOrder l n) =
    max (2 * activeSections l.orderMin) (min (2 * (n / 2)) (2 * activeSections l.orderMax)) := by
  have hmin := activeSections_bounds l.orderMin
  have hmax := activeSections_bounds l.orderMax
  unfold clampOrder
  generalize hv : max (2 * activeSections l.orderMin) (min (2 * (n / 2)) (2 * activeSections l.orderMax)) = v
  have h : v = 2 ∨ v = 4 ∨ v = 6 ∨ v = 8 := by omega
  rcases h with rfl | rfl | rfl | rfl <;> rfl

/-- Settles O19. -/
theorem globalSettersClamp : Obligations.GlobalSettersClamp :=
  fun s n => ⟨⟨_, rfl, designWord_clamp n⟩,
    ⟨_, rfl, by rw [orderWord_eq, activeSections_clampOrder]⟩,
    ⟨_, rfl, routeWord_clamp n⟩, ⟨_, rfl, waveWord_clamp n⟩⟩

/-! ### The command side (20 R113) and the host (20 R104, R105) -/

/-- Settles O44: every effect of a command other than INIT and BLOCK is one on the command side. -/
theorem commandsLeaveTheEngine : Obligations.CommandsLeaveTheEngine := by
  intro i s t hi h
  rcases exec_cases h with rfl | rfl | ⟨w, rfl⟩ | rfl | ⟨e, op, rfl⟩ | ⟨b, f, -, rfl⟩ | ⟨f, -, rfl⟩ | ⟨fs, rfl, -⟩ | ⟨n, rfl, -⟩
  case inr.inr.inr.inr.inr.inr.inr.inl | inr.inr.inr.inr.inr.inr.inr.inr => cases hi
  all_goals rfl

/-- Settles O59: a transfer by the first entry of the host's list. -/
theorem hostTransfersAreFifo : Obligations.HostTransfersAreFifo := by
  intro s later
  refine ⟨fun w h => ?_, fun w h => ?_, fun w rest h hp => ?_, fun w rest h hp => ?_, fun h hp => ?_, fun h hp => ?_⟩
  case refine_1 | refine_2 => simp only [hostMove, hostReady, h, true_and]
  case refine_3 | refine_4 =>
    simp only [hostMove, hostReady, h, hp, List.tail_cons, List.isEmpty_cons, Bool.not_false, true_and]
  case refine_5 | refine_6 => simp only [hostReady, h, hp, List.isEmpty_nil, Bool.not_true]

end Sys2Proof.Machine
end

section
/-! SUPPORT. The clamp of 46 R451 by cases, the xorshift generator of 41 R247 as a linear map, and bounds on products, with the claims
of 00 R17, 41 R247, 40 R201 and 42 R281 to R283 that rest on them. -/

namespace Sys2Proof.Machine

/-! ### The clamp (46 R451) -/

theorem fle_refl {x : F32} (h : isNaN x = false) : fle x x = true := (fle_iff x x).mpr ⟨h, h, le_refl _⟩

theorem fle_of_not_flt {x y : F32} (hx : isNaN x = false) (hy : isNaN y = false) (h : flt y x = false) : fle x y = true := by
  refine (fle_iff x y).mpr ⟨hx, hy, Int.not_lt.mp fun hlt => ?_⟩
  rw [(flt_iff y x).mpr ⟨hy, hx, hlt⟩] at h
  cases h

theorem flt_eq_false_of_fle {x y : F32} (h : fle x y = true) : flt y x = false := by
  obtain ⟨-, -, hle⟩ := (fle_iff x y).mp h
  refine Bool.eq_false_of_not_eq_true fun hlt => ?_
  obtain ⟨-, -, hlt⟩ := (flt_iff y x).mp hlt
  omega

theorem fclamp_of_nan {dn : Denorm} {v : F32} (h : isNaN v = true) (lo hi : F32) : fclamp dn v lo hi = lo := by
  simp only [fclamp, h, ↓reduceIte]

theorem fclamp_of_below {dn : Denorm} {v lo : F32} (hi : F32) (hlo : flush dn lo = lo) (h : flt (flush dn v) lo = true) :
    fclamp dn v lo hi = lo := by
  rw [fclamp, hlo, h]
  split <;> rfl

theorem fclamp_of_above {dn : Denorm} {v lo hi : F32} (hlo : flush dn lo = lo) (hhi : flush dn hi = hi)
    (hle : fle lo hi = true) (h : flt hi (flush dn v) = true) : fclamp dn v lo hi = hi := by
  obtain ⟨-, hnan, hlt⟩ := (flt_iff _ _).mp h
  obtain ⟨-, -, hle⟩ := (fle_iff _ _).mp hle
  have hnan' : isNaN v = false := by rwa [isNaN_flush] at hnan
  have hbelow : flt (flush dn v) lo = false := Bool.eq_false_of_not_eq_true fun hb => by
    obtain ⟨-, -, hb⟩ := (flt_iff _ _).mp hb
    omega
  simp only [fclamp, hnan', hlo, hhi, hbelow, h, Bool.false_eq_true, ↓reduceIte]

/-- A number that DENORM reads inside the domain comes out as it is if it lies there itself, and as DENORM reads it if not. -/
theorem fclamp_of_read_inDomain {dn : Denorm} {v lo hi : F32} (hlo : flush dn lo = lo) (hhi : flush dn hi = hi)
    (hnan : isNaN v = false) (h : inDomain (flush dn v) lo hi) :
    fclamp dn v lo hi = if fle lo v && fle v hi then v else flush dn v := by
  obtain ⟨hl, hh⟩ := h
  simp only [fclamp, hnan, hlo, hhi, flt_eq_false_of_fle hl, flt_eq_false_of_fle hh, Bool.false_eq_true, ↓reduceIte]

/-- DENORM reads a value inside a domain whose bounds it reads as they stand as one inside the domain. -/
theorem inDomain_flush {dn : Denorm} {v lo hi : F32} (hlo : flush dn lo = lo) (hhi : flush dn hi = hi) (h : inDomain v lo hi) :
    inDomain (flush dn v) lo hi := by
  obtain ⟨hl, hh⟩ := h
  obtain ⟨hnl, hnv, hl⟩ := (fle_iff _ _).mp hl
  obtain ⟨-, hnh, hh⟩ := (fle_iff _ _).mp hh
  have hl' := orderKey_flush_mono dn hl
  have hh' := orderKey_flush_mono dn hh
  rw [hlo] at hl'
  rw [hhi] at hh'
  have hnf : isNaN (flush dn v) = false := by rw [isNaN_flush, hnv]
  exact ⟨(fle_iff _ _).mpr ⟨hnl, hnf, hl'⟩, (fle_iff _ _).mpr ⟨hnf, hnh, hh'⟩⟩

/-- A pattern in the domain is stored unchanged. -/
theorem fclamp_of_inDomain {dn : Denorm} {v lo hi : F32} (hlo : flush dn lo = lo) (hhi : flush dn hi = hi)
    (h : inDomain v lo hi) : fclamp dn v lo hi = v := by
  have hnan : isNaN v = false := ((fle_iff _ _).mp h.1).2.1
  rw [fclamp_of_read_inDomain hlo hhi hnan (inDomain_flush hlo hhi h), h.1, h.2]
  rfl

/-- The clamp answers a value of the domain. -/
theorem fclamp_inDomain (dn : Denorm) (v : F32) {lo hi : F32} (hle : fle lo hi = true) (hlo : flush dn lo = lo)
    (hhi : flush dn hi = hi) : inDomain (fclamp dn v lo hi) lo hi := by
  obtain ⟨hnlo, hnhi, -⟩ := (fle_iff lo hi).mp hle
  rcases fclamp_cases dn v lo hi with ⟨-, e⟩ | ⟨-, -, e⟩ | ⟨-, -, -, e⟩ | ⟨hnan, hbelow, habove, e⟩
  · rw [e]; exact ⟨fle_refl hnlo, hle⟩
  · rw [e]; exact ⟨fle_refl hnlo, hle⟩
  · rw [e]; exact ⟨hle, fle_refl hnhi⟩
  · rw [e]
    split
    next hin => simpa only [Bool.and_eq_true] using hin
    next =>
      rw [hlo] at hbelow
      rw [hhi] at habove
      have hnf : isNaN (flush dn v) = false := by rw [isNaN_flush, hnan]
      exact ⟨fle_of_not_flt hnlo hnf hbelow, fle_of_not_flt hnf hnhi habove⟩

/-- Settles O22, by the cases of the clamp. -/
theorem clampStaysInDomain : Obligations.ClampStaysInDomain := by
  intro dn x lo hi hnlo hnhi hle hlo hhi
  refine ⟨fclamp_inDomain dn x hle hlo hhi, fclamp_of_inDomain hlo hhi, fun h => fclamp_of_nan h lo hi,
    fclamp_of_below hi hlo, fclamp_of_above hlo hhi hle, fun hout hin hnan => ?_⟩
  rw [fclamp_of_read_inDomain hlo hhi hnan hin, if_neg (by simpa only [Bool.and_eq_true] using hout)]

/-! ### The noise generator (41 R247) -/

/-- Only 0 is its own left shift. -/
theorem eq_zero_of_eq_shiftLeft {w k : Nat} (hk : 0 < k) {d : BitVec w} (h : d = d <<< k) : d = 0#w := by
  apply BitVec.eq_of_getLsbD_eq
  intro j hj
  rw [BitVec.getLsbD_zero]
  induction j using Nat.strongRecOn with
  | ind j ih =>
    rw [h, BitVec.getLsbD_shiftLeft]
    by_cases hjk : j < k
    · simp [hjk]
    · rw [ih (j - k) (by omega) (by omega), Bool.and_false]

/-- Only 0 is its own right shift. -/
theorem eq_zero_of_eq_ushiftRight {w k : Nat} (hk : 0 < k) {d : BitVec w} (h : d = d >>> k) : d = 0#w := by
  apply BitVec.eq_of_getLsbD_eq
  intro j hj
  rw [BitVec.getLsbD_zero]
  generalize hn : w - j = n
  induction n using Nat.strongRecOn generalizing j with
  | ind n ih =>
    rw [h, BitVec.getLsbD_ushiftRight]
    by_cases hjk : k + j < w
    · exact ih (w - (k + j)) (by omega) (k + j) hjk rfl
    · exact BitVec.getLsbD_of_ge _ _ (by omega)

/-- A linear step `x ^^^ f x` takes different words to different words, if only 0 is its own image under f. -/
theorem xor_step_injective {w : Nat} {f : BitVec w → BitVec w} (hlin : ∀ x y, f (x ^^^ y) = f x ^^^ f y)
    (hfix : ∀ d, d = f d → d = 0#w) {x y : BitVec w} (h : x ^^^ f x = y ^^^ f y) : x = y := by
  have hd : x ^^^ y = f (x ^^^ y) :=
    calc x ^^^ y = x ^^^ f x ^^^ f x ^^^ y := by rw [BitVec.xor_assoc x, BitVec.xor_self, BitVec.xor_zero]
      _ = y ^^^ f y ^^^ f x ^^^ y := by rw [h]
      _ = f x ^^^ f y ^^^ (y ^^^ y) := by ac_rfl
      _ = f (x ^^^ y) := by rw [BitVec.xor_self, BitVec.xor_zero, hlin]
  exact BitVec.xor_eq_zero_iff.mp (hfix _ hd)

theorem xs32_injective {x y : Word} (h : xs32 x = xs32 y) : x = y := by
  have left (k : Nat) (hk : 0 < k) {x y : Word} (h : x ^^^ x <<< k = y ^^^ y <<< k) : x = y :=
    xor_step_injective (f := (· <<< k)) (fun _ _ => BitVec.shiftLeft_xor_distrib ..) (fun _ => eq_zero_of_eq_shiftLeft hk) h
  have right (k : Nat) (hk : 0 < k) {x y : Word} (h : x ^^^ x >>> k = y ^^^ y >>> k) : x = y :=
    xor_step_injective (f := (· >>> k)) (fun _ _ => BitVec.ushiftRight_xor_distrib ..) (fun _ => eq_zero_of_eq_ushiftRight hk) h
  exact left 13 (by decide) (right 17 (by decide) (left 5 (by decide) h))

theorem xs32_eq_zero_iff (x : Word) : xs32 x = 0#32 ↔ x = 0#32 := by
  have hzero : xs32 0#32 = 0#32 := by decide
  exact ⟨fun h => xs32_injective (h.trans hzero.symm), fun h => h ▸ hzero⟩

/-- Settles O27: each of the three steps is linear and fixes no word but 0. -/
theorem noiseGeneratorIsInvertible : Obligations.NoiseGeneratorIsInvertible := by
  refine ⟨fun x => ⟨_, _, rfl, rfl, ?_⟩, fun x y => xs32_injective, xs32_eq_zero_iff, by decide, by decide⟩
  simp only [xs32, BitVec.toNat_xor, BitVec.toNat_shiftLeft, BitVec.toNat_ushiftRight, Nat.shiftLeft_eq,
    Nat.shiftRight_eq_div_pow]

/-- Settles O26: the carry of the addition is the case distinction. -/
theorem lfoAdvanceDrawsOnWrap : Obligations.LfoAdvanceDrawsOnWrap := by
  intro dn l
  have hph : (l.ph + l.inc).toNat = (l.ph.toNat + l.inc.toNat) % 2 ^ 32 := BitVec.toNat_add _ _
  by_cases hc : 2 ^ 32 ≤ l.ph.toNat + l.inc.toNat
  · simp only [lfoAdvance, carry32, hc, decide_true, ↓reduceIte, noisePoint, hph, Nat.not_lt.mpr hc, false_implies, implies_true,
      and_self]
  · simp only [lfoAdvance, carry32, hc, decide_false, Bool.false_eq_true, ↓reduceIte, hph, false_implies, implies_true, and_self]

/-! ### Products -/

theorem roundMag_le_inf (n d : Nat) : roundMag n d ≤ 0x7F800000 := Nat.min_le_left _ _

/-- The magnitude bits of a product of finite values. -/
theorem magBits_fmulExact {a b : F32} (ha : isFinite a = true) (hb : isFinite b = true) :
    magBits (fmulExact a b) = roundMag (magOf a * magOf b) (2 ^ 149) := by
  have hle := roundMag_le_inf (magOf a * magOf b) (2 ^ 149)
  simp only [fmulExact, isNaN_of_isFinite ha, isNaN_of_isFinite hb, isInf_of_isFinite ha, isInf_of_isFinite hb, Bool.or_false,
    Bool.false_eq_true, ↓reduceIte]
  exact magBits_packSign _ (by omega)

/-- A value of magnitude at most 1.0 lies in [-1.0, 1.0]. -/
theorem inDomain_unit {x : F32} (h : magBits x ≤ 0x3F800000) : inDomain x negOne one := by
  have hnan : isNaN x = false := (isNaN_eq_false_iff x).mpr (by omega)
  have hlo : isNaN negOne = false ∧ orderKey negOne = -0x3F800000 := by decide
  have hhi : isNaN one = false ∧ orderKey one = 0x3F800000 := by decide
  have hkey : -0x3F800000 ≤ orderKey x ∧ orderKey x ≤ 0x3F800000 := by
    unfold orderKey
    split <;> omega
  exact ⟨(fle_iff _ _).mpr ⟨hlo.1, hnan, hlo.2 ▸ hkey.1⟩, (fle_iff _ _).mpr ⟨hnan, hhi.1, hhi.2 ▸ hkey.2⟩⟩

/-- A 32-bit integer converts to a value of at most 2^31. -/
theorem magBits_i2f_le (i : BitVec 32) : magBits (i2f i.toInt) ≤ 158 * 2 ^ 23 := by
  have habs : i.toInt.natAbs * 2 ^ 149 ≤ 2 ^ 180 * 1 := by
    have h1 := BitVec.two_mul_toInt_lt (x := i)
    have h2 := BitVec.le_two_mul_toInt (x := i)
    have : i.toInt.natAbs ≤ 2 ^ 31 := by omega
    calc i.toInt.natAbs * 2 ^ 149 ≤ 2 ^ 31 * 2 ^ 149 := Nat.mul_le_mul_right _ this
      _ = 2 ^ 180 * 1 := by decide
  have hround := roundMag_le_pow (by decide) (by decide) habs
  rw [i2f, magBits_packSign _ (by omega)]
  omega

/-- Settles O28: a state is at most 2^31 in magnitude, and 2^31 times 2^-31 is 1.0. -/
theorem noisePointsAreBounded : Obligations.NoisePointsAreBounded := by
  intro dn r
  apply inDomain_unit
  have hscale : flush dn 0x30000000#32 = 0x30000000#32 := by cases dn <;> decide
  have hbits := Nat.le_trans (magBits_flush_le dn (i2f r.toInt)) (magBits_i2f_le r)
  have hfin : isFinite (flush dn (i2f r.toInt)) = true := decide_eq_true (by omega)
  have hprod : magOf (flush dn (i2f r.toInt)) * magOf 0x30000000#32 ≤ 2 ^ 149 * 2 ^ 149 :=
    calc magOf (flush dn (i2f r.toInt)) * magOf 0x30000000#32 ≤ magOf (BitVec.ofNat 32 (158 * 2 ^ 23)) * magOf 0x30000000#32 :=
          Nat.mul_le_mul_right _ (magOf_mono (by rwa [magBits_ofNat (by decide)]))
      _ = 2 ^ 149 * 2 ^ 149 := by decide
  have hround := roundMag_le_pow (by decide) (by decide) hprod
  calc magBits (noisePoint dn r) ≤ magBits (fmulExact (flush dn (i2f r.toInt)) 0x30000000#32) := by
        rw [noisePoint, fmul, hscale]; exact magBits_flush_le dn _
    _ = roundMag _ _ := magBits_fmulExact hfin (by decide)
    _ ≤ 0x3F800000 := hround

end Sys2Proof.Machine
end

section
/-! SUPPORT. Delays in samples, the words behind a cursor, and products that stay in the normal range, with the claims of 40 R201 and
42 R281 to R287; then the tables and reference points, which are evaluated. -/

namespace Sys2Proof.Machine

/-! ### A delay in [1.0, DMAX] (42 R281) -/

/-- DENORM reads every pattern from 2^-126 on as it is. -/
theorem flush_of_normal (dn : Denorm) {x : F32} (h : 2 ^ 23 ≤ magBits x) : flush dn x = x := by
  cases dn with
  | ieee => rfl
  | ftz => rw [flush_ftz, if_neg (Nat.not_lt.mpr h)]

/-- A value of at least 1.0 has at least the magnitude bits of 1.0. -/
theorem magBits_one_le_of_magOf {x : F32} (h : 2 ^ 149 ≤ magOf x) : magBits one ≤ magBits x := by
  by_contra hlt
  have hle : magOf x ≤ magOf 0x3F7FFFFF#32 := magOf_mono (by
    have hone : magBits one = 0x3F800000 := by decide
    have hpred : magBits 0x3F7FFFFF#32 = 0x3F7FFFFF := by decide
    omega)
  exact absurd (Nat.le_trans h hle) (by decide)

theorem orderKey_of_nonneg {x : F32} (h : signOf x = false) : orderKey x = magBits x := by
  rw [orderKey, h, if_neg Bool.false_ne_true]

/-- 1.0 is at most DMAX, and DENORM reads DMAX as it stands. -/
theorem one_le_u2f {n : Nat} (h1 : 1 ≤ n) (h : n < 2 ^ 24) (dn : Denorm) :
    fle one (u2f n) = true ∧ flush dn (u2f n) = u2f n := by
  obtain ⟨hmag, hsign, hfin, -⟩ := u2f_exact h
  have hbits : magBits one ≤ magBits (u2f n) := magBits_one_le_of_magOf (by rw [hmag]; exact Nat.le_mul_of_pos_left _ h1)
  refine ⟨(fle_iff _ _).mpr ⟨by decide, isNaN_of_isFinite hfin, ?_⟩, flush_of_normal dn (Nat.le_trans (by decide) hbits)⟩
  rw [orderKey_of_nonneg (x := one) (by decide), orderKey_of_nonneg hsign]
  exact Int.ofNat_le.mpr hbits

theorem delaySetTime_inDomain (dn : Denorm) (sr t : F32) {dmax : Nat} (h1 : 1 ≤ dmax) (h : dmax < 2 ^ 24) :
    inDomain (delaySetTime dn sr dmax t) one (u2f dmax) := by
  obtain ⟨hle, hhi⟩ := one_le_u2f h1 h dn
  exact fclamp_inDomain dn _ hle (flush_of_normal dn (by decide)) hhi

/-- Settles O30: the clamp's domain is [1.0, DMAX]. -/
theorem delayTimeIsClamped : Obligations.DelayTimeIsClamped := by
  intro dn sr t dmax h1 h
  have hin := delaySetTime_inDomain dn sr t h1 h
  exact ⟨hin, ((fle_iff _ _).mp hin.1).2.1⟩

/-- The whole part of a delay of at least 1.0 is at least 1. -/
theorem one_le_ffloor {d : F32} (h : fle one d = true) : 1 ≤ ffloor d := by
  obtain ⟨-, -, hkey⟩ := (fle_iff _ _).mp h
  have hone : orderKey one = 0x3F800000 := by decide
  have hbits : magBits one ≤ magBits d := by
    have : magBits one = 0x3F800000 := by decide
    rw [hone, orderKey] at hkey
    split at hkey <;> omega
  exact (Nat.one_le_div_iff (by decide)).mpr (magOf_mono hbits)

/-! ### The words behind the cursor (42 R283, R285) -/

/-- The index behind the cursor by less than a whole turn. -/
theorem behind_of_lt {n w j : Nat} (hj : j < n) : behind n w j = (w + n - j) % n := by
  rw [behind, Nat.mod_eq_of_lt hj]

/-- Less than a whole turn behind the cursor never is at the cursor. -/
theorem behind_ne_cursor {n w j : Nat} (hw : w < n) (h1 : 1 ≤ j) (hj : j < n) : behind n w j ≠ w := by
  rw [behind_of_lt hj]
  by_cases h : j ≤ w
  · rw [show w + n - j = (w - j) + n by omega, Nat.add_mod_right, Nat.mod_eq_of_lt (by omega)]
    omega
  · rw [Nat.mod_eq_of_lt (by omega)]
    omega

/-- One behind the next cursor is the cursor. -/
theorem behind_next {n w : Nat} (hw : w < n) : behind n ((w + 1) % n) 1 = w := by
  by_cases hn : n = 1
  · subst hn
    simp only [behind, Nat.mod_one]
    omega
  · rw [behind_of_lt (by omega)]
    by_cases h : w + 1 = n
    · rw [h, Nat.mod_self, Nat.zero_add, Nat.mod_eq_of_lt (by omega)]
      omega
    · rw [Nat.mod_eq_of_lt (a := w + 1) (by omega), show w + 1 + n - 1 = w + n by omega, Nat.add_mod_right, Nat.mod_eq_of_lt hw]

/-- Settles O31: the delay is from 1 to DLEN - 2 whole frames, so both words read lie behind the cursor by less than a turn. -/
theorem delayReadAvoidsCursor : Obligations.DelayReadAvoidsCursor := by
  intro s c b d dmax dn n l di hdmax hmax hd hw
  obtain ⟨-, hsign, -⟩ := u2f_exact hmax
  have h1 : 1 ≤ di := one_le_ffloor hd.1
  have h2 : di ≤ dmax := ffloor_le_of_magBits_le hmax (magBits_le_of_inDomain_one hd hsign)
  have e0 : behind n l.w di = (l.w + n - di) % n := behind_of_lt (by omega)
  have e1 : behind n l.w (di + 1) = (l.w + n - di - 1) % n := behind_of_lt (by omega)
  have hi0 := behind_ne_cursor hw h1 (show di < n by omega)
  have hi1 := behind_ne_cursor hw (show 1 ≤ di + 1 by omega) (by omega)
  refine ⟨h1, h2, behind n l.w di, behind n l.w (di + 1), e0, e1, hi0, hi1, rfl, fun v => ?_⟩
  have other {i : Nat} (hi : i ≠ l.w) : dRead (dWrite s.mem c b l.w v) c b i = dRead s.mem c b i :=
    dRead_dWrite_other _ _ fun e => hi e.2.2
  simp only [delayRead, delayValue]
  rw [other hi0, other hi1]

/-- Settles O33: the word written is the only one that changes, and the next cursor is one ahead of it. -/
theorem delayWriteStoresAtCursor : Obligations.DelayWriteStoresAtCursor := by
  intro c b v s hwf hw
  have hline : laneGet (delayWrite c b v s).lines c b =
      { laneGet s.lines c b with w := ((laneGet s.lines c b).w + 1) % s.cfg.lits.dlen } := laneSet_same _ _ _ _
  refine ⟨dRead_dWrite_same hwf c b _ v, ?_, ?_, ?_, fun a ha => ?_, fun c' b' h => laneSet_other _ _ h, rfl⟩
  · rw [hline]; exact behind_next hw
  · rw [hline]
  · rw [hline]
  · exact readByte_dWrite_other _ _ _ _ _ (by omega)

/-- Settles O34. -/
theorem delayClearIsPrivate : Obligations.DelayClearIsPrivate := by
  intro c b s
  have hline : laneGet (delayClear c b s).lines c b = clearedLine := laneSet_same _ _ _ _
  refine ⟨⟨by rw [hline], by rw [hline], fun i hi => dRead_clearWords_same s.mem c b hi⟩, fun c' b' h => laneSet_other _ _ h,
    fun a ha => readByte_clearWords_other s.mem _ c b ha, rfl⟩

/-! ### Products in the normal range -/

/-- Rounding adds at most one part in 2^23 to a value with a full significand. -/
theorem magOf_roundMag_le {n d : Nat} (hd : 0 < d) (hbig : 2 ^ 23 ≤ n / d) (hfin : roundMag n d < 0x7F800000) :
    2 ^ 23 * (d * magOf (BitVec.ofNat 32 (roundMag n d))) ≤ (2 ^ 23 + 1) * n := by
  rw [magOf_roundMag n d hd hfin]
  have hshift : 2 ^ 23 * (d * 2 ^ roundShift n d) ≤ n := by
    have hlog : 2 ^ Nat.log2 (n / d) ≤ n / d := Nat.log2_self_le (by omega)
    have hge : 23 ≤ Nat.log2 (n / d) := (Nat.le_log2 (by omega)).mpr hbig
    have hpow : 2 ^ 23 * 2 ^ roundShift n d = 2 ^ Nat.log2 (n / d) := by
      rw [← Nat.pow_add, roundShift, Nat.add_sub_cancel' hge]
    calc 2 ^ 23 * (d * 2 ^ roundShift n d) = d * (2 ^ 23 * 2 ^ roundShift n d) := by ring
      _ ≤ d * (n / d) := Nat.mul_le_mul_left _ (hpow ▸ hlog)
      _ ≤ n := Nat.mul_div_le n d
  have hstep : 0 < d * 2 ^ roundShift n d := Nat.mul_pos hd (Nat.two_pow_pos _)
  generalize hm : d * 2 ^ roundShift n d = m at hshift hstep
  have hround : m * roundHalfEven n m ≤ n + m := by
    have hdiv : m * (n / m) ≤ n := Nat.mul_div_le n m
    have hle : roundHalfEven n m ≤ n / m + 1 := roundHalfEven_le hstep (Nat.le_of_lt (Nat.lt_mul_of_div_lt (Nat.lt_succ_self _) hstep))
    calc m * roundHalfEven n m ≤ m * (n / m + 1) := Nat.mul_le_mul_left _ hle
      _ = m * (n / m) + m := by ring
      _ ≤ n + m := Nat.add_le_add_right hdiv _
  calc 2 ^ 23 * (d * (roundHalfEven n m * 2 ^ roundShift n d)) = 2 ^ 23 * (m * roundHalfEven n m) := by rw [← hm]; ring
    _ ≤ 2 ^ 23 * (n + m) := Nat.mul_le_mul_left _ hround
    _ = 2 ^ 23 * n + 2 ^ 23 * m := by ring
    _ ≤ (2 ^ 23 + 1) * n := by omega

theorem roundMag_eq (n d : Nat) :
    roundMag n d = min 0x7F800000 (roundShift n d * 2 ^ 23 + roundHalfEven n (d * 2 ^ roundShift n d)) := rfl

/-- Above 2^24 smallest subnormals a rounded pattern is normal. -/
theorem le_roundMag_of_big {n d : Nat} (hd : 2 ^ 24 ≤ n / d) : 2 ^ 23 ≤ roundMag n d := by
  have hlog : 24 ≤ Nat.log2 (n / d) := (Nat.le_log2 (by omega)).mpr hd
  have hshift : 1 ≤ roundShift n d := by rw [roundShift]; omega
  rw [roundMag_eq]
  omega

/-- The product of two positive finite values whose exact value is in the normal range below 2^k: a positive normal value, at
most one part in 2^23 above the exact product. -/
theorem fmul_normal (dn : Denorm) {a b : F32} {k : Nat} (ha : isFinite a = true) (hb : isFinite b = true)
    (hsa : signOf a = false) (hsb : signOf b = false) (hna : 2 ^ 23 ≤ magBits a) (hnb : 2 ^ 23 ≤ magBits b)
    (hlow : 2 ^ 24 * 2 ^ 149 ≤ magOf a * magOf b) (hhigh : magOf a * magOf b ≤ 2 ^ k * 2 ^ 149) (hk : 23 ≤ k) (hk' : k < 277) :
    signOf (fmul dn a b) = false ∧ isFinite (fmul dn a b) = true ∧ 2 ^ 23 ≤ magBits (fmul dn a b) ∧
      2 ^ 23 * (2 ^ 149 * magOf (fmul dn a b)) ≤ (2 ^ 23 + 1) * (magOf a * magOf b) := by
  have hexact : fmulExact a b = packSign false (roundMag (magOf a * magOf b) (2 ^ 149)) := by
    simp only [fmulExact, isNaN_of_isFinite ha, isNaN_of_isFinite hb, isInf_of_isFinite ha, isInf_of_isFinite hb, Bool.or_false,
      Bool.false_eq_true, ↓reduceIte, hsa, hsb, Bool.bne_false]
  have hpack (m : Nat) : packSign false m = BitVec.ofNat 32 m := rfl
  have hdiv : 2 ^ 24 ≤ magOf a * magOf b / 2 ^ 149 := (Nat.le_div_iff_mul_le (by decide)).mpr hlow
  have hbig := le_roundMag_of_big hdiv
  have hfin : roundMag (magOf a * magOf b) (2 ^ 149) < 0x7F800000 :=
    calc roundMag (magOf a * magOf b) (2 ^ 149) ≤ (k - 22) * 2 ^ 23 := roundMag_le_pow (by decide) hk hhigh
      _ < 0x7F800000 := by omega
  have hbits := magBits_ofNat (m := roundMag (magOf a * magOf b) (2 ^ 149)) (by omega)
  have hresult : fmul dn a b = BitVec.ofNat 32 (roundMag (magOf a * magOf b) (2 ^ 149)) := by
    rw [fmul, flush_of_normal dn hna, flush_of_normal dn hnb, hexact, hpack, flush_of_normal dn (by rw [hbits]; exact hbig)]
  rw [hresult, isFinite, hbits, signOf_eq, BitVec.toNat_ofNat]
  exact ⟨decide_eq_false (by omega), decide_eq_true hfin, hbig, magOf_roundMag_le (by decide) (by omega) hfin⟩

/-! ### The design frequency (40 R201) -/

theorem fmin_cases (a b : F32) : fmin a b = a ∨ fmin a b = b := by
  unfold fmin
  split
  · exact .inr rfl
  · exact .inl rfl

theorem fmin_le {a b : F32} (ha : isNaN a = false) (hb : isNaN b = false) :
    fle (fmin a b) a = true ∧ fle (fmin a b) b = true := by
  unfold fmin
  split
  next h =>
    obtain ⟨-, -, hlt⟩ := (flt_iff b a).mp h
    exact ⟨(fle_iff b a).mpr ⟨hb, ha, Int.le_of_lt hlt⟩, fle_refl hb⟩
  next h => exact ⟨fle_refl ha, fle_of_not_flt ha hb (Bool.eq_false_of_not_eq_true h)⟩

theorem magBits_le_of_fle {x y : F32} (hx : signOf x = false) (hy : signOf y = false) (h : fle x y = true) :
    magBits x ≤ magBits y := by
  obtain ⟨-, -, hkey⟩ := (fle_iff x y).mp h
  rw [orderKey_of_nonneg hx, orderKey_of_nonneg hy] at hkey
  exact Int.ofNat_le.mp hkey

theorem isPositive_iff (x : F32) : isPositive x = true ↔ isFinite x = true ∧ signOf x = false ∧ magBits x ≠ 0 := by
  simp only [isPositive, isZero, Bool.and_eq_true, Bool.not_eq_true', decide_eq_false_iff_not, and_assoc, ne_eq]

/-- 0.45 times a legal rate is positive and below half the rate. -/
theorem freqClamp_product (dn : Denorm) {fs : F32} (h : legalRate Literals.default fs = true) :
    isPositive (fmul dn Literals.default.freqClamp fs) = true ∧ 2 * magOf (fmul dn Literals.default.freqClamp fs) < magOf fs := by
  obtain ⟨hlow, hhigh⟩ := (legalRatesAreAnInterval fs).mp h
  have hbits : magBits fs = fs.toNat := Nat.mod_eq_of_lt (by omega)
  have hmin : 8000 * 2 ^ 149 ≤ magOf fs :=
    calc 8000 * 2 ^ 149 = magOf 0x45FA0000#32 := by decide
      _ ≤ magOf fs := magOf_mono (by rw [hbits]; exact hlow)
  have hmax : magOf fs ≤ 192000 * 2 ^ 149 :=
    calc magOf fs ≤ magOf 0x483B8000#32 := magOf_mono (by rw [hbits]; exact hhigh)
      _ = 192000 * 2 ^ 149 := by decide
  have hclamp : magOf Literals.default.freqClamp = 15099494 * 2 ^ 124 := by decide
  have hprod := fmul_normal dn (a := Literals.default.freqClamp) (b := fs) (k := 166) (by decide) (decide_eq_true (by omega)) (by decide)
    (by rw [signOf_eq]; exact decide_eq_false (by omega)) (by decide) (by omega) (by rw [hclamp]; omega) (by rw [hclamp]; omega)
    (by decide) (by decide)
  obtain ⟨hsign, hfin, hnormal, hround⟩ := hprod
  refine ⟨(isPositive_iff _).mpr ⟨hfin, hsign, by omega⟩, ?_⟩
  rw [hclamp] at hround
  omega

theorem freqTable_isPositive : ∀ b : Band, isPositive Literals.default.freq[b] = true := by decide

/-- Settles O29: both candidates are positive, the second below half the rate, and the smaller one is at most the second. -/
theorem designFrequenciesStayBelowNyquist : Obligations.DesignFrequenciesStayBelowNyquist := by
  intro dn fs b cfg f hfs
  obtain ⟨hpos, hhalf⟩ := freqClamp_product dn hfs
  obtain ⟨hpfin, hpsign, -⟩ := (isPositive_iff _).mp hpos
  obtain ⟨hffin, hfsign, -⟩ := (isPositive_iff _).mp (freqTable_isPositive b)
  obtain ⟨hlefreq, hleprod⟩ := fmin_le (isNaN_of_isFinite hffin) (isNaN_of_isFinite hpfin)
  have hcases : f = Literals.default.freq[b] ∨ f = fmul dn Literals.default.freqClamp fs := fmin_cases _ _
  have hposf : isPositive f = true := by 
    rcases hcases with e | e
    · rw [e]; exact freqTable_isPositive b
    · rw [e]; exact hpos
  refine ⟨hposf, ?_, hlefreq, hleprod, hcases⟩
  have hmag : magOf f ≤ magOf (fmul dn Literals.default.freqClamp fs) :=
    magOf_mono (magBits_le_of_fle ((isPositive_iff f).mp hposf).2.1 hpsign hleprod)
  omega

/-! ### Tables and reference points -/

/-- Settles O24, by evaluation of the tables. -/
theorem typeSeedAndRoutingTables : Obligations.TypeSeedAndRoutingTables := by
  unfold Obligations.TypeSeedAndRoutingTables
  decide +kernel

/-- Settles O25, by evaluation of the fixed-point reference at each point. -/
theorem lfoReferencePoints : Obligations.LfoReferencePoints := by
  unfold Obligations.LfoReferencePoints
  decide +kernel

end Sys2Proof.Machine
end

section
/-! SUPPORT. What an accepted INIT and an accepted BLOCK do, in every field (45 R402, 44 R381, 40 R207). -/

namespace Sys2Proof.Machine

/-! ### INIT (45 R402) -/

theorem initEffect_coefs (fs : F32) (s : State) : (initEffect fs s).coefs =
    { gain := smoothCoef s.cfg.unit s.cfg.lits.fcGain fs, lfo := smoothCoef s.cfg.unit s.cfg.lits.fcLfo fs
      slow := smoothCoef s.cfg.unit s.cfg.lits.fcSlow fs } := by
  simp [initEffect, smoothSetCutoff]

theorem initEffect_dc (fs : F32) (s : State) (c : Chan) : (initEffect fs s).dc[c] = { x1 := posZero, y1 := posZero } :=
  Vector.getElem_replicate c.isLt

theorem initEffect_section (fs : F32) (s : State) (c : Chan) (b : Band) (k : Sec) :
    (laneGet (initEffect fs s).filters c b)[k] =
      { coef := (laneGet s.filters c b)[k].coef, s1 := posZero, s2 := posZero } := by
  rw [initEffect_filters, clearTaps_section]

theorem initEffect_silent (fs : F32) (s : State) (c : Chan) (b : Band) : LineSilent (initEffect fs s) c b := by
  have hline := initEffect_lines fs s c b
  refine ⟨by rw [hline], by rw [hline], fun i hi => initEffect_words fs s c b ?_⟩
  rwa [initEffect_cfg] at hi

/-- INIT leaves every byte outside the delay space as it was. -/
theorem initEffect_readByte (fs : F32) (s : State) {a : Nat} (ha : 128 * s.cfg.lits.dlen ≤ a) :
    readByte (initEffect fs s).mem a = readByte s.mem a :=
  initEffect_mem_keeps (Q := fun m => readByte m a = readByte s.mem a) fs s
    (fun m c b h => (readByte_clearWords_other m _ c b fun hin => Nat.not_lt.mpr ha hin.2).trans h) rfl

/-- Settles O12. -/
theorem initReinitialisesDatapath : Obligations.InitReinitialisesDatapath := by
  intro s fs hm hr
  refine ⟨_, exec_init_accepted hm hr, initEffect_sr .., initEffect_coefs .., initEffect_dmax .., initEffect_status ..,
    initEffect_key .., initEffect_dc fs _, initEffect_silent fs _, initEffect_section fs _,
    fun a ha => initEffect_readByte fs (retire s) ha, ?_, initEffect_cmd ..⟩
  simp only [initEffect_cfg, initEffect_staging, initEffect_active, initEffect_mode, initEffect_left, initEffect_out,
    initEffect_lfo, initEffect_smooth, initEffect_resp, initEffect_ain, initEffect_aout, initEffect_host, initEffect_sched,
    initEffect_turns, retire_eq]

/-! ### FILTER.UPDATE, section by section (40 R207) -/

/-- The sections whose taps FILTER.UPDATE zeroes: those that an order decrease under a valid key deactivates. -/
def Deactivated (s : State) (k : Sec) : Prop :=
  s.key.valid = true ∧ activeSections s.active.order ≤ k.val ∧ k.val < activeSections s.key.order

theorem filterDeactivate_section (s : State) (c : Chan) (b : Band) (k : Sec) :
    (laneGet (filterDeactivate s) c b)[k].coef = (laneGet s.filters c b)[k].coef ∧
      (Deactivated s k → (laneGet (filterDeactivate s) c b)[k].quiet) ∧
      (¬Deactivated s k → (laneGet (filterDeactivate s) c b)[k] = (laneGet s.filters c b)[k]) := by
  rw [filterDeactivate_lane]
  split
  next h =>
    rw [sectionClear_section]
    split
    next hk => exact ⟨rfl, fun _ => ⟨rfl, rfl⟩, fun hno => absurd ⟨h.1, hk.1, by omega⟩ hno⟩
    next hk => exact ⟨rfl, fun hd => absurd ⟨hd.2.1, by have := hd.2.2; omega⟩ hk, fun _ => rfl⟩
  next h => exact ⟨rfl, fun hd => absurd ⟨hd.1, Nat.lt_of_le_of_lt hd.2.1 hd.2.2⟩ h, fun _ => rfl⟩

/-- FILTER.UPDATE with a key that does not agree, one section: coefficients and taps. -/
theorem filterUpdate_section {s : State} (h : s.key ≠ wantedKey s) (c : Chan) (b : Band) (k : Sec) :
    (laneGet (filterUpdate s).filters c b)[k].coef =
      (if k.val < activeSections s.active.order then
        biquadCoef s.cfg.unit (bandType b) (effFreq s.cfg s.sr b) s.sr (designQ s.cfg.lits s.active.design s.active.order k)
      else (laneGet s.filters c b)[k].coef) ∧
    (Deactivated s k → (laneGet (filterUpdate s).filters c b)[k].quiet) ∧
    (¬Deactivated s k → (laneGet (filterUpdate s).filters c b)[k].s1 = (laneGet s.filters c b)[k].s1 ∧
      (laneGet (filterUpdate s).filters c b)[k].s2 = (laneGet s.filters c b)[k].s2) := by
  obtain ⟨hcoef, hquiet, hkeep⟩ := filterDeactivate_section s c b k
  rw [filterUpdate_lane, if_neg h, filterConfigure_section]
  split
  · exact ⟨rfl, hquiet, fun hno => by rw [hkeep hno]; exact ⟨rfl, rfl⟩⟩
  · exact ⟨hcoef, hquiet, fun hno => by rw [hkeep hno]; exact ⟨rfl, rfl⟩⟩

theorem filterUpdate_of_key {s : State} (h : s.key = wantedKey s) : filterUpdate s = s := by
  rw [filterUpdate, if_pos h]

/-- Settles O15: BLOCK.START's filters are those of FILTER.UPDATE after the latch. -/
theorem blockStartFilters : Obligations.BlockStartFilters := by
  intro s n hm hi h1 hn
  refine ⟨_, exec_block_accepted hm hi h1 hn, fun hkey => ?_, fun hkey c b k => ?_⟩
  · rw [blockStart_filters, filterUpdate_of_key (s := latch (retire s)) hkey]
    rfl
  · rw [blockStart_filters]
    exact filterUpdate_section (s := latch (retire s)) hkey c b k

/-! ### BLOCK.START (44 R381) -/

theorem blockStart_silent (n : Nat) (s : State) (c : Chan) {b : Band} (h : s.staging.band[b].dlyEn = false) :
    LineSilent (blockStart n s) c b := by
  have hline : laneGet (blockStart n s).lines c b = clearedLine := by
    rw [blockStart_lines, h, if_neg Bool.false_ne_true]
  refine ⟨by rw [hline], by rw [hline], fun i hi => ?_⟩
  rw [blockStart_words n s c b (by rwa [blockStart_cfg] at hi), h, if_neg Bool.false_ne_true]

/-- BLOCK.START leaves every byte outside the lines it clears as it was. -/
theorem blockStart_readByte (n : Nat) (s : State) {a : Nat}
    (ha : ∀ c b, s.staging.band[b].dlyEn = false → ¬inLine s.cfg.lits.dlen c b a) :
    readByte (blockStart n s).mem a = readByte s.mem a :=
  blockStart_mem_keeps (Q := fun m => readByte m a = readByte s.mem a) n s
    (fun m c b hd h => (readByte_clearWords_other m _ c b (ha c b hd)).trans h) rfl

/-- Settles O14. -/
theorem blockStartEffect : Obligations.BlockStartEffect := by
  intro s n hm hi h1 hn
  refine ⟨_, exec_block_accepted hm hi h1 hn, rfl, rfl, blockStart_active .., blockStart_key .., blockStart_lfo n _,
    fun c b hd => blockStart_silent n (retire s) c hd, fun c b hd => ?_, fun a ha => blockStart_readByte n (retire s) ha, ?_,
    blockStart_cmd ..⟩
  · exact (blockStart_lines n (retire s) c b).trans (if_pos hd)
  · simp only [blockStart_cfg, blockStart_staging, blockStart_sr, blockStart_status, blockStart_out, blockStart_dmax,
      blockStart_coefs, blockStart_smooth, blockStart_dc, blockStart_resp, blockStart_ain, blockStart_aout, blockStart_host,
      blockStart_sched, blockStart_turns, retire_eq]

end Sys2Proof.Machine
end

section
/-! SUPPORT. The properties that every step keeps, each effect by the lemmas about its fields, and the run from reset that keeps
them all. -/

namespace Sys2Proof.Machine

/-! ### The delay memory (20 R100, 10 R60) -/

/-- The memory has its canonical form and lists addresses of the delay space only. -/
def Memory.InSpace (dlen : Nat) (m : Memory) : Prop := Memory.wf m ∧ ∀ x ∈ m, x.1 < 128 * dlen

theorem Memory.InSpace.clearWords {dlen : Nat} {m : Memory} (h : m.InSpace dlen) (c : Chan) (b : Band) :
    Memory.InSpace dlen (clearWords m dlen c b) :=
  ⟨clearWords_wf h.1 dlen c b, fun x hx => h.2 x (List.mem_of_mem_filter hx)⟩

theorem Memory.InSpace.dWrite {dlen : Nat} {m : Memory} (h : m.InSpace dlen) (c : Chan) (b : Band) {i : Nat} (hi : i < dlen)
    (v : F32) : Memory.InSpace dlen (dWrite m c b i v) := by
  have haddr := wordAddr_lt c b hi
  refine ⟨dWrite_wf h.1 c b i v, fun x hx => ?_⟩
  have hbyte {m : Memory} {a : Nat} {v : Byte} (hm : ∀ x ∈ m, x.1 < 128 * dlen) (ha : a < 128 * dlen) :
      ∀ x ∈ writeByte m a v, x.1 < 128 * dlen := fun x hx => by
    rcases mem_writeByte hx with hx | ⟨rfl, -⟩
    · exact hm x hx
    · exact ha
  exact hbyte (hbyte (hbyte (hbyte h.2 (by omega)) (by omega)) (by omega)) (by omega) x hx

theorem memoryCanonical_iff (s : State) :
    MemoryCanonical s ↔ Memory.InSpace s.cfg.lits.dlen s.mem ∧ CursorsInRange s := by
  simp only [MemoryCanonical, Memory.InSpace, and_assoc]

theorem cursorsInRange_of_lines {s t : State} (hs : CursorsInRange s) (hcfg : t.cfg = s.cfg)
    (h : ∀ c b, (laneGet t.lines c b).w = (laneGet s.lines c b).w ∨ (laneGet t.lines c b).w = 0) : CursorsInRange t := by
  intro c b
  have hw := hs c b
  rw [hcfg]
  rcases h c b with h | h <;> omega

/-- Settles O47: clearing and writing words keep the memory in its space, and only a frame moves cursors. -/
theorem memoryStaysCanonical : Obligations.MemoryStaysCanonical := by
  intro s t hs h
  refine step_keeps (P := MemoryCanonical) (fun s _ _ _ _ _ _ _ hs => hs) (fun s _ _ hs => hs) (fun s hs => hs)
    (fun s _ _ _ hs => hs) (fun s _ _ hs => hs) (fun s fs _ _ hs => ?init) (fun s n _ _ _ _ hs => ?start)
    (fun s _ _ hs => hs) (fun s y _ _ _ hs => ?push) (fun s x _ _ _ hs => ?comp) hs h
  all_goals
    rw [memoryCanonical_iff] at hs ⊢
    obtain ⟨hmem, hcur⟩ := hs
  case init =>
    rw [initEffect_cfg]
    exact ⟨initEffect_mem_keeps fs s (fun m c b hm => hm.clearWords c b) hmem,
      cursorsInRange_of_lines hcur (initEffect_cfg ..) fun c b => .inr (by rw [initEffect_lines])⟩
  case start =>
    rw [blockStart_cfg]
    refine ⟨blockStart_mem_keeps n s (fun m c b _ hm => hm.clearWords c b) hmem,
      cursorsInRange_of_lines hcur (blockStart_cfg ..) fun c b => ?_⟩
    rw [blockStart_lines]
    split
    · exact .inl rfl
    · exact .inr rfl
  case push =>
    rw [outPush_cfg, outPush_mem]
    exact ⟨hmem, cursorsInRange_of_lines hcur (outPush_cfg ..) fun c b => .inl (by rw [outPush_lines])⟩
  case comp =>
    rw [frame_cfg]
    exact (frame_mem_keeps x s hcur (fun m c b i v hi hm => hm.dWrite c b hi v) hmem).symm

/-! ### Noise generators (10 R59) -/

theorem lfoAdvance_rng_ne_zero {dn : Denorm} {l : Lfo} (h : l.rng ≠ 0#32) : (lfoAdvance dn l).rng ≠ 0#32 := by
  unfold lfoAdvance
  split
  · exact fun h0 => h ((xs32_eq_zero_iff _).mp h0)
  · exact h

/-- Settles O49: only a frame draws, and a generator that is not 0 draws a state that is not 0. -/
theorem noiseNeverDies : Obligations.NoiseNeverDies := by
  intro s t hs h
  refine step_keeps (P := NoiseAlive) (fun s _ _ _ _ _ _ _ hs => hs) (fun s _ _ hs => hs) (fun s hs => hs)
    (fun s _ _ _ hs => hs) (fun s _ _ hs => hs) (fun s fs _ _ hs b => ?init) (fun s n _ _ _ _ hs b => ?start)
    (fun s _ _ hs => hs) (fun s y _ _ _ hs b => ?push) (fun s x _ _ _ hs b => ?comp) hs h
  case init => rw [initEffect_lfo]; exact hs b
  case start => rw [blockStart_lfo]; exact hs b
  case push => rw [outPush_lfo]; exact hs b
  case comp => rw [frame_lfo]; exact lfoAdvance_rng_ne_zero (hs b)

/-! ### E.mode and E.left (10 R41) -/

@[simp] theorem outPush_mode (y : AudioFrame) (s : State) :
    (outPush y s).mode = if s.left - 1 = 0 then .idle else s.mode := by
  unfold outPush
  dsimp only
  split <;> rfl

/-- Settles O50. -/
theorem sequencingStaysSound : Obligations.SequencingStaysSound := by
  intro s t hs h
  refine step_keeps (P := Sequenced) (fun s _ _ _ _ _ _ _ hs => hs) (fun s _ _ hs => hs) (fun s hs => hs)
    (fun s _ _ _ hs => hs) (fun s _ _ hs => hs) (fun s fs _ _ hs => ?init) (fun s n hm hi h1 hn hs => ?start)
    (fun s hm hl hs => ?stop) (fun s y hm hl _ hs => ?push) (fun s x hm _ _ hs => ?comp) hs h
  case init => simpa only [Sequenced, initEffect_mode, initEffect_left, initEffect_out, initEffect_cfg] using hs
  case start => exact ⟨fun h => by simp at h, fun _ => ⟨h1, by simpa using hn⟩⟩
  case stop => exact absurd (hs.2 hm).1 (by omega)
  case push =>
    obtain ⟨-, hle⟩ := hs.2 hm
    refine ⟨fun hidle => ?_, fun hrun => ?_⟩
    · rw [outPush_mode, hm] at hidle
      split at hidle
      next h0 => exact ⟨by rw [outPush_left, h0], outPush_out ..⟩
      next => exact absurd hidle (by decide)
    · rw [outPush_mode] at hrun
      split at hrun
      next => exact absurd hrun (by decide)
      next h0 => rw [outPush_left, outPush_cfg]; omega
  case comp =>
    refine ⟨fun hidle => ?_, fun _ => by simpa using hs.2 hm⟩
    rw [frame_mode, hm] at hidle
    exact absurd hidle (by decide)

/-! ### INIT_DONE (10 R53, R54, R61) -/

@[simp] theorem Status.record_initDone (e : ErrorCode) (op : BitVec 8) (st : Status) :
    (st.record e op).initDone = st.initDone := by
  unfold Status.record
  split <;> rfl

/-- What INIT_DONE says, with the two fields apart that the command side and the end of a block change. -/
theorem InitSound.of_fields {s t : State} (hs : InitSound s) (hdone : t.status.initDone = s.status.initDone)
    (hcfg : t.cfg = s.cfg) (hsr : t.sr = s.sr) (hdmax : t.dmax = s.dmax)
    (hknown : ∀ c b, (laneGet s.lines c b).known = true → (laneGet t.lines c b).known = true)
    (hmode : s.status.initDone = false → s.mode = .idle → t.mode = .idle) : InitSound t := by
  unfold InitSound at hs ⊢
  rw [hdone, hcfg, hsr, hdmax]
  split
  next hd =>
    rw [if_pos hd] at hs
    obtain ⟨hrate, hd, hk⟩ := hs
    exact ⟨hrate, hd, fun c b => hknown c b (hk c b)⟩
  next hd =>
    rw [if_neg hd] at hs
    exact ⟨hs.1, hmode (Bool.eq_false_of_not_eq_true hd) hs.2⟩

theorem InitSound.of_blockStart {n : Nat} {s t : State} (hs : InitSound s) (hi : s.status.initDone = true)
    (ht : t = blockStart n s) : InitSound t := by
  have hlines (c : Chan) (b : Band) (h : (laneGet s.lines c b).known = true) : (laneGet t.lines c b).known = true := by
    rw [ht, blockStart_lines]
    split
    · exact h
    · rfl
  exact hs.of_fields (by rw [ht, blockStart_status]) (ht ▸ blockStart_cfg n s) (ht ▸ blockStart_sr n s)
    (ht ▸ blockStart_dmax n s) hlines fun hno => absurd hi (by rw [hno]; decide)

theorem InitSound.of_initEffect {fs : F32} {s t : State} (hr : legalRate s.cfg.lits fs = true) (ht : t = initEffect fs s) :
    InitSound t := by
  have hdone : t.status.initDone = true := by rw [ht, initEffect_status]
  rw [InitSound, if_pos hdone, ht, initEffect_sr, initEffect_cfg, initEffect_dmax]
  exact ⟨hr, rfl, fun c b => by rw [initEffect_lines]⟩

theorem InitSound.of_outPush {y : AudioFrame} {s t : State} (hs : InitSound s) (ht : t = outPush y s) : InitSound t := by
  refine hs.of_fields (by rw [ht, outPush_status]) (ht ▸ outPush_cfg y s) (ht ▸ outPush_sr y s) (ht ▸ outPush_dmax y s)
    (fun c b hk => ?_) fun _ hm => ?_
  · rw [ht, outPush_lines]; exact hk
  · rw [ht, outPush_mode, hm, ite_self]

theorem InitSound.of_frame {x : AudioFrame} {s t : State} (hs : InitSound s) (ht : t = frame x s) : InitSound t := by
  refine hs.of_fields (by rw [ht, frame_status]) (ht ▸ frame_cfg x s) (ht ▸ frame_sr x s) (ht ▸ frame_dmax x s)
    (fun c b hk => ?_) fun _ hm => ?_
  · rw [ht, frame_known]; exact hk
  · rw [ht, frame_mode, hm]

/-- Settles O51: INIT sets what INIT_DONE says, a block starts only after it, and nothing else changes what it is said of. -/
theorem initialisationStaysSound : Obligations.InitialisationStaysSound := by
  intro s t hs h
  refine step_keeps (P := InitSound) (fun s _ _ _ _ _ _ _ hs => hs) (fun s _ _ hs => ?error) (fun s hs => hs)
    (fun s _ _ _ hs => hs) (fun s _ _ hs => hs) (fun s fs _ hr _ => ?init) (fun s n _ hi _ _ hs => ?start)
    (fun s _ _ hs => ?stop) (fun s y _ _ _ hs => ?push) (fun s x _ _ _ hs => ?comp) hs h
  case error => exact hs.of_fields (Status.record_initDone ..) rfl rfl rfl (fun _ _ h => h) fun _ h => h
  case init =>
    generalize ht : initEffect fs s = t
    exact InitSound.of_initEffect hr ht.symm
  case start =>
    generalize ht : blockStart n s = t
    exact hs.of_blockStart hi ht.symm
  case stop => exact hs.of_fields rfl rfl rfl rfl (fun _ _ h => h) fun _ _ => rfl
  case push =>
    generalize ht : outPush y s = t
    exact hs.of_outPush ht.symm
  case comp =>
    generalize ht : frame x s = t
    exact hs.of_frame ht.symm

/-! ### The error fields of STATUS (10 R54, 60 R503) -/

theorem errorNumber_bounds (e : ErrorCode) : 1 ≤ (errorNumber e).toNat ∧ (errorNumber e).toNat ≤ 5 := by
  cases e <;> decide

/-- Settles O54: an error writes a number from 1 to 5 or only ERR_OVF, and nothing but INIT and CLR_STATUS writes STATUS
otherwise. -/
theorem statusStaysSound : Obligations.StatusStaysSound := by
  intro s t hs h
  refine step_keeps (P := StatusSound) (fun s _ _ _ _ _ _ _ hs => hs) (fun s e op hs => ?error) (fun s hs => ?clear)
    (fun s _ _ _ hs => hs) (fun s _ _ hs => hs) (fun s fs _ _ hs => ?init) (fun s n _ _ _ _ hs => ?start)
    (fun s _ _ hs => hs) (fun s y _ _ _ hs => ?push) (fun s x _ _ _ hs => ?comp) hs h
  case error =>
    cases herr : s.status.err with
    | true => simpa [StatusSound, Status.record, herr] using hs
    | false => simpa [StatusSound, Status.record, herr] using errorNumber_bounds e
  case clear => simp [StatusSound, Status.cleared]
  case init => simpa [StatusSound] using hs
  case start => simpa [StatusSound] using hs
  case push => simpa [StatusSound] using hs
  case comp => simpa [StatusSound] using hs

/-! ### Filters (10 R56, 40 R207) -/

/-- Settles O52: an INIT makes the key invalid and every tap +0.0; a block's start clears what it deactivates and leaves quiet what
was inactive; a frame processes the sections that the key makes active. -/
theorem inactiveSectionsStayQuiet : Obligations.InactiveSectionsStayQuiet := by
  intro s t hs h
  refine step_keeps (P := FiltersSound) (fun s _ _ _ _ _ _ _ hs => hs) (fun s _ _ hs => hs) (fun s hs => hs)
    (fun s _ _ _ hs => hs) (fun s _ _ hs => hs) (fun s fs hm _ hs => ?init) (fun s n _ _ _ _ hs => ?start)
    (fun s _ _ hs => ?stop) (fun s y hm _ _ hs => ?push) (fun s x hm _ _ hs => ?comp) hs h
  case init =>
    refine ⟨fun hrun => ?_, fun c b k _ => by rw [initEffect_section]; exact ⟨rfl, rfl⟩⟩
    rw [initEffect_mode, hm] at hrun
    exact absurd hrun (by decide)
  case start =>
    refine ⟨fun _ => ?_, fun c b k hk => ?_⟩
    · rw [blockStart_key]
      simp only [wantedKey, latch_active, latch_sr, blockStart_active, blockStart_sr]
    · have hinactive : activeSections s.staging.order ≤ k.val := by
        rw [blockStart_key] at hk
        exact hk rfl
      rw [blockStart_filters]
      by_cases hkey : (latch s).key = wantedKey (latch s)
      · rw [filterUpdate_of_key hkey]
        refine hs.2 c b k fun _ => ?_
        rw [latch_key] at hkey
        rw [hkey]
        exact hinactive
      · obtain ⟨-, hquiet, hkeep⟩ := filterUpdate_section hkey c b k
        by_cases hd : Deactivated (latch s) k
        · exact hquiet hd
        · obtain ⟨h1, h2⟩ := hkeep hd
          obtain ⟨q1, q2⟩ := hs.2 c b k fun hv => Nat.le_of_not_lt fun hlt => hd ⟨hv, hinactive, hlt⟩
          exact ⟨h1.trans q1, h2.trans q2⟩
  case stop => exact ⟨fun hrun => absurd hrun (by simp), hs.2⟩
  case push =>
    refine ⟨fun _ => ?_, fun c b k => ?_⟩
    · rw [outPush_key]
      simpa [wantedKey] using hs.1 hm
    · rw [outPush_key, outPush_filters]
      exact hs.2 c b k
  case comp =>
    have hkey := hs.1 hm
    refine ⟨fun _ => ?_, fun c b k hk => ?_⟩
    · rw [frame_key]
      simpa [wantedKey] using hkey
    · rw [frame_key] at hk
      have hinactive : activeSections s.active.order ≤ k.val := by
        rw [hkey] at hk
        exact hk rfl
      rw [frame_filters, (filterProcess_section ..).2 hinactive]
      exact hs.2 c b k hk

theorem frame_coef (x : AudioFrame) (s : State) (c : Chan) (b : Band) (k : Sec) :
    (laneGet (frame x s).filters c b)[k].coef = (laneGet s.filters c b)[k].coef := by
  rw [frame_filters]
  exact (filterProcess_section ..).1

theorem initEffect_coef (fs : F32) (s : State) (c : Chan) (b : Band) (k : Sec) :
    (laneGet (initEffect fs s).filters c b)[k].coef = (laneGet s.filters c b)[k].coef := by
  rw [initEffect_section]

theorem channelsAgree_step {s t : State} (hs : ChannelsAgree s) (h : step s = .next t) : ChannelsAgree t := by
  refine step_keeps (P := ChannelsAgree) (fun s _ _ _ _ _ _ _ hs => hs) (fun s _ _ hs => hs) (fun s hs => hs)
    (fun s _ _ _ hs => hs) (fun s _ _ hs => hs) (fun s fs _ _ hs b k => ?init) (fun s n _ _ _ _ hs b k => ?start)
    (fun s _ _ hs => hs) (fun s y _ _ _ hs b k => ?push) (fun s x _ _ _ hs b k => ?comp) hs h
  case init => rw [initEffect_coef, initEffect_coef]; exact hs b k
  case start =>
    rw [blockStart_filters]
    by_cases hkey : (latch s).key = wantedKey (latch s)
    · rw [filterUpdate_of_key hkey]; exact hs b k
    · rw [(filterUpdate_section hkey 0 b k).1, (filterUpdate_section hkey 1 b k).1]
      split
      · rfl
      · exact hs b k
  case push => rw [outPush_filters]; exact hs b k
  case comp => rw [frame_coef, frame_coef]; exact hs b k

theorem SectionsStable.of_filters {s t : State} (hs : SectionsStable s) (hcfg : t.cfg = s.cfg) (hkey : t.key = s.key)
    (hcoef : ∀ c b, ∀ k : Sec, (laneGet t.filters c b)[k].coef = (laneGet s.filters c b)[k].coef) : SectionsStable t := by
  intro hconf hvalid c b k hk
  rw [hcoef]
  exact hs (hcfg ▸ hconf) (hkey ▸ hvalid) c b k (hkey ▸ hk)

/-- The sections that BLOCK.START makes active have the platform's coefficients for a rate that INIT accepted. -/
theorem SectionsStable.of_blockStart {n : Nat} {s t : State} (hs : SectionsStable s)
    (hr : legalRate s.cfg.lits s.sr = true) (ht : t = blockStart n s) : SectionsStable t := by
  subst ht
  intro hconf _ c b k hk
  rw [blockStart_cfg] at hconf
  rw [blockStart_key] at hk
  rw [blockStart_filters]
  by_cases hkey : (latch s).key = wantedKey (latch s)
  · rw [filterUpdate_of_key hkey]
    rw [← hkey] at hk
    exact hs hconf (by rw [← latch_key, hkey]; rfl) c b k hk
  · have hactive : k.val < activeSections (latch s).active.order := hk
    rw [(filterUpdate_section hkey c b k).1, if_pos hactive]
    exact hconf s.sr _ _ b k hr hk

theorem sectionsStable_step {s t : State} (hi : InitSound s) (hs : SectionsStable s) (h : step s = .next t) :
    SectionsStable t := by
  refine (step_keeps (P := fun s => InitSound s ∧ SectionsStable s) (fun s _ _ _ _ _ _ _ hs => hs) (fun s _ _ hs => ?error)
    (fun s hs => hs) (fun s _ _ _ hs => hs) (fun s _ _ hs => hs) (fun s fs _ hr _ => ?init)
    (fun s n _ hi _ _ hs => ?start) (fun s _ _ hs => ?stop) (fun s y _ _ _ hs => ?push) (fun s x _ _ _ hs => ?comp)
    ⟨hi, hs⟩ h).2
  case error =>
    exact ⟨hs.1.of_fields (Status.record_initDone ..) rfl rfl rfl (fun _ _ h => h) fun _ h => h, hs.2⟩
  case init =>
    generalize ht : initEffect fs s = t
    refine ⟨InitSound.of_initEffect hr ht.symm, fun _ hv => ?_⟩
    rw [← ht, initEffect_key] at hv
    exact absurd hv Bool.false_ne_true
  case start =>
    generalize ht : blockStart n s = t
    have hrate : legalRate s.cfg.lits s.sr = true := by
      have := hs.1
      rw [InitSound, if_pos hi] at this
      exact this.1
    exact ⟨hs.1.of_blockStart hi ht.symm, hs.2.of_blockStart hrate ht.symm⟩
  case stop => exact ⟨hs.1.of_fields rfl rfl rfl rfl (fun _ _ h => h) fun _ _ => rfl, hs.2⟩
  case push =>
    generalize ht : outPush y s = t
    exact ⟨hs.1.of_outPush ht.symm, hs.2.of_filters (ht ▸ outPush_cfg y s) (ht ▸ outPush_key y s) fun c b k => by
      rw [← ht, outPush_filters]⟩
  case comp =>
    generalize ht : frame x s = t
    exact ⟨hs.1.of_frame ht.symm, hs.2.of_filters (ht ▸ frame_cfg x s) (ht ▸ frame_key x s) fun c b k => by
      rw [← ht, frame_coef]⟩

/-- Settles O53: FILTER.UPDATE gives both channels the same coefficients, and what it gives at an accepted rate a conforming
platform makes stable. -/
theorem channelCoefficientsStayEqual : Obligations.ChannelCoefficientsStayEqual :=
  ⟨fun _ _ => channelsAgree_step, fun _ _ => sectionsStable_step⟩

/-! ### The lines of disabled bands (42 R289) -/

theorem laneStep_disabled (c : Chan) (x a : F32) (s : State) (b : Band) (h : (param s b).dlyEn = false) :
    (laneStep c x (s, a) b).1 = (bandFilter c b x s).1 := by
  have hp : (param (bandFilter c b x s).1 b).dlyEn = false := h
  rw [laneStep, bandDelay_disabled c b _ _ hp]

/-- A frame neither reads nor writes the line of a disabled band. -/
theorem frame_disabled (x : AudioFrame) (s : State) (c : Chan) (b : Band) (h : (param s b).dlyEn = false) :
    laneGet (frame x s).lines c b = laneGet s.lines c b ∧ ∀ i, dRead (frame x s).mem c b i = dRead s.mem c b i := by
  refine (frame_induct (P := fun t => t.active = s.active ∧ laneGet t.lines c b = laneGet s.lines c b ∧
    ∀ i, dRead t.mem c b i = dRead s.mem c b i) (fun t b' ht => ht) (fun c' y t a b' ht => ?_) (fun c' y t ht => ht)
    (fun t y ht => ht) x s ⟨rfl, rfl, fun _ => rfl⟩).2
  obtain ⟨hact, hline, hmem⟩ := ht
  refine ⟨by rw [laneStep_active, hact], ?_⟩
  by_cases hb : c = c' ∧ b = b'
  · obtain ⟨rfl, rfl⟩ := hb
    rw [laneStep_disabled c y a t b (by rw [param_of_active hact, h])]
    exact ⟨hline, hmem⟩
  · obtain ⟨-, hline', hmem'⟩ := laneStep_other c' y a t b' hb
    exact ⟨hline'.trans hline, fun i => (hmem' i).trans (hmem i)⟩

theorem LineSilent.of_line {s t : State} {c : Chan} {b : Band} (hs : LineSilent s c b) (hcfg : t.cfg = s.cfg)
    (hline : laneGet t.lines c b = laneGet s.lines c b) (hmem : ∀ i, dRead t.mem c b i = dRead s.mem c b i) :
    LineSilent t c b := by
  obtain ⟨hw, hfb, hzero⟩ := hs
  exact ⟨by rw [hline, hw], by rw [hline, hfb], fun i hi => (hmem i).trans (hzero i (hcfg ▸ hi))⟩

/-- Settles O55: a block's start clears the lines of its disabled bands, and no frame of the block touches them. -/
theorem disabledLinesStaySilent : Obligations.DisabledLinesStaySilent := by
  intro s t hs h
  refine step_keeps (P := DisabledSilent) (fun s _ _ _ _ _ _ _ hs => hs) (fun s _ _ hs => hs) (fun s hs => hs)
    (fun s _ _ _ hs => hs) (fun s _ _ hs => hs) (fun s fs hm _ _ hrun => ?init)
    (fun s n _ _ _ _ _ _ b hb c => ?start) (fun s _ _ _ hrun => ?stop) (fun s y hm _ _ hs _ b hb c => ?push)
    (fun s x hm _ _ hs _ b hb c => ?comp) hs h
  case init =>
    rw [initEffect_mode, hm] at hrun
    exact absurd hrun (by decide)
  case start => exact blockStart_silent n s c (by rwa [param, blockStart_active] at hb)
  case stop => exact absurd hrun (by rw [blockEnd_mode]; decide)
  case push =>
    have hb' : (param s b).dlyEn = false := by rwa [param, outPush_active] at hb
    exact (hs hm b hb' c).of_line (outPush_cfg y s) (by rw [outPush_lines]) fun i => by rw [outPush_mem]
  case comp =>
    have hb' : (param s b).dlyEn = false := by rwa [param, frame_active] at hb
    obtain ⟨hline, hmem⟩ := frame_disabled x s c b hb'
    exact (hs hm b hb' c).of_line (frame_cfg x s) hline hmem

/-! ### Parameters (10 R50, R52) -/

theorem fle_posZero_one : fle posZero one = true := by decide

theorem flush_posZero (dn : Denorm) : flush dn posZero = posZero := flush_zero dn false

theorem flush_one (dn : Denorm) : flush dn one = one := by cases dn <;> decide

theorem flush_negOne (dn : Denorm) : flush dn negOne = negOne := by cases dn <;> decide

/-- A field clamped to [0.0, hi] is inside it, for any bound that can make a domain. -/
theorem fclamp_posZero_inDomain {dn : Denorm} {hi : F32} (h : isBound dn hi) (x : F32) :
    inDomain (fclamp dn x posZero hi) posZero hi :=
  fclamp_inDomain dn x h.1 (flush_posZero dn) h.2

theorem isBound_one (dn : Denorm) : isBound dn one := ⟨fle_posZero_one, flush_one dn⟩

/-- What a per-band setter stores is legal where the band was. -/
theorem BandEdit.legal {cfg : Platform} (hl : LiteralsBounded cfg) {f : BandParams → BandParams} (hf : BandEdit cfg f)
    {p : BandParams} (hp : p.legal cfg.lits) : (f p).legal cfg.lits := by
  obtain ⟨hgain, hrate, hdepth, hofs, htime, hfb, hmix⟩ := hp
  obtain ⟨bgain, btime, bfb, -⟩ := hl
  cases hf with
  | gain x => exact ⟨fclamp_posZero_inDomain bgain x, hrate, hdepth, hofs, htime, hfb, hmix⟩
  | pol n => exact ⟨hgain, hrate, hdepth, hofs, htime, hfb, hmix⟩
  | lfoRate x => exact ⟨hgain, fclamp_posZero_inDomain (isBound_one _) x, hdepth, hofs, htime, hfb, hmix⟩
  | lfoDepth x => exact ⟨hgain, hrate, fclamp_posZero_inDomain (isBound_one _) x, hofs, htime, hfb, hmix⟩
  | lfoOfs x =>
    exact ⟨hgain, hrate, hdepth, fclamp_inDomain _ x (by decide) (flush_negOne _) (flush_one _), htime, hfb, hmix⟩
  | lfoEn n => exact ⟨hgain, hrate, hdepth, hofs, htime, hfb, hmix⟩
  | dlyTime x => exact ⟨hgain, hrate, hdepth, hofs, fclamp_posZero_inDomain btime x, hfb, hmix⟩
  | dlyFb x => exact ⟨hgain, hrate, hdepth, hofs, htime, fclamp_posZero_inDomain bfb x, hmix⟩
  | dlyMix x => exact ⟨hgain, hrate, hdepth, hofs, htime, hfb, fclamp_posZero_inDomain (isBound_one _) x⟩
  | dlyEn n => exact ⟨hgain, hrate, hdepth, hofs, htime, hfb, hmix⟩

theorem GlobalEdit.legal {cfg : Platform} (hl : LiteralsBounded cfg) {f : ParamSet → ParamSet} (hf : GlobalEdit cfg.lits f)
    {p : ParamSet} (hp : p.legal cfg.lits) : (f p).legal cfg.lits := by
  obtain ⟨hband, hmin, hmax⟩ := hp
  obtain ⟨-, -, -, hrange⟩ := hl
  refine ⟨fun b => by rw [hf.keeps_band]; exact hband b, ?_⟩
  cases hf with
  | order n =>
    have horder := activeSections_clampOrder cfg.lits n
    simp only
    omega
  | design n => exact ⟨hmin, hmax⟩
  | route n => exact ⟨hmin, hmax⟩
  | wave n => exact ⟨hmin, hmax⟩

theorem stageBand_legal {b : Band} {f : BandParams → BandParams} {s : State} (hf : BandEdit s.cfg f) (hl : LiteralsBounded s.cfg)
    (hs : s.staging.legal s.cfg.lits) : (stageBand b f s).staging.legal s.cfg.lits := by
  obtain ⟨hband, horder⟩ := hs
  refine ⟨fun b' => ?_, horder⟩
  simp only [stageBand]
  rw [bank_set_get]
  split
  · exact hf.legal hl (hband b)
  · exact hband b'

/-- Settles O48: a setter clamps what it stores, and the active set is only ever a copy of the staging set. -/
theorem parametersStayLegal : Obligations.ParametersStayLegal := by
  intro s t hs h
  refine step_keeps (P := ParamsLegal) (fun s _ _ _ _ _ _ _ hs => hs) (fun s _ _ hs => hs) (fun s hs => hs)
    (fun s b f hf hs => ?band) (fun s f hf hs => ?glob) (fun s fs _ _ hs => ?init) (fun s n _ _ _ _ hs => ?start)
    (fun s _ _ hs => hs) (fun s y _ _ _ hs => ?push) (fun s x _ _ _ hs => ?comp) hs h
  all_goals obtain ⟨hlits, hstaged, hactive⟩ := hs
  case band => exact ⟨hlits, stageBand_legal hf hlits hstaged, hactive⟩
  case glob => exact ⟨hlits, hf.legal hlits hstaged, hactive⟩
  case init => rw [ParamsLegal, initEffect_cfg, initEffect_staging, initEffect_active]; exact ⟨hlits, hstaged, hactive⟩
  case start => rw [ParamsLegal, blockStart_cfg, blockStart_staging, blockStart_active]; exact ⟨hlits, hstaged, hstaged⟩
  case push => rw [ParamsLegal, outPush_cfg, outPush_staging, outPush_active]; exact ⟨hlits, hstaged, hactive⟩
  case comp => rw [ParamsLegal, frame_cfg, frame_staging, frame_active]; exact ⟨hlits, hstaged, hactive⟩

/-! ### Reset and runs (10 R80, 60 R543) -/

theorem paramSet_reset_legal : ParamSet.reset.legal Platform.default.lits := by
  refine ⟨fun b => ?_, by decide, by decide⟩
  have hband : ParamSet.reset.band[b] = BandParams.reset := Vector.getElem_replicate b.isLt
  rw [hband]
  decide

/-- Settles O56: after reset the memory is empty, the parameters are at values inside their domains, every seed is not 0, the
engine is idle, and neither STATUS nor the key says anything. -/
theorem resetHasEveryInvariant : Obligations.ResetHasEveryInvariant := by
  have hsection := resetOf_section Platform.default
  refine ⟨⟨reset_mem_wf, fun x hx => absurd hx List.not_mem_nil, fun c b => ?_⟩,
    ⟨by decide, paramSet_reset_legal, paramSet_reset_legal⟩, fun b => ?_, ⟨fun _ => ⟨rfl, rfl⟩, (nomatch ·)⟩,
    ⟨rfl, rfl⟩, ⟨(nomatch ·), fun c b k _ => ?_⟩, fun b k => ?_, fun _ => (nomatch ·), ⟨rfl, rfl, rfl⟩, (nomatch ·)⟩
  · rw [State.reset, resetOf_line]; decide
  · rw [State.reset, resetOf_lfo]
    revert b
    decide
  · rw [State.reset, hsection]; exact ⟨rfl, rfl⟩
  · rw [State.reset, hsection, hsection]

theorem stateSound_step {s t : State} (hs : StateSound s) (h : step s = .next t) : StateSound t := by
  obtain ⟨hmem, hparams, hnoise, hseq, hinit, hfilters, hchannels, hstable, hstatus, hsilent⟩ := hs
  exact ⟨memoryStaysCanonical s t hmem h, parametersStayLegal s t hparams h, noiseNeverDies s t hnoise h,
    sequencingStaysSound s t hseq h, initialisationStaysSound s t hinit h, inactiveSectionsStayQuiet s t hfilters h,
    channelsAgree_step hchannels h, sectionsStable_step hinit hstable h, statusStaysSound s t hstatus h,
    disabledLinesStaySilent s t hsilent h⟩

theorem InitSound.initDone_of_running {s : State} (hs : InitSound s) (hm : s.mode = .running) : s.status.initDone = true := by
  by_contra hno
  rw [InitSound, if_neg hno] at hs
  rw [hs.2] at hm
  exact absurd hm (by decide)

/-- While a block runs every delay line is defined, so the engine can read it. -/
theorem framesReadable_of_running {s : State} (hs : InitSound s) (hm : s.mode = .running) : framesReadable s = true := by
  have hdone := hs.initDone_of_running hm
  rw [InitSound, if_pos hdone] at hs
  obtain ⟨-, -, hknown⟩ := hs
  simp [framesReadable, hknown]

theorem exec_completes (i : Instr) (s : State) : ∃ t, exec i s = .next t := by
  obtain ⟨-, hheld, hfree⟩ := commandsHoldOrComplete i s
  cases h : holds i s with
  | true => exact ⟨s, hheld h⟩
  | false => exact (hfree h).imp fun t ht => ht.1

theorem decoderMove_completes (s : State) : ∃ t, decoderMove s = .next t := by
  unfold decoderMove
  split
  · split
    · exact ⟨_, rfl⟩
    · exact exec_completes ..
  · exact ⟨_, rfl⟩

/-- The one fault of the machine is a frame that would read an undefined line. -/
theorem engineMove_completes {s : State} (h : s.mode = .running → framesReadable s = true) : ∃ t, engineMove s = .next t := by
  unfold engineMove
  split
  · exact ⟨_, rfl⟩
  next hm =>
    split
    · exact ⟨_, rfl⟩
    · split
      · split <;> exact ⟨_, rfl⟩
      · split
        · rw [if_pos (h hm)]; exact ⟨_, rfl⟩
        · exact ⟨_, rfl⟩

theorem afterPick_eq (s : State) : ∃ l n, afterPick s = { s with sched := l, turns := n } := by
  unfold afterPick
  split
  · exact ⟨_, _, rfl⟩
  · exact ⟨s.sched, s.turns, rfl⟩

theorem step_completes {s : State} (hs : InitSound s) : ∃ t, step s = .next t := by
  obtain ⟨l, n, hpick⟩ := afterPick_eq s
  unfold step
  split
  · exact ⟨_, rfl⟩
  next a _ =>
    rw [hpick]
    cases a with
    | host => exact ⟨_, rfl⟩
    | decoder => exact decoderMove_completes _
    | engine => exact engineMove_completes fun hm => framesReadable_of_running (s := { s with sched := l, turns := n }) hs hm

/-- Settles O57: a sound state takes a step, to a sound state again. -/
theorem runsAreSafe : Obligations.RunsAreSafe := by
  have hsafe (n : Nat) : ∀ s, StateSound s → ∃ t, run n s = .next t := by
    induction n with
    | zero => exact fun s _ => ⟨s, rfl⟩
    | succ n ih =>
      intro s hs
      have hinit : InitSound s := by
        obtain ⟨-, -, -, -, hinit, -⟩ := hs
        exact hinit
      obtain ⟨t, ht⟩ := step_completes hinit
      obtain ⟨u, hu⟩ := ih t (stateSound_step hs ht)
      exact ⟨u, by rw [run, ht]; exact hu⟩
  exact ⟨fun s hs n => hsafe n s hs, fun n => hsafe n _ resetHasEveryInvariant⟩

end Sys2Proof.Machine
end

section
/-! SUPPORT. The engine's moves, alone and against the commands that do not reach the engine, and a whole block of them (44 R380 to
R384, 20 R113). -/

namespace Sys2Proof.Machine

/-! ### The four moves (44 R350, R382, R383) -/

theorem engineMove_take {s : State} (hm : s.mode = .running) (hl : 1 ≤ s.left) (ho : s.out = none) {x0 x1 : Word} {rest : List Word}
    (ha : s.ain = x0 :: x1 :: rest) (hr : framesReadable s = true) :
    engineMove s = .next (frame (x0, x1) { s with ain := rest }) := by
  have hleft : s.left ≠ 0 := by omega
  simp only [engineMove, hm, if_neg hleft, ho, ha, if_pos hr]

theorem engineMove_starved {s : State} (hm : s.mode = .running) (hl : 1 ≤ s.left) (ho : s.out = none) (ha : s.ain.length < 2) :
    engineMove s = .next s := by
  have hleft : s.left ≠ 0 := by omega
  simp only [engineMove, hm, if_neg hleft, ho]
  split
  next hain => rw [hain] at ha; simp at ha
  next => rfl

theorem engineMove_blocked {s : State} (hm : s.mode = .running) (hl : 1 ≤ s.left) {y : AudioFrame} (ho : s.out = some y)
    (ha : aoutFull s = true) : engineMove s = .next s := by
  have hleft : s.left ≠ 0 := by omega
  simp only [engineMove, hm, if_neg hleft, ho, if_pos ha]

theorem engineMove_push {s : State} (hm : s.mode = .running) (hl : 1 ≤ s.left) {y : AudioFrame} (ho : s.out = some y)
    (ha : aoutFull s = false) : engineMove s = .next { s with
      aout := s.aout ++ [y.1, y.2], out := none, left := s.left - 1, mode := if s.left = 1 then .idle else .running } := by
  have hleft : s.left ≠ 0 := by omega
  simp only [engineMove, hm, if_neg hleft, ho, ha, Bool.false_eq_true, ↓reduceIte, outPush, frameWords]
  by_cases h1 : s.left = 1
  · rw [if_pos (by omega), if_pos h1]; rfl
  · rw [if_neg (by omega), if_neg h1, ← hm]

/-- Settles O42. -/
theorem engineMoves : Obligations.EngineMoves := fun _ hm hl =>
  ⟨fun _ _ _ ho ha hr => engineMove_take hm hl ho ha hr, engineMove_starved hm hl,
    fun _ ho ha => engineMove_blocked hm hl ho ha, fun _ _ ho ha => engineMove_push hm hl ho ha⟩

/-! ### The engine and the command side (20 R113) -/

theorem withCommandSide_of_fields {s t : State} (hstaging : t.staging = s.staging) (hstatus : t.status = s.status)
    (hcmd : t.cmd = s.cmd) (hresp : t.resp = s.resp) : t.withCommandSide s = t := by
  rw [State.withCommandSide, ← hstaging, ← hstatus, ← hcmd, ← hresp]

/-- Settles O45. -/
theorem engineLeavesTheCommands : Obligations.EngineLeavesTheCommands := by
  intro s t h
  rcases engine_cases h with rfl | ⟨-, -, rfl⟩ | ⟨-, -, y, -, rfl⟩ | ⟨-, -, -, x0, x1, rest, -, -, rfl⟩
  · exact ⟨rfl, rfl, rfl, rfl, rfl, rfl, rfl⟩
  · exact ⟨rfl, rfl, rfl, rfl, rfl, rfl, rfl⟩
  · exact ⟨(withCommandSide_of_fields (outPush_staging y s) (outPush_status y s) (outPush_cmd y s) (outPush_resp y s)).symm,
      outPush_active y s, outPush_sr y s, outPush_cfg y s, outPush_host y s, outPush_sched y s, outPush_turns y s⟩
  · have hstaging := frame_staging (x0, x1) { s with ain := rest }
    have hstatus := frame_status (x0, x1) { s with ain := rest }
    have hcmd := frame_cmd (x0, x1) { s with ain := rest }
    have hresp := frame_resp (x0, x1) { s with ain := rest }
    exact ⟨(withCommandSide_of_fields hstaging hstatus hcmd hresp).symm, frame_active .., frame_sr .., frame_cfg ..,
      frame_host .., frame_sched .., frame_turns ..⟩

/-- The engine moves alike whatever the command side holds. -/
theorem engineMove_withCommandSide (s t : State) :
    engineMove (s.withCommandSide t) = mapNext (fun u => u.withCommandSide t) (engineMove s) := by
  have hreadable : framesReadable (s.withCommandSide t) = framesReadable s := rfl
  have hfull : aoutFull (s.withCommandSide t) = aoutFull s := rfl
  have hmode : (s.withCommandSide t).mode = s.mode := rfl
  have hleft : (s.withCommandSide t).left = s.left := rfl
  have hout : (s.withCommandSide t).out = s.out := rfl
  have hain : (s.withCommandSide t).ain = s.ain := rfl
  have hpush (y : AudioFrame) : outPush y (s.withCommandSide t) = (outPush y s).withCommandSide t := by
    unfold outPush
    dsimp only
    rw [hleft]
    split <;> rfl
  have hframe (x : AudioFrame) (rest : List Word) : frame x { s.withCommandSide t with ain := rest } =
      (frame x { s with ain := rest }).withCommandSide t := frame_withCommandSide x { s with ain := rest } t
  unfold engineMove
  rw [hmode, hleft, hout, hain, hreadable, hfull]
  split
  · rfl
  · split
    · rfl
    · split
      · split
        · rfl
        · rw [hpush]; rfl
      · split
        next x0 x1 rest _ =>
          split
          · exact congrArg Host.Outcome.next (hframe (x0, x1) rest)
          · rfl
        next => rfl

/-- What an engine state is to a command: the state the command sees, in the engine state u. -/
def State.seenBy (u s : State) : State := { u.withCommandSide s with cfg := s.cfg, sr := s.sr }

theorem answerGet_seenBy (w : Word) (u s : State) :
    answerGet w (u.seenBy s) = mapNext (fun t => u.seenBy t) (answerGet w s) := by
  have hfull : respFull (u.seenBy s) = respFull s := rfl
  unfold answerGet
  rw [hfull]
  split <;> rfl

/-- A command that neither reaches the engine nor reads BUSY does alike in every engine state. -/
theorem exec_seenBy {i : Instr} (hr : i.reachesEngine = false) (hb : i.readsBusy = false) (u s : State) :
    exec i (u.seenBy s) = mapNext (fun t => u.seenBy t) (exec i s) := by
  cases i
  case init | block => cases hr
  case getStatus => cases hb
  case nop | clrStatus | setGain | setPol | setLfoRate | setLfoDepth | setLfoOfs | setLfoEn | setDlyTime | setDlyFb | setDlyMix
    | setDlyEn | setDesign | setOrder | setRoute | setWave => rfl
  all_goals exact answerGet_seenBy _ u s

/-- Settles O46: the engine does not read what the command changes, nor the command what the engine changes. -/
theorem commandsAndEngineCommute : Obligations.CommandsAndEngineCommute := by
  intro i s t u hr hb hexec hengine
  have ht := commandsLeaveTheEngine i s t hr hexec
  obtain ⟨hu, -, hsr, hcfg, -⟩ := engineLeavesTheCommands s u hengine
  constructor
  · rw [ht, engineMove_withCommandSide, hengine]
    rfl
  · have hseen : u.seenBy s = u := by rw [State.seenBy, ← hsr, ← hcfg, ← hu]
    have hrun := exec_seenBy hr hb u s
    have htu : u.seenBy t = u.withCommandSide t := by
      rw [State.seenBy, ht]
      show { u.withCommandSide t with cfg := s.cfg, sr := s.sr } = u.withCommandSide t
      rw [← hsr, ← hcfg]
      rfl
    rw [hseen, hexec] at hrun
    rw [hrun, mapNext, htu]

/-! ### A whole block (44 R380 to R383) -/

theorem framesRun_keeps {β : Type} (p : State → β) (h : ∀ x s, p (frame x s) = p s) (xs : List AudioFrame) (s : State) :
    p (framesRun xs s) = p s :=
  foldl_keeps (fun s x => frame x s) p (fun s x => h x s) xs s

/-- The sequencing fields set to these values. -/
def State.withSequence (s : State) (m : Mode) (n : Nat) (o : Option AudioFrame) (i a : List Word) : State :=
  { s with mode := m, left := n, out := o, ain := i, aout := a }

theorem frame_of_withSequence (x : AudioFrame) (s : State) (m : Mode) (n : Nat) (o : Option AudioFrame) (i a : List Word) :
    frame x (s.withSequence m n o i a) = (frame x s).withSequence m n (frame x s).out i a :=
  frame_withSequence x s m n o i a

/-- Frames one after another do not read the sequencing fields. -/
theorem framesRun_withSequence (xs : List AudioFrame) (s : State) (m m' : Mode) (n n' : Nat) (o o' : Option AudioFrame)
    (i i' a a' : List Word) :
    (framesRun xs (s.withSequence m n o i a)).withSequence m' n' o' i' a' = (framesRun xs s).withSequence m' n' o' i' a' := by
  induction xs generalizing s o with
  | nil => rfl
  | cons x xs ih => rw [framesRun_cons, framesRun_cons, frame_of_withSequence, ih]

theorem blockOutput_withSequence (xs : List AudioFrame) (s : State) (m : Mode) (n : Nat) (o : Option AudioFrame) (i a : List Word) :
    blockOutput xs (s.withSequence m n o i a) = blockOutput xs s := by
  induction xs generalizing s o with
  | nil => rfl
  | cons x xs ih =>
    have hout : (frame x (s.withSequence m n o i a)).out = (frame x s).out := by rw [frame_of_withSequence]; rfl
    rw [blockOutput, blockOutput, hout, frame_of_withSequence, ih]

theorem framesReadable_frame (x : AudioFrame) (s : State) : framesReadable (frame x s) = framesReadable s := by
  simp only [framesReadable, frame_known, param, frame_active]

/-- OutPush with room for the frame, in a state whatever its other fields are. -/
theorem engineMove_push_withSequence (u : State) (n : Nat) (y : AudioFrame) (i : List Word) {a : List Word}
    (hroom : streamHolds u.cfg 2 (a.length + 2) = true) :
    engineMove (u.withSequence .running (n + 1) (some y) i a) =
      .next (u.withSequence (if n = 0 then .idle else .running) n none i (a ++ [y.1, y.2])) := by
  have hfull : aoutFull (u.withSequence .running (n + 1) (some y) i a) = false := by
    simp only [aoutFull, State.withSequence, pairWords, hroom, Bool.not_true]
  have hmove := engineMove_push (s := u.withSequence .running (n + 1) (some y) i a) rfl (Nat.succ_pos n) rfl hfull
  simpa [State.withSequence] using hmove

theorem exists_pair_of_length {l : List Word} (h : 2 ≤ l.length) : ∃ x0 x1 rest, l = x0 :: x1 :: rest := by
  match l, h with
  | x0 :: x1 :: rest, _ => exact ⟨x0, x1, rest, rfl⟩

/-- One frame of a block: two moves, the computed frame in between in E.out. -/
theorem engineRun_frame {s : State} {n : Nat} {x0 x1 : Word} {rest : List Word} {y : AudioFrame} (hm : s.mode = .running)
    (ho : s.out = none) (hl : s.left = n + 1) (ha : s.ain = x0 :: x1 :: rest)
    (hroom : streamHolds s.cfg 2 (s.aout.length + 2) = true) (hr : framesReadable s = true)
    (hy : (frame (x0, x1) s).out = some y) (k : Nat) :
    engineRun (k + 2) s = engineRun k ((frame (x0, x1) s).withSequence (if n = 0 then .idle else .running) n none rest
      (s.aout ++ [y.1, y.2])) := by
  have hframe : frame (x0, x1) { s with ain := rest } =
      (frame (x0, x1) s).withSequence .running (n + 1) (some y) rest s.aout := by
    rw [← hy, ← hm, ← hl]
    exact frame_of_withSequence (x0, x1) s s.mode s.left s.out rest s.aout
  have htake := engineMove_take hm (by omega) ho ha hr
  rw [hframe] at htake
  have hpush := engineMove_push_withSequence (frame (x0, x1) s) n y rest (by rwa [frame_cfg])
  simp only [engineRun, htake, hpush]

/-- The engine runs a block of n + 1 frames to its end. -/
theorem engineRun_block (n : Nat) {s : State} (hm : s.mode = .running) (ho : s.out = none) (hl : s.left = n + 1)
    (ha : 2 * (n + 1) ≤ s.ain.length) (hroom : streamHolds s.cfg 2 (s.aout.length + 2 * (n + 1)) = true)
    (hr : framesReadable s = true) :
    engineRun (2 * (n + 1)) s =
      .next ((framesRun (framesOf (s.ain.take (2 * (n + 1)))) s).withSequence .idle 0 none (s.ain.drop (2 * (n + 1)))
        (s.aout ++ blockOutput (framesOf (s.ain.take (2 * (n + 1)))) s)) := by
  induction n generalizing s with
  | zero =>
    obtain ⟨x0, x1, rest, hain⟩ : ∃ x0 x1 rest, s.ain = x0 :: x1 :: rest := exists_pair_of_length ha
    obtain ⟨y, hy⟩ := frame_out (x0, x1) s
    rw [engineRun_frame hm ho hl hain hroom hr hy 0, hain]
    have hframes : framesOf ((x0 :: x1 :: rest).take (2 * (0 + 1))) = [(x0, x1)] := rfl
    rw [hframes, framesRun_cons, framesRun_nil, blockOutput_cons hy, blockOutput_nil]
    rfl
  | succ n ih =>
    obtain ⟨x0, x1, rest, hain⟩ : ∃ x0 x1 rest, s.ain = x0 :: x1 :: rest := exists_pair_of_length (by omega)
    obtain ⟨y, hy⟩ := frame_out (x0, x1) s
    have hlen : s.ain.length = rest.length + 2 := by rw [hain]; rfl
    have hfirst := engineRun_frame hm ho hl hain (streamHolds_mono (by omega) hroom) hr hy (2 * (n + 1))
    have htake : (x0 :: x1 :: rest).take (2 * (n + 1 + 1)) = x0 :: x1 :: rest.take (2 * (n + 1)) := rfl
    have hdrop : (x0 :: x1 :: rest).drop (2 * (n + 1 + 1)) = rest.drop (2 * (n + 1)) := rfl
    rw [Nat.mul_succ 2 (n + 1), hfirst, ← Nat.mul_succ 2 (n + 1), hain, htake, hdrop, framesOf_pair, framesRun_cons,
      blockOutput_cons hy, if_neg (Nat.succ_ne_zero n)]
    have hcfg := frame_cfg (x0, x1) s
    have hreadable := framesReadable_frame (x0, x1) s
    generalize frame (x0, x1) s = u at *
    have hlater := ih (s := u.withSequence .running (n + 1) none rest (s.aout ++ [y.1, y.2])) rfl rfl rfl
      (show 2 * (n + 1) ≤ rest.length by omega)
      (streamHolds_mono (cfg := u.cfg) (by simp [State.withSequence]; omega) (hcfg ▸ hroom)) (hreadable.trans hr)
    rw [hlater, framesRun_withSequence, blockOutput_withSequence]
    simp [State.withSequence]

/-! ### The frames on the ports -/

theorem framesOf_length (n : Nat) {l : List Word} (h : l.length = 2 * n) : (framesOf l).length = n := by
  induction n generalizing l with
  | zero => rw [List.length_eq_zero_iff.mp h]; rfl
  | succ n ih =>
    obtain ⟨x0, x1, rest, rfl⟩ := exists_pair_of_length (l := l) (by omega)
    rw [framesOf_pair, List.length_cons, ih (by simp at h; omega)]

theorem blockOutput_length (xs : List AudioFrame) (s : State) : (blockOutput xs s).length = 2 * xs.length := by
  induction xs generalizing s with
  | nil => rfl
  | cons x xs ih =>
    obtain ⟨y, hy⟩ := frame_out x s
    rw [blockOutput_cons hy, List.length_cons, List.length_cons, List.length_cons, ih]
    omega

/-- The k-th output frame of a block is the one that FRAME computes from the k-th input frame after the frames before it. -/
theorem framesOf_blockOutput (xs : List AudioFrame) (s : State) (k : Nat) {x : AudioFrame} (hx : xs[k]? = some x) :
    (framesOf (blockOutput xs s))[k]? = (frame x (framesRun (xs.take k) s)).out := by
  induction xs generalizing s k with
  | nil => simp at hx
  | cons x' xs ih =>
    obtain ⟨y, hy⟩ := frame_out x' s
    rw [blockOutput_cons hy, framesOf_pair]
    cases k with
    | zero =>
      obtain rfl : x' = x := by simpa using hx
      rw [List.take_zero, framesRun_nil, hy]
      rfl
    | succ k =>
      rw [List.take_succ_cons, framesRun_cons]
      exact ih (frame x' s) k (by simpa using hx)

/-- Settles O43: two engine moves for each frame, the last of which ends the block. -/
theorem blockRunsToItsEnd : Obligations.BlockRunsToItsEnd := by
  intro s n hm ho hl hn ha hroom hr xs ys u
  obtain ⟨n, rfl⟩ := Nat.exists_eq_add_of_le' hn
  have hlen : xs.length = n + 1 := framesOf_length (n + 1) (by rw [List.length_take]; omega)
  have hkeeps {β : Type} (p : State → β) (h : ∀ x s, p (frame x s) = p s) : p u = p s := framesRun_keeps p h xs s
  exact ⟨engineRun_block n hm ho hl ha hroom hr, hlen, (blockOutput_length xs s).trans (by rw [hlen]),
    fun k x hx => framesOf_blockOutput xs s k hx,
    withCommandSide_of_fields (hkeeps _ frame_staging) (hkeeps _ frame_status) (hkeeps _ frame_cmd) (hkeeps _ frame_resp),
    hkeeps _ frame_active, hkeeps _ frame_key, hkeeps _ frame_sr⟩

end Sys2Proof.Machine
end

section
/-! SUPPORT. A frame lane by lane: what the step of one channel and band makes of that lane, that no other lane plays a part in it,
and the claims of 43 and 44 about frames that follow from it. -/

namespace Sys2Proof.Machine

/-! ### FILTER.PROCESS, section by section (40 R208) -/

theorem secs_take_succ (k : Sec) : secs.take (k.val + 1) = secs.take k.val ++ [k] := by
  fin_cases k <;> rfl

theorem filter_set_get (f : Filter) (j k : Sec) (q : Section) : (f.set j q)[k] = if j = k then q else f[k] := by
  simp [Vector.getElem_set, Fin.ext_iff]

/-- One more active section: it takes the output of those before it, and has been left alone by them. -/
theorem filterProcess_succ (dn : Denorm) (f : Filter) (x : F32) (k : Sec) :
    filterProcess dn (k.val + 1) f x =
      ((filterProcess dn k.val f x).1.set k (sectionProcess dn f[k] (filterProcess dn k.val f x).2).1,
        (sectionProcess dn f[k] (filterProcess dn k.val f x).2).2) := by
  have huntouched := (filterProcess_section dn k.val f x k).2 (Nat.le_refl _)
  rw [← huntouched]
  simp only [filterProcess, secs_take_succ, List.foldl_append, List.foldl_cons, List.foldl_nil]

/-- An active section is processed once, with the output of the sections before it. -/
theorem filterProcess_active (dn : Denorm) (f : Filter) (x : F32) (k : Sec) {n : Nat} (hk : k.val < n) (hn : n ≤ 4) :
    (filterProcess dn n f x).1[k] = (sectionProcess dn f[k] (filterProcess dn k.val f x).2).1 := by
  induction n with
  | zero => exact absurd hk (Nat.not_lt_zero _)
  | succ n ih =>
    have hsucc := filterProcess_succ dn f x ⟨n, hn⟩
    rw [show n + 1 = (⟨n, hn⟩ : Sec).val + 1 from rfl, hsucc, filter_set_get]
    by_cases he : (⟨n, hn⟩ : Sec) = k
    · rw [if_pos he, ← he]
    · rw [if_neg he]
      exact ih (by have := Fin.val_ne_of_ne he; simp only at this; omega) (by omega)

/-! ### The state in which the channels start -/

/-- The state after BAND.MODULATE of all bands: only the LFOs and the smoothers have moved (44 R351). -/
def modulated (s : State) : State := bands.foldl modulate s

theorem modulated_eq (x : AudioFrame) (s : State) :
    modulated s = { s with lfo := (frame x s).lfo, smooth := (frame x s).smooth } := by
  have hlist (l : List Band) (s : State) :
      l.foldl modulate s = { s with lfo := (l.foldl modulate s).lfo, smooth := (l.foldl modulate s).smooth } := by
    induction l generalizing s with
    | nil => rfl
    | cons b l ih => rw [List.foldl_cons, ih (modulate s b)]; rfl
  have hlfo : (frame x s).lfo = (bands.foldl modulate s).lfo := by simp [frame]
  have hsmooth : (frame x s).smooth = (bands.foldl modulate s).smooth := by simp [frame]
  rw [hlfo, hsmooth]
  exact hlist bands s

theorem frame_eq (x : AudioFrame) (s : State) :
    frame x s = { (channelFrame 1 x.2 (channelFrame 0 x.1 (modulated s)).1).1 with
      out := some ((channelFrame 0 x.1 (modulated s)).2, (channelFrame 1 x.2 (channelFrame 0 x.1 (modulated s)).1).2) } := by
  simp only [frame, modulated]

/-! ### One lane in a frame -/

/-- The sample of a frame that a channel takes. -/
def sampleOf (x : AudioFrame) (c : Chan) : F32 := if c = 0 then x.1 else x.2

theorem dcBlock_sameLane (c c' : Chan) (b : Band) (x : F32) (s : State) : SameLane c' b (dcBlock c x s).1 s :=
  ⟨rfl, rfl, rfl, rfl, rfl, rfl, rfl, fun _ => rfl⟩

theorem sameLane_out (c : Chan) (b : Band) (s : State) (y : Option AudioFrame) : SameLane c b { s with out := y } s :=
  ⟨rfl, rfl, rfl, rfl, rfl, rfl, rfl, fun _ => rfl⟩

/-- A channel leaves the lanes of the other as they were. -/
theorem channelFrame_sameLane (c : Chan) (x : F32) (s : State) {c' : Chan} (b : Band) (h : c' ≠ c) :
    SameLane c' b (channelFrame c x s).1 s := by
  have hlanes := lanes_sameLane c x bands s posZero (b := b) h
  simp only [channelFrame]
  generalize bands.foldl (laneStep c x) (s, posZero) = r at *
  exact (dcBlock_sameLane c c' b r.2 r.1).trans hlanes

/-- The lane (c, b) of t is that lane of u after its own step with the sample x. -/
def LaneStepped (c : Chan) (b : Band) (x : F32) (u t : State) : Prop :=
  ∃ s a, SameLane c b s u ∧ (Memory.wf u.mem → Memory.wf s.mem) ∧ SameLane c b t (laneStep c x (s, a) b).1

/-- In a channel's loop each of its lanes takes its own step, from a state that has changed in other lanes only. -/
theorem lanes_stepped (c : Chan) (x : F32) (l : List Band) (hl : l.Nodup) (s : State) (a : F32) {b : Band} (h : b ∈ l) :
    LaneStepped c b x s (l.foldl (laneStep c x) (s, a)).1 := by
  induction l generalizing s a with
  | nil => exact absurd h List.not_mem_nil
  | cons d l ih =>
    obtain ⟨hn, hl'⟩ := List.nodup_cons.mp hl
    rw [List.foldl_cons, ← Prod.mk.eta (p := laneStep c x (s, a) d)]
    by_cases hb : b = d
    · subst hb
      obtain ⟨hf, hline, hw⟩ := lanes_list_other c x l (laneStep c x (s, a) b).1 (laneStep c x (s, a) b).2 (b' := b)
        (fun e => hn e.2)
      have hkeep {β : Type} (p : State → β) (hp : ∀ t a d, p (laneStep c x (t, a) d).1 = p t) :
          p (l.foldl (laneStep c x) ((laneStep c x (s, a) b).1, (laneStep c x (s, a) b).2)).1 = p (laneStep c x (s, a) b).1 :=
        foldl_keeps_fst _ p hp _ _ _
      exact ⟨s, a, SameLane.refl c b s, id, hkeep _ (by simp), hkeep _ (by simp), hkeep _ (by simp), hkeep _ (by simp),
        hkeep _ (by simp), hf, hline, hw⟩
    · obtain ⟨t, a', hsame, hwf, hstep⟩ := ih hl' (laneStep c x (s, a) d).1 (laneStep c x (s, a) d).2
        ((List.mem_cons.mp h).resolve_left hb)
      exact ⟨t, a', hsame.trans (laneStep_sameLane c x a s d fun e => hb e.2), fun hs => hwf (laneStep_wf c x a s d hs), hstep⟩

theorem LaneStepped.of_sameLane {c : Chan} {b : Band} {x : F32} {u t t' : State} (h : LaneStepped c b x u t)
    (hsame : SameLane c b t' t) : LaneStepped c b x u t' := by
  obtain ⟨s, a, hs, hwf, hstep⟩ := h
  exact ⟨s, a, hs, hwf, hsame.trans hstep⟩

theorem channelFrame_stepped (c : Chan) (x : F32) (s : State) (b : Band) : LaneStepped c b x s (channelFrame c x s).1 := by
  have hlanes := lanes_stepped c x bands bands_nodup s posZero (mem_bands b)
  simp only [channelFrame]
  generalize bands.foldl (laneStep c x) (s, posZero) = r at *
  exact hlanes.of_sameLane (dcBlock_sameLane c c b r.2 r.1)

theorem channelFrame_wf (c : Chan) (x : F32) (s : State) (h : Memory.wf s.mem) : Memory.wf (channelFrame c x s).1.mem := by
  simp only [channelFrame, dcBlock_mem]
  exact lanes_wf c x bands s posZero h

/-- In a frame each lane takes its own step, from what it held before, with the smoother outputs that the frame has advanced. -/
theorem frame_stepped (x : AudioFrame) (s : State) (c : Chan) (b : Band) :
    LaneStepped c b (sampleOf x c) (modulated s) (frame x s) := by
  have hfirst := channelFrame_stepped 0 x.1 (modulated s) b
  have hfirst1 := channelFrame_sameLane 0 x.1 (modulated s) (c' := 1) b (by decide)
  have hwf := channelFrame_wf 0 x.1 (modulated s)
  rw [frame_eq]
  generalize channelFrame 0 x.1 (modulated s) = r0 at *
  have hsecond := channelFrame_stepped 1 x.2 r0.1 b
  have hsecond0 := channelFrame_sameLane 1 x.2 r0.1 (c' := 0) b (by decide)
  generalize channelFrame 1 x.2 r0.1 = r1 at *
  match c with
  | 0 => exact (hfirst.of_sameLane hsecond0).of_sameLane (sameLane_out 0 b r1.1 _)
  | 1 =>
    obtain ⟨t, a, hsame, hwf', hstep⟩ := hsecond
    exact ⟨t, a, hsame.trans hfirst1, fun h => hwf' (hwf h), (sameLane_out 1 b r1.1 _).trans hstep⟩

/-- With the memory in its canonical form a frame's lanes are each the lane's own step, whatever the other lanes hold. -/
theorem frame_lane (x : AudioFrame) (s : State) (hwf : Memory.wf s.mem) (c : Chan) (b : Band) :
    SameLane c b (frame x s) (laneStep c (sampleOf x c) (modulated s, posZero) b).1 := by
  obtain ⟨t, a, hsame, hwf', hstep⟩ := frame_stepped x s c b
  have hm : Memory.wf (modulated s).mem := by rw [modulated_eq x s]; exact hwf
  exact hstep.trans (laneStep_congr hsame (hwf' hm) hm (sampleOf x c) a posZero)

/-! ### What a frame advances (41 R249, 43 R327, 40 R208) -/

theorem lfoValue_eq (cfg : Platform) (wave : Wave) (ofs : F32) (l : Lfo) :
    lfoValue cfg wave ofs l =
      if wave = .sine then lfoSin cfg.unit (l.ph + ofs32 cfg.denorm ofs)
      else noiseValue cfg.denorm l := by
  cases wave <;> rfl

/-- Settles O35: every band is modulated on its own, and section k of a filter takes what the k sections before it put out. -/
theorem frameAdvancesEveryBand : Obligations.FrameAdvancesEveryBand := by
  refine ⟨fun x s b => ⟨frame_lfo x s b, ?_, frame_filters x s 0 b, frame_filters x s 1 b⟩, fun dn n f x hn => ?_⟩
  · rw [frame_smooth, lfoValue_eq]
    rfl
  · refine ⟨fun k => (filterProcess dn k f x).2, rfl, rfl, fun k => ⟨(filterProcess_section dn n f x k).2, fun hk => ?_⟩⟩
    have hout : (filterProcess dn (k.val + 1) f x).2 = (sectionProcess dn f[k] (filterProcess dn k.val f x).2).2 := by
      rw [filterProcess_succ]
    refine ⟨hout, ?_⟩
    rw [filterProcess_active dn f x k hk hn]
    simp only [hout]
    rfl

/-! ### What a frame does to an enabled line (44 R353) -/

/-- The step of a lane with its delay enabled: the line's registers, and the one word written. -/
theorem laneStep_enabled (c : Chan) (x a : F32) (s : State) (b : Band) (h : (param s b).dlyEn = true) :
    let l := laneGet s.lines c b
    let r := delayValue s.cfg s.mem c b l.w (bandTime s b)
    laneGet (laneStep c x (s, a) b).1.lines c b = { l with w := (l.w + 1) % s.cfg.lits.dlen, fb := r } ∧
    (laneStep c x (s, a) b).1.mem =
      dWrite s.mem c b l.w (fadd s.cfg.denorm (bandFilter c b x s).2 (fmul s.cfg.denorm r s.smooth[b].fb)) := by
  obtain ⟨hline, hmem, -⟩ := bandDelay_enabled c b (bandFilter c b x s).2 (bandFilter c b x s).1 h
  exact ⟨hline, hmem⟩

theorem bandTime_congr {c : Chan} {b : Band} {s t : State} (h : SameLane c b s t) : bandTime s b = bandTime t b := by
  simp only [bandTime, h.cfg, h.sr, h.dmax, h.smooth]

/-- What a frame does to the line of an enabled band, in terms of the state with the smoothers advanced. -/
theorem LaneStepped.enabled {c : Chan} {b : Band} {x : F32} {u t : State} (h : LaneStepped c b x u t)
    (hd : (param u b).dlyEn = true) :
    let l := laneGet u.lines c b
    let r := delayValue u.cfg u.mem c b l.w (bandTime u b)
    laneGet t.lines c b = { l with w := (l.w + 1) % u.cfg.lits.dlen, fb := r } ∧
    (Memory.wf u.mem →
      dRead t.mem c b l.w = fadd u.cfg.denorm (bandFilter c b x u).2 (fmul u.cfg.denorm r u.smooth[b].fb)) ∧
    ∀ i, i ≠ l.w → dRead t.mem c b i = dRead u.mem c b i := by
  obtain ⟨s, a, hs, hwf, hstep⟩ := h
  obtain ⟨hline, hmem⟩ := laneStep_enabled c x a s b (by rwa [param_of_active hs.active])
  have hvalue := delayValue_congr hs (bandTime u b)
  refine ⟨?_, fun hu => ?_, fun i hi => ?_⟩
  · rw [hstep.line, hline, bandTime_congr hs, hvalue, hs.line, hs.cfg]
  · rw [hstep.word, hmem, ← hs.line, dRead_dWrite_same (hwf hu), bandTime_congr hs, hvalue, bandFilter_congr hs, hs.cfg,
      hs.smooth, hs.line]
  · rw [hstep.word, hmem, dRead_dWrite_other _ _ (fun e => hi (by rw [← hs.line]; exact e.2.2)), hs.word]

/-- Settles O36. -/
theorem frameTouchesEnabledLines : Obligations.FrameTouchesEnabledLines := by
  intro x s c b
  refine ⟨frame_disabled x s c b, fun hd => ?_⟩
  have hstep := frame_stepped x s c b
  rw [modulated_eq x s] at hstep
  generalize frame x s = t at *
  exact hstep.enabled hd

/-! ### The output of a frame (44 R355, R356) -/

/-- The sum of a channel over the routed bands. -/
def channelSum (c : Chan) (x : F32) (s : State) : F32 :=
  ((bands.filter (routeSelect s.active.route)).map (contribution c x s)).foldl (fadd s.cfg.denorm) posZero

theorem channelSum_congr {c : Chan} {s t : State} (h : ∀ b, SameLane c b s t) (x : F32) :
    channelSum c x s = channelSum c x t := by
  have hmap : contribution c x s = contribution c x t := funext fun b => contribution_congr (h b) x
  rw [channelSum, channelSum, hmap, (h 0).active, (h 0).cfg]

theorem channelFrame_dc_same (c : Chan) (x : F32) (s : State) :
    (channelFrame c x s).1.dc[c] = { x1 := channelSum c x s, y1 := dcValue s.cfg s.dc[c] (channelSum c x s) } := by
  simp [channelFrame, dcBlock, lanes_sum c x bands bands_nodup, channelSum]

/-- The sample a channel puts out: its DC-blocked sum. -/
def channelSample (c : Chan) (x : F32) (s : State) : F32 := dcValue s.cfg s.dc[c] (channelSum c x s)

/-- A frame's output samples, each from the state with the smoothers advanced. -/
theorem frame_out_eq (x : AudioFrame) (s : State) :
    (frame x s).out = some (channelSample 0 x.1 (modulated s), channelSample 1 x.2 (modulated s)) := by
  have hfirst : (channelFrame 0 x.1 (modulated s)).2 = channelSample 0 x.1 (modulated s) := channelFrame_value ..
  have hsame (b : Band) := channelFrame_sameLane 0 x.1 (modulated s) (c' := 1) b (by decide)
  have hdc := channelFrame_dc_other x.1 (modulated s) (c := 0) (c' := 1) (by decide)
  rw [frame_eq, hfirst]
  generalize (channelFrame 0 x.1 (modulated s)).1 = t at *
  have hsecond : (channelFrame 1 x.2 t).2 = channelSample 1 x.2 (modulated s) := by
    rw [channelSample, ← channelSum_congr hsame, ← hdc, ← (hsame 0).cfg]
    exact channelFrame_value ..
  rw [hsecond]

theorem frame_dc (x : AudioFrame) (s : State) (c : Chan) :
    (frame x s).dc[c] =
      { x1 := channelSum c (sampleOf x c) (modulated s), y1 := channelSample c (sampleOf x c) (modulated s) } := by
  have hfirst := channelFrame_dc_same 0 x.1 (modulated s)
  have hsame (b : Band) := channelFrame_sameLane 0 x.1 (modulated s) (c' := 1) b (by decide)
  have hdc := channelFrame_dc_other x.1 (modulated s) (c := 0) (c' := 1) (by decide)
  rw [frame_eq]
  generalize channelFrame 0 x.1 (modulated s) = r0 at *
  have hother := channelFrame_dc_other x.2 r0.1 (c := 1) (c' := 0) (by decide)
  have hsecond := channelFrame_dc_same 1 x.2 r0.1
  generalize channelFrame 1 x.2 r0.1 = r1 at *
  match c with
  | 0 => exact hother.trans hfirst
  | 1 =>
    rw [channelSum_congr hsame, hdc, (hsame 0).cfg] at hsecond
    exact hsecond

/-- Settles O37. -/
theorem frameLeavesTheRest : Obligations.FrameLeavesTheRest := by
  intro x s
  have hout := frame_out_eq x s
  have hdc0 := frame_dc x s 0
  have hdc1 := frame_dc x s 1
  rw [modulated_eq x s] at hout hdc0 hdc1
  refine ⟨hout, hdc0, hdc1, ?_⟩
  simp only [frame_cfg, frame_staging, frame_active, frame_sr, frame_status, frame_mode, frame_left, frame_key, frame_dmax,
    frame_coefs, frame_cmd, frame_resp, frame_ain, frame_aout, frame_host, frame_sched, frame_turns]

/-- What a frame leaves of a channel depends on that channel's input sample alone. -/
theorem frame_channel_congr {x x' : AudioFrame} {s : State} (hwf : Memory.wf s.mem) {c : Chan} (h : sampleOf x c = sampleOf x' c) :
    (frame x s).dc[c] = (frame x' s).dc[c] ∧ ∀ b,
      laneGet (frame x s).filters c b = laneGet (frame x' s).filters c b ∧
      laneGet (frame x s).lines c b = laneGet (frame x' s).lines c b ∧
      ∀ i, dRead (frame x s).mem c b i = dRead (frame x' s).mem c b i := by
  refine ⟨by rw [frame_dc, frame_dc, h], fun b => ?_⟩
  have hx := frame_lane x s hwf c b
  have hx' := frame_lane x' s hwf c b
  rw [← h] at hx'
  exact ⟨hx.filter.trans hx'.filter.symm, hx.line.trans hx'.line.symm, fun i => (hx.word i).trans (hx'.word i).symm⟩

/-- Settles O39. -/
theorem channelsDoNotMix : Obligations.ChannelsDoNotMix := by
  intro x0 x0' x1 x1' s hwf
  exact ⟨by simp only [frame_out_eq, Option.map_some], by simp only [frame_out_eq, Option.map_some],
    frame_channel_congr hwf rfl, frame_channel_congr hwf rfl⟩

/-- Settles O40. -/
theorem dcBlockEquation : Obligations.DcBlockEquation := fun _ _ _ => rfl

/-! ### Smoothers at rest (10 R81) -/

/-- The product of a finite value and a zero is a zero. -/
theorem fmulExact_zero {x : F32} (h : isFinite x = true) (neg : Bool) :
    fmulExact x (packSign neg 0) = packSign (signOf x != signOf (packSign neg 0)) 0 ∧
      fmulExact (packSign neg 0) x = packSign (signOf (packSign neg 0) != signOf x) 0 := by
  have hmag : magOf (packSign neg 0) = 0 := by cases neg <;> decide
  have hround : roundMag 0 (2 ^ 149) = 0 := by decide
  have hz : isFinite (packSign neg 0) = true := by cases neg <;> decide
  simp only [fmulExact, isNaN_of_isFinite h, isNaN_of_isFinite hz, isInf_of_isFinite h, isInf_of_isFinite hz, Bool.or_false,
    Bool.false_eq_true, ↓reduceIte, hmag, Nat.mul_zero, Nat.zero_mul, hround, and_self]

theorem fmul_zero (dn : Denorm) {x : F32} (h : isFinite x = true) (neg : Bool) :
    (∃ sign, fmul dn x (packSign neg 0) = packSign sign 0) ∧ ∃ sign, fmul dn (packSign neg 0) x = packSign sign 0 := by
  obtain ⟨hright, hleft⟩ := fmulExact_zero (isFinite_flush dn h) neg
  constructor
  · exact ⟨_, by rw [fmul, flush_zero, hright, flush_zero]⟩
  · exact ⟨_, by rw [fmul, flush_zero, hleft, flush_zero]⟩

/-- A smoother whose target differs from its output by a zero stays, for a finite coefficient. -/
theorem smoothStep_fixed {dn : Denorm} {y a t : F32} (ha : isFinite a = true) (hy : ∀ neg, fadd dn y (packSign neg 0) = y)
    {neg : Bool} (ht : fsub dn t y = packSign neg 0) : smoothStep dn y a t = y := by
  obtain ⟨⟨sign, hmul⟩, -⟩ := fmul_zero dn ha neg
  rw [smoothStep, ht, hmul, hy]

theorem fadd_one_zero (dn : Denorm) (neg : Bool) : fadd dn one (packSign neg 0) = one := by
  cases dn <;> cases neg <;> decide +kernel

theorem fsub_one_one (dn : Denorm) : fsub dn one one = packSign false 0 := by cases dn <;> decide +kernel

theorem fsub_zero_posZero (dn : Denorm) (neg : Bool) : fsub dn (packSign neg 0) posZero = packSign neg 0 := by
  cases dn <;> cases neg <;> decide +kernel

theorem fsqrt_posZero (dn : Denorm) : fsqrt dn posZero = posZero := by cases dn <;> decide

theorem fsqrt_one_minus_zero (dn : Denorm) : fsqrt dn (fsub dn one posZero) = one := by cases dn <;> decide +kernel

theorem smoothBand_reset {dn : Denorm} {a : SmoothCoefs} {v : F32} (hgain : isFinite a.gain = true) (hlfo : isFinite a.lfo = true)
    (hslow : isFinite a.slow = true) (hv : isFinite v = true) :
    smoothBand dn a BandParams.reset v Smoothers.reset = Smoothers.reset := by
  have hzero {a t : F32} (ha : isFinite a = true) (ht : ∃ neg, t = packSign neg 0) : smoothStep dn posZero a t = posZero := by
    obtain ⟨neg, rfl⟩ := ht
    exact smoothStep_fixed ha (fadd_posZero_zero dn) (fsub_zero_posZero dn neg)
  have hone {a : F32} (ha : isFinite a = true) : smoothStep dn one a one = one :=
    smoothStep_fixed ha (fadd_one_zero dn) (fsub_one_one dn)
  have hdepth : ∃ neg, fmul dn posZero v = packSign neg 0 := (fmul_zero dn hv false).2
  have hrest : ∃ neg, posZero = packSign neg 0 := ⟨false, rfl⟩
  simp only [smoothBand, BandParams.reset, Smoothers.reset, gainTarget, Bool.false_eq_true, ↓reduceIte, fsqrt_posZero,
    fsqrt_one_minus_zero, hone hgain, hone hslow, hzero hlfo hdepth, hzero hslow hrest]

/-- Settles O41. -/
theorem resetParametersMoveNoSmoother : Obligations.ResetParametersMoveNoSmoother := by
  intro x s hparams hsmooth hgain hlfo hslow hv
  refine bank_ext fun b => ?_
  have hp : param s b = BandParams.reset := by
    rw [param, hparams]
    exact Vector.getElem_replicate b.isLt
  have hy : s.smooth[b] = Smoothers.reset := by
    rw [hsmooth]
    exact Vector.getElem_replicate b.isLt
  have hvb := hv b
  rw [show s.active.band[b] = BandParams.reset from hp] at hvb
  rw [frame_smooth, hp, hy]
  exact smoothBand_reset hgain hlfo hslow hvb

end Sys2Proof.Machine
end

section
/-! SUPPORT. The serialisation record (46 R490, R491): what its setters and its getters do one after another. -/

namespace Sys2Proof.Machine

/-! ### Commands one after another -/

theorem perform_cons {i : Instr} {s t : State} (h : exec i s = .next t) (is : List Instr) : perform (i :: is) s = perform is t := by
  rw [perform, h]

theorem perform_append {is : List Instr} {s t : State} (h : perform is s = .next t) (js : List Instr) :
    perform (is ++ js) s = perform js t := by
  induction is generalizing s with
  | nil =>
    obtain rfl : s = t := by simpa [perform] using h
    rfl
  | cons i is ih =>
    rw [perform] at h
    split at h
    next u hu => rw [List.cons_append, perform_cons hu]; exact ih h
    next => cases h
    next => cases h

/-! ### Loading one band (46 R452 to R461) -/

/-- A pattern in the domain is stored as it is, whatever its bounds are. -/
theorem fclamp_of_fle (dn : Denorm) {v lo hi : F32} (h : inDomain v lo hi) : fclamp dn v lo hi = v := by
  obtain ⟨hl, hh⟩ := h
  obtain ⟨-, hnan, hlo⟩ := (fle_iff _ _).mp hl
  obtain ⟨-, -, hhi⟩ := (fle_iff _ _).mp hh
  have hbelow : flt (flush dn v) (flush dn lo) = false := Bool.eq_false_of_not_eq_true fun e => by
    obtain ⟨-, -, e⟩ := (flt_iff _ _).mp e
    have := orderKey_flush_mono dn hlo
    omega
  have habove : flt (flush dn hi) (flush dn v) = false := Bool.eq_false_of_not_eq_true fun e => by
    obtain ⟨-, -, e⟩ := (flt_iff _ _).mp e
    have := orderKey_flush_mono dn hhi
    omega
  simp only [fclamp, hnan, hbelow, habove, hl, hh, Bool.false_eq_true, ↓reduceIte, Bool.and_self]

theorem flagOf_flagWord (f : Bool) : flagOf (flagWord f).toNat = f := by cases f <;> rfl

/-- The parameters p with the field f of q. -/
def BandField.copy (f : BandField) (q p : BandParams) : BandParams :=
  match f with
  | .gain => { p with gain := q.gain }
  | .pol => { p with pol := q.pol }
  | .lfoRate => { p with lfoRate := q.lfoRate }
  | .lfoDepth => { p with lfoDepth := q.lfoDepth }
  | .lfoOfs => { p with lfoOfs := q.lfoOfs }
  | .lfoEn => { p with lfoEn := q.lfoEn }
  | .dlyTime => { p with dlyTime := q.dlyTime }
  | .dlyFb => { p with dlyFb := q.dlyFb }
  | .dlyMix => { p with dlyMix := q.dlyMix }
  | .dlyEn => { p with dlyEn := q.dlyEn }

/-- A setter with a field's word of legal parameters stores that field. -/
theorem store_word (f : BandField) {cfg : Platform} {q : BandParams} (hq : q.legal cfg.lits) (p : BandParams) :
    f.store cfg (f.word q) p = f.copy q p := by
  obtain ⟨hgain, hrate, hdepth, hofs, htime, hfb, hmix⟩ := hq
  cases f with
  | gain => exact congrArg (fun v => { p with gain := v }) (fclamp_of_fle _ hgain)
  | pol => exact congrArg (fun v => { p with pol := v }) (flagOf_flagWord _)
  | lfoRate => exact congrArg (fun v => { p with lfoRate := v }) (fclamp_of_fle _ hrate)
  | lfoDepth => exact congrArg (fun v => { p with lfoDepth := v }) (fclamp_of_fle _ hdepth)
  | lfoOfs => exact congrArg (fun v => { p with lfoOfs := v }) (fclamp_of_fle _ hofs)
  | lfoEn => exact congrArg (fun v => { p with lfoEn := v }) (flagOf_flagWord _)
  | dlyTime => exact congrArg (fun v => { p with dlyTime := v }) (fclamp_of_fle _ htime)
  | dlyFb => exact congrArg (fun v => { p with dlyFb := v }) (fclamp_of_fle _ hfb)
  | dlyMix => exact congrArg (fun v => { p with dlyMix := v }) (fclamp_of_fle _ hmix)
  | dlyEn => exact congrArg (fun v => { p with dlyEn := v }) (flagOf_flagWord _)

theorem copy_all (q p : BandParams) : bandFields.foldl (fun p f => f.copy q p) p = q := by
  simp only [bandFields, List.foldl_cons, List.foldl_nil, BandField.copy]

/-- The state with these staged bands and n command pairs taken off CMD. -/
def State.withBands (s : State) (v : Bank BandParams) (n : Nat) : State :=
  { s with staging := { s.staging with band := v }, cmd := s.cmd.drop (2 * n) }

theorem bank_set_self {α : Type} (v : Bank α) (b : Band) : v.set b v[b] = v :=
  bank_ext fun b' => by
    rw [bank_set_get]
    split
    next h => rw [h]
    next => rfl

theorem withBands_withBands (s : State) (v v' : Bank BandParams) (n m : Nat) :
    (s.withBands v n).withBands v' m = s.withBands v' (n + m) := by
  simp only [State.withBands, List.drop_drop, Nat.mul_add]

/-- A setter with a field's word of legal parameters copies that field into its staged band. -/
theorem exec_fieldSetter (f : BandField) (b : Band) {q : BandParams} {s : State} (hq : q.legal s.cfg.lits) :
    exec (f.setter b (f.word q)) s = .next (s.withBands (s.staging.band.set b (f.copy q s.staging.band[b])) 1) := by
  rw [exec_bandSetter, ← store_word f hq]
  rfl

theorem perform_fieldSetters (b : Band) {q : BandParams} (fs : List BandField) (s : State) (hq : q.legal s.cfg.lits) :
    perform (fs.map fun f => f.setter b (f.word q)) s =
      .next (s.withBands (s.staging.band.set b (fs.foldl (fun p f => f.copy q p) s.staging.band[b])) fs.length) := by
  induction fs generalizing s with
  | nil =>
    rw [List.foldl_nil, bank_set_self]
    rfl
  | cons f fs ih =>
    rw [List.map_cons, perform_cons (exec_fieldSetter f b hq), ih (s.withBands _ 1) hq, withBands_withBands]
    simp only [State.withBands, List.foldl_cons, List.length_cons, Vector.set_set, Nat.add_comm 1]
    rw [bank_set_same]

/-- The ten setters of a band's record entries stage that band as it was saved. -/
theorem perform_bandSetters {p : ParamSet} (l : List Band) (s : State) (hp : ∀ b : Band, p.band[b].legal s.cfg.lits) :
    perform (l.flatMap fun b => bandFields.map fun f => f.setter b (f.word p.band[b])) s =
      .next (s.withBands (l.foldl (fun (v : Bank BandParams) (b : Band) => v.set b p.band[b]) s.staging.band)
        (10 * l.length)) := by
  induction l generalizing s with
  | nil => rfl
  | cons b l ih =>
    rw [List.flatMap_cons, perform_append (perform_fieldSetters b bandFields s (hp b)), copy_all,
      ih (s.withBands _ bandFields.length) hp, withBands_withBands]
    have hcount : bandFields.length + 10 * l.length = 10 * (b :: l).length := by
      rw [List.length_cons, Nat.mul_succ, Nat.add_comm]; rfl
    rw [hcount]
    rfl

theorem foldl_set_get (q : Bank BandParams) (l : List Band) (v : Bank BandParams) (b' : Band) :
    (l.foldl (fun (v : Bank BandParams) (b : Band) => v.set b q[b]) v)[b'] = if b' ∈ l then q[b'] else v[b'] := by
  induction l generalizing v with
  | nil => rfl
  | cons b l ih =>
    rw [List.foldl_cons, ih, bank_set_get]
    by_cases hl : b' ∈ l
    · rw [if_pos hl, if_pos (List.mem_cons_of_mem _ hl)]
    · by_cases hb : b = b'
      · subst hb
        rw [if_neg hl, if_pos rfl, if_pos List.mem_cons_self]
      · rw [if_neg hl, if_neg hb, if_neg (fun h => (List.mem_cons.mp h).elim (fun e => hb e.symm) hl)]

theorem foldl_set_bands (q v : Bank BandParams) :
    bands.foldl (fun (v : Bank BandParams) (b : Band) => v.set b q[b]) v = q :=
  bank_ext fun b => by rw [foldl_set_get, if_pos (mem_bands b)]

/-! ### Loading the selectors (46 R472 to R475) -/

theorem clampDesign_word (d : Design) : clampDesign (designWord d).toNat = d := by cases d <;> rfl

theorem clampRoute_word (r : Route) : clampRoute (routeWord r).toNat = r := by cases r <;> rfl

theorem clampWave_word (w : Wave) : clampWave (waveWord w).toNat = w := by cases w <;> rfl

theorem activeSections_injective {o o' : FilterOrder} (h : activeSections o = activeSections o') : o = o' := by
  revert h
  cases o <;> cases o' <;> decide

/-- An order inside the range is stored as it is. -/
theorem clampOrder_word {l : Literals} {o : FilterOrder} (hmin : activeSections l.orderMin ≤ activeSections o)
    (hmax : activeSections o ≤ activeSections l.orderMax) : clampOrder l (orderWord o).toNat = o := by
  have hword : (orderWord o).toNat = 2 * activeSections o := by cases o <;> rfl
  have hclamp := activeSections_clampOrder l (orderWord o).toNat
  rw [hword] at hclamp ⊢
  exact activeSections_injective (by omega)

/-- The parameter set p with the selector g of q. -/
def Selector.copy (g : Selector) (q p : ParamSet) : ParamSet :=
  match g with
  | .design => { p with design := q.design }
  | .order => { p with order := q.order }
  | .route => { p with route := q.route }
  | .wave => { p with wave := q.wave }

/-- A setter with a selector's word copies that selector into the staging set. -/
theorem exec_selectorSetter (g : Selector) {q : ParamSet} {s : State}
    (hmin : activeSections s.cfg.lits.orderMin ≤ activeSections q.order)
    (hmax : activeSections q.order ≤ activeSections s.cfg.lits.orderMax) :
    exec (g.setter (g.word q)) s = .next { s with staging := g.copy q s.staging, cmd := s.cmd.drop 2 } := by
  cases g with
  | design =>
    show Host.Outcome.next (stageGlobal (fun p => { p with design := clampDesign (designWord q.design).toNat }) (retire s)) = _
    rw [clampDesign_word]
    rfl
  | order =>
    show Host.Outcome.next
      (stageGlobal (fun p => { p with order := clampOrder s.cfg.lits (orderWord q.order).toNat }) (retire s)) = _
    rw [clampOrder_word hmin hmax]
    rfl
  | route =>
    show Host.Outcome.next (stageGlobal (fun p => { p with route := clampRoute (routeWord q.route).toNat }) (retire s)) = _
    rw [clampRoute_word]
    rfl
  | wave =>
    show Host.Outcome.next (stageGlobal (fun p => { p with wave := clampWave (waveWord q.wave).toNat }) (retire s)) = _
    rw [clampWave_word]
    rfl

theorem perform_selectorSetters {p : ParamSet} (gs : List Selector) (s : State)
    (hmin : activeSections s.cfg.lits.orderMin ≤ activeSections p.order)
    (hmax : activeSections p.order ≤ activeSections s.cfg.lits.orderMax) :
    perform (gs.map fun g => g.setter (g.word p)) s =
      .next { s with staging := gs.foldl (fun q g => g.copy p q) s.staging, cmd := s.cmd.drop (2 * gs.length) } := by
  induction gs generalizing s with
  | nil => rfl
  | cons g gs ih =>
    rw [List.map_cons, perform_cons (exec_selectorSetter g hmin hmax), ih _ (by exact hmin) (by exact hmax)]
    simp only [List.drop_drop, List.foldl_cons, List.length_cons, Nat.mul_succ, Nat.add_comm]

/-- The selectors and the bands of a parameter set are all of it. -/
theorem copy_selectors (p q : ParamSet) (h : q.band = p.band) : selectors.foldl (fun q g => g.copy p q) q = p := by
  simp only [selectors, List.foldl_cons, List.foldl_nil, Selector.copy, h]

/-! ### LOAD_STATE (46 R491) -/

/-- The entries of the record that are fields of bands. -/
def bandSlots : List (Band × BandField) := bands.product bandFields

theorem bandSlots_length : bandSlots.length = 160 := List.length_product ..

theorem flatMap_eq_map_slots {β : Type} (g : Band → BandField → β) :
    (bands.flatMap fun b => bandFields.map (g b)) = bandSlots.map fun q => g q.1 q.2 := by
  simp only [bandSlots, List.product, List.map_flatMap, List.map_map, Function.comp_def]

/-- A list in the order of the record has its 164 entries. -/
theorem record_length {β : Type} (g : Band → BandField → β) (h : Selector → β) :
    ((bands.flatMap fun b => bandFields.map (g b)) ++ selectors.map h).length = 164 := by
  rw [flatMap_eq_map_slots, List.length_append, List.length_map, List.length_map, bandSlots_length]
  rfl

/-- The commands that LOAD_STATE makes of a record. -/
def loadCommands (p : ParamSet) : List Instr :=
  (bands.flatMap fun b => bandFields.map fun f => f.setter b (f.word p.band[b])) ++ selectors.map fun g => g.setter (g.word p)

theorem zipWith_map_map {α β γ δ : Type} (g : β → γ → δ) (m : α → β) (w : α → γ) (l : List α) :
    List.zipWith g (l.map m) (l.map w) = l.map fun a => g (m a) (w a) := by
  rw [List.zipWith_map, List.zipWith_self]

theorem zipWith_flatMap {α β γ δ : Type} (g : β → γ → δ) (m : α → List β) (w : α → List γ) (l : List α)
    (h : ∀ a, (m a).length = (w a).length) :
    List.zipWith g (l.flatMap m) (l.flatMap w) = l.flatMap fun a => List.zipWith g (m a) (w a) := by
  induction l with
  | nil => rfl
  | cons a l ih => rw [List.flatMap_cons, List.flatMap_cons, List.flatMap_cons, List.zipWith_append (h a), ih]

theorem flagWord_fits (f : Bool) : immFits (flagWord f).toNat = true := by cases f <;> rfl

theorem bandSetter_wellFormed (f : BandField) (b : Band) (p : BandParams) : (f.setter b (f.word p)).wellFormed = true := by
  cases f with
  | pol | lfoEn | dlyEn => exact flagWord_fits _
  | gain | lfoRate | lfoDepth | lfoOfs | dlyTime | dlyFb | dlyMix => rfl

theorem selectorSetter_wellFormed (g : Selector) (p : ParamSet) : (g.setter (g.word p)).wellFormed = true := by
  cases g with
  | design => show immFits (designWord p.design).toNat = true; cases p.design <;> rfl
  | order => show immFits (orderWord p.order).toNat = true; cases p.order <;> rfl
  | route => show immFits (routeWord p.route).toNat = true; cases p.route <;> rfl
  | wave => show immFits (waveWord p.wave).toNat = true; cases p.wave <;> rfl

theorem loadCommands_wellFormed (p : ParamSet) : (loadCommands p).all Instr.wellFormed = true := by
  simp only [loadCommands, List.all_append, List.all_flatMap, List.all_map, Function.comp_def, bandSetter_wellFormed,
    selectorSetter_wellFormed]
  rfl

theorem loadState_recordOf (p : ParamSet) : loadState (recordOf p) = some (loadCommands p) := by
  have hzip : List.zipWith (fun mk v => mk v) recordSetters (recordOf p) = loadCommands p := by
    unfold recordSetters recordOf loadCommands
    rw [List.zipWith_append (by rw [flatMap_eq_map_slots, flatMap_eq_map_slots, List.length_map, List.length_map]),
      zipWith_flatMap _ _ _ _ (fun b => by simp), zipWith_map_map]
    simp only [zipWith_map_map]
  have hlength : (recordOf p).length = recordSetters.length := (record_length ..).trans (record_length ..).symm
  unfold loadState
  simp only [hzip, loadCommands_wellFormed, hlength, and_self, ↓reduceIte]

theorem perform_loadCommands {p : ParamSet} {t : State} (h : p.legal t.cfg.lits) :
    perform (loadCommands p) t = .next { t with staging := p, cmd := t.cmd.drop 328 } := by
  obtain ⟨hband, hmin, hmax⟩ := h
  rw [loadCommands, perform_append (perform_bandSetters bands t hband), foldl_set_bands,
    perform_selectorSetters selectors (t.withBands p.band (10 * bands.length)) hmin hmax,
    copy_selectors p (t.withBands p.band (10 * bands.length)).staging rfl]
  simp only [State.withBands, List.drop_drop]
  rfl

/-! ### SAVE_STATE (46 R490) -/

/-- The state after getters with these answers. -/
def State.withAnswers (s : State) (ws : List Word) : State :=
  { s with cmd := s.cmd.drop (2 * ws.length), resp := s.resp ++ ws }

theorem withAnswers_withAnswers (s : State) (vs ws : List Word) :
    (s.withAnswers vs).withAnswers ws = s.withAnswers (vs ++ ws) := by
  simp only [State.withAnswers, List.drop_drop, List.length_append, Nat.mul_add, List.append_assoc]

theorem answerGet_withAnswers {s : State} (h : streamHolds s.cfg 1 (s.resp.length + 1) = true) (w : Word) :
    answerGet w s = .next (s.withAnswers [w]) :=
  answerGet_room (by rw [respFull, h]; rfl) w

/-- Getters of staged values one after another, with room on RESP for all of their answers. -/
theorem perform_getters {α : Type} {g : ParamSet} {i : α → Instr} {w : α → Word}
    (h : ∀ a s, s.staging = g → exec (i a) s = answerGet (w a) s) (l : List α) (s : State) (hs : s.staging = g)
    (hroom : streamHolds s.cfg 1 (s.resp.length + l.length) = true) :
    perform (l.map i) s = .next (s.withAnswers (l.map w)) := by
  induction l generalizing s with
  | nil => simp [perform, State.withAnswers]
  | cons a l ih =>
    rw [List.length_cons] at hroom
    have hfirst := (h a s hs).trans (answerGet_withAnswers (streamHolds_mono (by omega) hroom) (w a))
    have hlater := ih (s.withAnswers [w a]) hs (streamHolds_mono (by simp [State.withAnswers]; omega) hroom)
    rw [List.map_cons, perform_cons hfirst, hlater, withAnswers_withAnswers]
    rfl

theorem perform_saveState {s : State} (hroom : streamHolds s.cfg 1 (s.resp.length + 164) = true) :
    perform saveState s = .next (s.withAnswers (recordOf s.staging)) := by
  have hfields := perform_getters (g := s.staging) (i := fun q : Band × BandField => q.2.getter q.1)
    (w := fun q => q.2.word s.staging.band[q.1]) (fun q u hu => by rw [exec_bandGetter, hu]) bandSlots s rfl
    (streamHolds_mono (by rw [bandSlots_length]; omega) hroom)
  have hselectors := perform_getters (g := s.staging) (i := Selector.getter) (w := fun g => g.word s.staging)
    (fun g u hu => by cases g <;> rw [← hu] <;> rfl) selectors
    (s.withAnswers (bandSlots.map fun q => q.2.word s.staging.band[q.1])) rfl
    (streamHolds_mono (by
      simp only [State.withAnswers, List.length_append, List.length_map, bandSlots_length]
      show s.resp.length + 160 + 4 ≤ s.resp.length + 164
      omega) hroom)
  rw [saveState, flatMap_eq_map_slots (fun b f => f.getter b), perform_append hfields, hselectors, recordOf,
    flatMap_eq_map_slots (fun b f => f.word s.staging.band[b]), withAnswers_withAnswers]

/-- Settles O23: LOAD_STATE's setters store the words of the record unchanged, and SAVE_STATE's getters answer them. -/
theorem serialisationRoundTrip : Obligations.SerialisationRoundTrip := by
  intro s t hlegal hroom
  have hcommands : (loadCommands s.staging).length = 164 := record_length ..
  have hlength : (recordOf s.staging).length = 164 := record_length ..
  have hsave := perform_saveState (s := { t with staging := s.staging, cmd := t.cmd.drop 328 }) hroom
  refine ⟨_, loadState_recordOf _, hcommands, perform_loadCommands hlegal, _, hsave, ?_⟩
  simp only [State.withAnswers, hlength, List.drop_drop]

end Sys2Proof.Machine
end

section
/-! SUPPORT. States that differ only in what reset leaves unspecified (70 R552): every effect takes them to such states again. -/

namespace Sys2Proof.Machine

/-! ### The relation, with its two parts apart -/

/-- The state s with t's values in the fields that reset leaves unspecified. -/
def State.withUnspecified (s t : State) : State :=
  { s with key := t.key, filters := t.filters, dmax := t.dmax, coefs := t.coefs }

/-- What s and t must agree on within those fields. -/
structure UnspecifiedAgree (s t : State) : Prop where
  valid : s.key.valid = t.key.valid
  key : s.key.valid = true → s.key = t.key
  initialised : s.status.initDone = true → s.dmax = t.dmax ∧ s.coefs = t.coefs
  s1 : ∀ c b, ∀ k : Sec, (laneGet s.filters c b)[k].s1 = (laneGet t.filters c b)[k].s1
  s2 : ∀ c b, ∀ k : Sec, (laneGet s.filters c b)[k].s2 = (laneGet t.filters c b)[k].s2
  coef : ∀ c b, ∀ k : Sec, s.key.valid = true → k.val < activeSections s.key.order →
    (laneGet s.filters c b)[k].coef = (laneGet t.filters c b)[k].coef

theorem agreeUpToUnspecified_iff (s t : State) :
    AgreeUpToUnspecified s t ↔ t = s.withUnspecified t ∧ UnspecifiedAgree s t := by
  constructor
  · rintro ⟨hrest, hvalid, hkey, hinit, hsec⟩
    refine ⟨?_, hvalid, hkey, hinit, fun c b k => (hsec c b k).1, fun c b k => (hsec c b k).2.1, fun c b k => (hsec c b k).2.2⟩
    exact congrArg (fun u => u.withUnspecified t) hrest
  · rintro ⟨hrest, h⟩
    exact ⟨(congrArg (fun u => u.withUnspecified s) hrest), h.valid, h.key, h.initialised,
      fun c b k => ⟨h.s1 c b k, h.s2 c b k, h.coef c b k⟩⟩

/-- An effect that does not touch the unspecified fields nor INIT_DONE keeps the relation. -/
theorem AgreeUpToUnspecified.neutral {s t s' t' : State} (h : AgreeUpToUnspecified s t) (ht : t' = s'.withUnspecified t)
    (hs : s' = s'.withUnspecified s) (hinit : s'.status.initDone = s.status.initDone) : AgreeUpToUnspecified s' t' := by
  obtain ⟨-, h⟩ := (agreeUpToUnspecified_iff s t).mp h
  subst ht
  obtain ⟨hkey, hfilters, hdmax, hcoefs⟩ :
      s'.key = s.key ∧ s'.filters = s.filters ∧ s'.dmax = s.dmax ∧ s'.coefs = s.coefs := by
    rw [hs]
    exact ⟨rfl, rfl, rfl, rfl⟩
  refine (agreeUpToUnspecified_iff _ _).mpr ⟨rfl, ?_, ?_, ?_, ?_, ?_, ?_⟩
  · rw [hkey]; exact h.valid
  · rw [hkey]; exact h.key
  · rw [hinit, hdmax, hcoefs]; exact h.initialised
  · rw [hfilters]; exact h.s1
  · rw [hfilters]; exact h.s2
  · rw [hkey, hfilters]; exact h.coef

/-! ### Host and command side -/

theorem hostMove_withUnspecified (s t : State) : hostMove (s.withUnspecified t) = (hostMove s).withUnspecified t := by
  have hhost : (s.withUnspecified t).host = s.host := rfl
  unfold hostMove
  rw [hhost]
  split <;> rfl

theorem answerGet_withUnspecified (w : Word) (s t : State) :
    answerGet w (s.withUnspecified t) = mapNext (fun u => u.withUnspecified t) (answerGet w s) := by
  have hfull : respFull (s.withUnspecified t) = respFull s := rfl
  unfold answerGet
  rw [hfull]
  split <;> rfl

theorem exec_withUnspecified {i : Instr} (h : i.reachesEngine = false) (s t : State) :
    exec i (s.withUnspecified t) = mapNext (fun u => u.withUnspecified t) (exec i s) := by
  cases i
  case init | block => cases h
  case nop | clrStatus | setGain | setPol | setLfoRate | setLfoDepth | setLfoOfs | setLfoEn | setDlyTime | setDlyFb | setDlyMix
    | setDlyEn | setDesign | setOrder | setRoute | setWave => rfl
  all_goals exact answerGet_withUnspecified _ s t

/-- Only INIT sets INIT_DONE, and nothing clears it. -/
theorem exec_initDone {i : Instr} {s t : State} (hi : i.reachesEngine = false) (h : exec i s = .next t) :
    t.status.initDone = s.status.initDone := by
  rcases exec_cases h with rfl | rfl | ⟨w, rfl⟩ | rfl | ⟨e, op, rfl⟩ | ⟨b, f, -, rfl⟩ | ⟨f, -, rfl⟩ | ⟨fs, rfl, -⟩ | ⟨n, rfl, -⟩
  case inr.inr.inr.inr.inr.inr.inr.inl | inr.inr.inr.inr.inr.inr.inr.inr => cases hi
  case inr.inr.inr.inr.inl => rw [raiseError_status, Status.record_initDone]
  all_goals rfl

theorem AgreeUpToUnspecified.retire {s t : State} (h : AgreeUpToUnspecified s t) :
    AgreeUpToUnspecified (retire s) (retire t) :=
  h.neutral (congrArg Machine.retire ((agreeUpToUnspecified_iff s t).mp h).1) rfl rfl

theorem AgreeUpToUnspecified.raiseError {s t : State} (h : AgreeUpToUnspecified s t) (e : ErrorCode) (op : BitVec 8) :
    AgreeUpToUnspecified (raiseError e op s) (raiseError e op t) :=
  h.neutral (congrArg (Machine.raiseError e op) ((agreeUpToUnspecified_iff s t).mp h).1) rfl
    (by rw [raiseError_status, Status.record_initDone])

/-! ### INIT -/

/-- What the operations of a fold carry along unread, the fold carries along. -/
theorem foldl_commutes {α : Type} (g : State → α → State) (f : State → State) (h : ∀ s a, g (f s) a = f (g s a)) (l : List α)
    (s : State) : l.foldl g (f s) = f (l.foldl g s) := by
  induction l generalizing s with
  | nil => rfl
  | cons a l ih => rw [List.foldl_cons, List.foldl_cons, h, ih]

theorem delayClearAll_withUnspecified (s t : State) :
    delayClearAll (s.withUnspecified t) = (delayClearAll s).withUnspecified t := by
  have hchan (c : Chan) (s : State) := foldl_commutes (fun s b => delayClear c b s) (fun s => s.withUnspecified t)
    (fun _ _ => rfl) bands s
  exact foldl_commutes (fun s c => bands.foldl (fun s b => delayClear c b s) s) (fun s => s.withUnspecified t)
    (fun s c => hchan c s) chans s

theorem delayClearDisabled_withUnspecified (s t : State) :
    delayClearDisabled (s.withUnspecified t) = (delayClearDisabled s).withUnspecified t := by
  refine foldl_commutes (fun s b => if (param s b).dlyEn then s else delayClear 1 b (delayClear 0 b s))
    (fun s => s.withUnspecified t) (fun s b => ?_) bands s
  have hp : param (s.withUnspecified t) b = param s b := rfl
  rw [hp]
  split <;> rfl

/-- INIT with the state after DELAY.CLEAR of all lines set apart. -/
theorem initEffect_eq (fs : F32) (s : State) : initEffect fs s =
    { delayClearAll { smoothSetCutoff { s with sr := fs } with dmax := dmaxOf s.cfg fs } with
      filters := lanesOf fun c b => clearTaps (laneGet s.filters c b)
      dc := Vector.replicate 2 { x1 := posZero, y1 := posZero }
      key := { s.key with valid := false }
      status := { s.status with initDone := true } } := by
  simp only [initEffect, delayClearAll_filters, delayClearAll_key, delayClearAll_status, smoothSetCutoff]

/-- INIT reads nothing of the unspecified fields but into those fields. -/
theorem initEffect_withUnspecified (fs : F32) (s t : State) :
    initEffect fs (s.withUnspecified t) = (initEffect fs s).withUnspecified (initEffect fs (s.withUnspecified t)) := by
  have hclear := delayClearAll_withUnspecified { smoothSetCutoff { s with sr := fs } with dmax := dmaxOf s.cfg fs }
    { t with dmax := dmaxOf s.cfg fs, coefs := (smoothSetCutoff { s with sr := fs }).coefs }
  have hstart : { smoothSetCutoff { s.withUnspecified t with sr := fs } with dmax := dmaxOf (s.withUnspecified t).cfg fs } =
      State.withUnspecified { smoothSetCutoff { s with sr := fs } with dmax := dmaxOf s.cfg fs }
        { t with dmax := dmaxOf s.cfg fs, coefs := (smoothSetCutoff { s with sr := fs }).coefs } := rfl
  rw [initEffect_eq, initEffect_eq, hstart, hclear]
  generalize delayClearAll _ = d
  rfl

theorem AgreeUpToUnspecified.initEffect {s t : State} (h : AgreeUpToUnspecified s t) (fs : F32) :
    AgreeUpToUnspecified (initEffect fs s) (initEffect fs t) := by
  obtain ⟨ht, h⟩ := (agreeUpToUnspecified_iff s t).mp h
  have hcfg : t.cfg = s.cfg := by rw [ht]; rfl
  refine (agreeUpToUnspecified_iff _ _).mpr ⟨?_, ?_, ?_, fun _ => ⟨?_, ?_⟩, fun c b k => ?_, fun c b k => ?_, fun c b k hv => ?_⟩
  · have hinit := initEffect_withUnspecified fs s t
    rwa [← ht] at hinit
  · rw [initEffect_key, initEffect_key]
  · rw [initEffect_key]; exact fun hv => absurd hv Bool.false_ne_true
  · rw [initEffect_dmax, initEffect_dmax, hcfg]
  · rw [initEffect_coefs, initEffect_coefs, hcfg]
  · rw [initEffect_section, initEffect_section]
  · rw [initEffect_section, initEffect_section]
  · rw [initEffect_key] at hv; exact absurd hv Bool.false_ne_true

/-! ### BLOCK -/

theorem filterUpdate_eq (s : State) : filterUpdate s = { s with filters := (filterUpdate s).filters, key := wantedKey s } := by
  by_cases h : s.key = wantedKey s
  · rw [filterUpdate_of_key h, ← h]
  · unfold filterUpdate
    rw [if_neg h]

theorem blockStart_withUnspecified (n : Nat) (s t : State) :
    blockStart n (s.withUnspecified t) = (blockStart n s).withUnspecified (blockStart n (s.withUnspecified t)) := by
  have hupdate : filterUpdate (latch (s.withUnspecified t)) =
      (filterUpdate (latch s)).withUnspecified (filterUpdate (latch (s.withUnspecified t))) := by
    rw [filterUpdate_eq (latch s), filterUpdate_eq (latch (s.withUnspecified t))]
    rfl
  have hrates : lfoSetRates (filterUpdate (latch (s.withUnspecified t))) =
      (lfoSetRates (filterUpdate (latch s))).withUnspecified (filterUpdate (latch (s.withUnspecified t))) :=
    congrArg lfoSetRates hupdate
  have hclear := delayClearDisabled_withUnspecified (lfoSetRates (filterUpdate (latch s)))
    (filterUpdate (latch (s.withUnspecified t)))
  rw [← hrates] at hclear
  unfold blockStart
  rw [hclear]
  generalize delayClearDisabled _ = d
  rfl

/-- States that agree have the same key where it is the wanted one. -/
theorem UnspecifiedAgree.key_eq_iff {s t : State} (h : UnspecifiedAgree s t) {k : CoefKey} (hk : k.valid = true) :
    t.key = k ↔ s.key = k := by
  constructor
  · intro e
    rw [h.key (by rw [h.valid, e, hk]), e]
  · intro e
    rw [← h.key (by rw [e, hk]), e]

/-- FILTER.UPDATE under keys that both disagree clears the same taps and configures the same sections. -/
theorem filterUpdate_section_agree {s t : State} (h : UnspecifiedAgree s t) (hact : t.active = s.active) (hsr : t.sr = s.sr)
    (hcfg : t.cfg = s.cfg) (hs : s.key ≠ wantedKey s) (ht : t.key ≠ wantedKey t) (c : Chan) (b : Band) (k : Sec) :
    (laneGet (filterUpdate s).filters c b)[k].s1 = (laneGet (filterUpdate t).filters c b)[k].s1 ∧
    (laneGet (filterUpdate s).filters c b)[k].s2 = (laneGet (filterUpdate t).filters c b)[k].s2 ∧
    (k.val < activeSections s.active.order →
      (laneGet (filterUpdate s).filters c b)[k].coef = (laneGet (filterUpdate t).filters c b)[k].coef) := by
  obtain ⟨hcoef, hquiet, hkeep⟩ := filterUpdate_section hs c b k
  obtain ⟨hcoef', hquiet', hkeep'⟩ := filterUpdate_section ht c b k
  have hcoefs (hk : k.val < activeSections s.active.order) :
      (laneGet (filterUpdate s).filters c b)[k].coef = (laneGet (filterUpdate t).filters c b)[k].coef := by
    rw [hcoef, hcoef', hact, hsr, hcfg, if_pos hk, if_pos hk]
  by_cases hd : Deactivated s k
  · have hd' : Deactivated t k := by
      obtain ⟨hv, hlo, hhi⟩ := hd
      exact ⟨h.valid ▸ hv, hact ▸ hlo, h.key hv ▸ hhi⟩
    obtain ⟨h1, h2⟩ := hquiet hd
    obtain ⟨h1', h2'⟩ := hquiet' hd'
    exact ⟨h1.trans h1'.symm, h2.trans h2'.symm, hcoefs⟩
  · have hd' : ¬Deactivated t k := fun ⟨hv, hlo, hhi⟩ => by
      have hvs : s.key.valid = true := h.valid.trans hv
      exact hd ⟨hvs, hact ▸ hlo, (h.key hvs).symm ▸ hhi⟩
    obtain ⟨h1, h2⟩ := hkeep hd
    obtain ⟨h1', h2'⟩ := hkeep' hd'
    exact ⟨by rw [h1, h1', h.s1], by rw [h2, h2', h.s2], hcoefs⟩

theorem UnspecifiedAgree.latch {s t : State} (h : UnspecifiedAgree s t) : UnspecifiedAgree (latch s) (latch t) :=
  ⟨h.valid, h.key, h.initialised, h.s1, h.s2, h.coef⟩

theorem AgreeUpToUnspecified.blockStart {s t : State} (h : AgreeUpToUnspecified s t) (n : Nat) :
    AgreeUpToUnspecified (blockStart n s) (blockStart n t) := by
  obtain ⟨ht, h⟩ := (agreeUpToUnspecified_iff s t).mp h
  obtain ⟨hstaging, hsr, hcfg⟩ : t.staging = s.staging ∧ t.sr = s.sr ∧ t.cfg = s.cfg := by
    rw [ht]
    exact ⟨rfl, rfl, rfl⟩
  have hwanted : wantedKey (Machine.latch t) = wantedKey (Machine.latch s) := by
    simp only [wantedKey, latch_active, latch_sr, hstaging, hsr]
  have hsection (c : Chan) (b : Band) (k : Sec) :
      (laneGet (filterUpdate (Machine.latch s)).filters c b)[k].s1 =
        (laneGet (filterUpdate (Machine.latch t)).filters c b)[k].s1 ∧
      (laneGet (filterUpdate (Machine.latch s)).filters c b)[k].s2 =
        (laneGet (filterUpdate (Machine.latch t)).filters c b)[k].s2 ∧
      (k.val < activeSections s.staging.order → (laneGet (filterUpdate (Machine.latch s)).filters c b)[k].coef =
        (laneGet (filterUpdate (Machine.latch t)).filters c b)[k].coef) := by
    have hiff := h.latch.key_eq_iff (k := wantedKey (Machine.latch s)) rfl
    by_cases hkey : (Machine.latch s).key = wantedKey (Machine.latch s)
    · rw [filterUpdate_of_key hkey, filterUpdate_of_key (hwanted ▸ hiff.mpr hkey)]
      refine ⟨h.s1 c b k, h.s2 c b k, fun hk => h.coef c b k ?_ ?_⟩
      · rw [← latch_key, hkey]; rfl
      · rw [← latch_key, hkey]; exact hk
    · exact filterUpdate_section_agree h.latch hstaging hsr hcfg hkey (fun e => hkey (hiff.mp (e.trans hwanted))) c b k
  refine (agreeUpToUnspecified_iff _ _).mpr ⟨?_, ?_, fun _ => ?_, fun hi => ?_, fun c b k => ?_, fun c b k => ?_,
    fun c b k _ hk => ?_⟩
  · have hstart := blockStart_withUnspecified n s t
    rwa [← ht] at hstart
  · rw [blockStart_key, blockStart_key, hwanted]
  · rw [blockStart_key, blockStart_key, hwanted]
  · rw [blockStart_status] at hi
    rw [blockStart_dmax, blockStart_dmax, blockStart_coefs, blockStart_coefs]
    exact h.initialised hi
  · rw [blockStart_filters, blockStart_filters]; exact (hsection c b k).1
  · rw [blockStart_filters, blockStart_filters]; exact (hsection c b k).2.1
  · rw [blockStart_key] at hk
    rw [blockStart_filters, blockStart_filters]
    exact (hsection c b k).2.2 hk

/-! ### A frame with other coefficients in the inactive sections -/

/-- A filter with other coefficients in the sections from n on. -/
def withIdleCoefs (n : Nat) (q : Sec → Coef) (f : Filter) : Filter :=
  secOf fun k => { f[k] with coef := if k.val < n then f[k].coef else q k }

theorem withIdleCoefs_get (n : Nat) (q : Sec → Coef) (f : Filter) (k : Sec) :
    (withIdleCoefs n q f)[k] = { f[k] with coef := if k.val < n then f[k].coef else q k } := by
  rw [withIdleCoefs, secOf_get]

theorem withIdleCoefs_active {n : Nat} {k : Sec} (q : Sec → Coef) (f : Filter) (h : k.val < n) :
    (withIdleCoefs n q f)[k] = f[k] := by
  rw [withIdleCoefs_get, if_pos h]

/-- Two filters with the same sections are equal. -/
theorem filter_ext {f g : Filter} (h : ∀ k : Sec, f[k] = g[k]) : f = g := Vector.ext fun k hk => h ⟨k, hk⟩

theorem withIdleCoefs_set {n : Nat} {j : Sec} (q : Sec → Coef) (f : Filter) (p : Section) (h : j.val < n) :
    (withIdleCoefs n q f).set j p = withIdleCoefs n q (f.set j p) := by
  refine filter_ext fun k => ?_
  rw [withIdleCoefs_get, filter_set_get, filter_set_get]
  split
  next e => subst e; rw [if_pos h]
  next => rw [withIdleCoefs_get]

/-- FILTER.PROCESS does not read the coefficients of inactive sections. -/
theorem filterProcess_withIdleCoefs (dn : Denorm) {n : Nat} (hn : n ≤ 4) (q : Sec → Coef) (f : Filter) (x : F32) {m : Nat}
    (hm : m ≤ n) : filterProcess dn m (withIdleCoefs n q f) x =
      (withIdleCoefs n q (filterProcess dn m f x).1, (filterProcess dn m f x).2) := by
  induction m with
  | zero => rfl
  | succ m ih =>
    have hlt : m < 4 := by omega
    have hk : (⟨m, hlt⟩ : Sec).val < n := hm
    have hsucc (g : Filter) := filterProcess_succ dn g x ⟨m, hlt⟩
    simp only at hsucc
    rw [hsucc, hsucc, ih (by omega), withIdleCoefs_active q f hk]
    exact Prod.ext (withIdleCoefs_set q _ _ hk) rfl

/-- The state with other coefficients in the sections that the active order makes inactive. -/
def State.withIdleCoefs (q : Chan → Band → Sec → Coef) (s : State) : State :=
  { s with filters := lanesOf fun c b => Machine.withIdleCoefs (activeSections s.active.order) (q c b) (laneGet s.filters c b) }

theorem bandFilter_withIdleCoefs (q : Chan → Band → Sec → Coef) (c : Chan) (b : Band) (x : F32) (s : State) :
    bandFilter c b x (s.withIdleCoefs q) = ((bandFilter c b x s).1.withIdleCoefs q, (bandFilter c b x s).2) := by
  have hn := (activeSections_bounds s.active.order).2
  have hlane : laneGet (s.withIdleCoefs q).filters c b =
      Machine.withIdleCoefs (activeSections s.active.order) (q c b) (laneGet s.filters c b) := lanesOf_get _ c b
  have hprocess := filterProcess_withIdleCoefs s.cfg.denorm hn (q c b) (laneGet s.filters c b) x (Nat.le_refl _)
  have hfilters : (bandFilter c b x (s.withIdleCoefs q)).1.filters = ((bandFilter c b x s).1.withIdleCoefs q).filters := by
    refine lanes_ext fun c' b' => ?_
    rw [bandFilter_filters, hlane]
    simp only [State.withIdleCoefs, lanesOf_get]
    rw [bandFilter_filters, bandFilter_active, hprocess]
    split
    next e => rw [← e.1, ← e.2]
    next => rfl
  have hout : (bandFilter c b x (s.withIdleCoefs q)).2 = (bandFilter c b x s).2 := by
    show fmul _ (filterProcess _ _ (laneGet (s.withIdleCoefs q).filters c b) x).2 (bandGain s b) = _
    rw [hlane]
    exact congrArg (fun r => fmul s.cfg.denorm r.2 (bandGain s b)) hprocess
  exact Prod.ext (congrArg (fun f => { s with filters := f }) hfilters) hout

/-- A frame does not read the coefficients of inactive sections. -/
theorem frame_withIdleCoefs (q : Chan → Band → Sec → Coef) (x : AudioFrame) (s : State) :
    frame x (s.withIdleCoefs q) = (frame x s).withIdleCoefs q := by
  have h := frame_commutes (State.withIdleCoefs q) ?_ (bandFilter_withIdleCoefs q) ?_ ?_ ?_ ?_ x s
  · generalize frame x s = u at h ⊢
    exact h
  · intro s b; rfl
  · intro c b v s
    have hp : param (s.withIdleCoefs q) b = param s b := rfl
    unfold bandDelay
    rw [hp]
    split <;> rfl
  · intro s; exact ⟨rfl, rfl⟩
  · intro c x s; rfl
  · intro s y; rfl

/-- While a block runs, states that agree differ in the coefficients of inactive sections only. -/
theorem eq_withIdleCoefs_of_running {s t : State} (h : AgreeUpToUnspecified s t) (hkey : s.key = wantedKey s)
    (hinit : s.status.initDone = true) : t = s.withIdleCoefs fun c b k => (laneGet t.filters c b)[k].coef := by
  obtain ⟨ht, h⟩ := (agreeUpToUnspecified_iff s t).mp h
  have hvalid : s.key.valid = true := by rw [hkey]; rfl
  obtain ⟨hdmax, hcoefs⟩ := h.initialised hinit
  have hfilters : t.filters = (s.withIdleCoefs fun c b k => (laneGet t.filters c b)[k].coef).filters := by
    refine lanes_ext fun c b => filter_ext fun k => ?_
    simp only [State.withIdleCoefs, lanesOf_get]
    rw [withIdleCoefs_get]
    simp only [h.s1, h.s2]
    split
    next hk => rw [h.coef c b k hvalid (by rw [hkey]; exact hk)]
    next => rfl
  have hfields : s.withUnspecified t = { s with filters := t.filters } := by
    rw [State.withUnspecified, ← hdmax, ← hcoefs, ← h.key hvalid]
  rw [hfields] at ht
  exact ht.trans (congrArg (fun f => { s with filters := f }) hfilters)

theorem AgreeUpToUnspecified.frame {s t : State} (h : AgreeUpToUnspecified s t) (hkey : s.key = wantedKey s)
    (hinit : s.status.initDone = true) (x : AudioFrame) : AgreeUpToUnspecified (frame x s) (frame x t) := by
  have ht := eq_withIdleCoefs_of_running h hkey hinit
  generalize (fun c b k => (laneGet t.filters c b)[k].coef : Chan → Band → Sec → Coef) = q at ht
  have hframe : Machine.frame x t = (Machine.frame x s).withIdleCoefs q := by rw [ht, frame_withIdleCoefs]
  have hkey' : (Machine.frame x s).key.order = (Machine.frame x s).active.order := by
    rw [frame_key, frame_active, hkey]
    rfl
  rw [hframe]
  generalize Machine.frame x s = u at *
  have hsection (c : Chan) (b : Band) (k : Sec) : (laneGet (u.withIdleCoefs q).filters c b)[k] =
      { (laneGet u.filters c b)[k] with
        coef := if k.val < activeSections u.active.order then (laneGet u.filters c b)[k].coef else q c b k } := by
    simp only [State.withIdleCoefs, lanesOf_get]
    exact withIdleCoefs_get ..
  refine (agreeUpToUnspecified_iff _ _).mpr ⟨rfl, rfl, fun _ => rfl, fun _ => ⟨rfl, rfl⟩, fun c b k => ?_, fun c b k => ?_,
    fun c b k _ hk => ?_⟩
  · rw [hsection]
  · rw [hsection]
  · rw [hsection, if_pos (hkey' ▸ hk)]

theorem AgreeUpToUnspecified.outPush {s t : State} (h : AgreeUpToUnspecified s t) (y : AudioFrame) :
    AgreeUpToUnspecified (outPush y s) (outPush y t) := by
  have hpush (u : State) : Machine.outPush y (s.withUnspecified u) = (Machine.outPush y s).withUnspecified u := by
    have hleft : (s.withUnspecified u).left = s.left := rfl
    unfold Machine.outPush
    dsimp only
    rw [hleft]
    split <;> rfl
  refine h.neutral ((congrArg (Machine.outPush y) ((agreeUpToUnspecified_iff s t).mp h).1).trans (hpush t)) (hpush s) ?_
  rw [outPush_status]

/-! ### Steps -/

theorem alikeOutcome_next {R : State → State → Prop} {s t : State} (h : R s t) : AlikeOutcome R (.next s) (.next t) := h

/-- Agreeing outcomes of an effect that carries the unspecified fields along. -/
theorem alike_of_mapNext {s t : State} (h : AgreeUpToUnspecified s t) {r : Result}
    (hr : ∀ s', r = .next s' → s' = s'.withUnspecified s ∧ s'.status.initDone = s.status.initDone) :
    AlikeOutcome AgreeUpToUnspecified r (mapNext (fun u => u.withUnspecified t) r) := by
  cases r with
  | next s' =>
    obtain ⟨hs, hinit⟩ := hr s' rfl
    exact h.neutral rfl hs hinit
  | fault e => rfl
  | refused e => rfl

theorem exec_alike {s t : State} (h : AgreeUpToUnspecified s t) (i : Instr) :
    AlikeOutcome AgreeUpToUnspecified (exec i s) (exec i t) := by
  obtain ⟨ht, -⟩ := (agreeUpToUnspecified_iff s t).mp h
  by_cases hi : i.reachesEngine = false
  · have halike := alike_of_mapNext h (r := exec i s) fun s' hs' =>
      ⟨by rw [commandsLeaveTheEngine i s s' hi hs']; rfl, exec_initDone hi hs'⟩
    rwa [← exec_withUnspecified hi, ← ht] at halike
  · obtain ⟨hmode, hcfg, hstatus⟩ : t.mode = s.mode ∧ t.cfg = s.cfg ∧ t.status = s.status := by
      rw [ht]
      exact ⟨rfl, rfl, rfl⟩
    cases i with
    | init fs =>
      simp only [exec, execInit, hmode, hcfg]
      split
      · exact h
      · split
        · exact h.retire.initEffect fs
        · exact h.raiseError ..
    | block n =>
      simp only [exec, execBlock, hmode, hcfg, hstatus]
      split
      · exact h
      · split
        · exact h.raiseError ..
        · split
          · exact h.raiseError ..
          · split
            · exact h.retire
            · exact h.retire.blockStart n
    | _ => exact absurd rfl hi

theorem decoderMove_alike {s t : State} (h : AgreeUpToUnspecified s t) :
    AlikeOutcome AgreeUpToUnspecified (decoderMove s) (decoderMove t) := by
  have hcmd : t.cmd = s.cmd := by rw [((agreeUpToUnspecified_iff s t).mp h).1]; rfl
  unfold decoderMove
  rw [hcmd]
  split
  · split
    · exact h.raiseError ..
    · exact exec_alike h _
  · exact h

theorem engineMove_alike {s t : State} (h : AgreeUpToUnspecified s t) (hinit : InitSound s) (hfilters : FiltersSound s) :
    AlikeOutcome AgreeUpToUnspecified (engineMove s) (engineMove t) := by
  obtain ⟨ht, -⟩ := (agreeUpToUnspecified_iff s t).mp h
  obtain ⟨hmode, hleft, hout, hain, hfull, hread⟩ : t.mode = s.mode ∧ t.left = s.left ∧ t.out = s.out ∧ t.ain = s.ain ∧
      aoutFull t = aoutFull s ∧ framesReadable t = framesReadable s := by
    rw [ht]
    exact ⟨rfl, rfl, rfl, rfl, rfl, rfl⟩
  unfold engineMove
  rw [hmode, hleft, hout, hain, hfull, hread]
  split
  · exact h
  next hm =>
    split
    · exact h.neutral (congrArg blockEnd ht) rfl rfl
    · split
      next y _ =>
        split
        · exact h
        · exact alikeOutcome_next (h.outPush y)
      next =>
        split
        next x0 x1 rest _ =>
          split
          · have hain' : AgreeUpToUnspecified { s with ain := rest } { t with ain := rest } :=
              h.neutral (congrArg (fun u => { u with ain := rest }) ht) rfl rfl
            have hframe := hain'.frame (hfilters.1 hm) (hinit.initDone_of_running hm) (x0, x1)
            rw [hmode, hleft, hout] at hframe
            exact hframe
          · rfl
        next => exact h

theorem afterPick_alike {s t : State} (h : AgreeUpToUnspecified s t) : AgreeUpToUnspecified (afterPick s) (afterPick t) := by
  have ht := ((agreeUpToUnspecified_iff s t).mp h).1
  have hready : readyAgents t = readyAgents s := by rw [ht]; rfl
  unfold afterPick
  rw [hready]
  split
  · exact h.neutral (congrArg (fun u => { u with sched := u.sched.tail, turns := u.turns + 1 }) ht) rfl rfl
  · exact h

theorem step_alike {s t : State} (hinit : InitSound s) (hfilters : FiltersSound s) (h : AgreeUpToUnspecified s t) :
    AlikeOutcome AgreeUpToUnspecified (step s) (step t) := by
  have ht := ((agreeUpToUnspecified_iff s t).mp h).1
  have hpick : pick t = pick s := by rw [ht]; rfl
  have hafter := afterPick_alike h
  obtain ⟨l, n, hsched⟩ := afterPick_eq s
  unfold step
  rw [hpick]
  split
  · exact h
  next a _ =>
    cases a with
    | host =>
      have ht' := ((agreeUpToUnspecified_iff _ _).mp hafter).1
      refine hafter.neutral ((congrArg hostMove ht').trans (hostMove_withUnspecified ..)) ?_ ?_
      · rw [host_keeps]; rfl
      · rw [host_keeps]
    | decoder => exact decoderMove_alike hafter
    | engine =>
      refine engineMove_alike hafter ?_ ?_
      · rw [hsched]; exact hinit
      · rw [hsched]; exact hfilters

/-- Settles O58. -/
theorem unspecifiedResetValuesAreUnobservable : Obligations.UnspecifiedResetValuesAreUnobservable := by
  refine ⟨fun s t _ hinit hfilters h => step_alike hinit hfilters h, fun d o fs q m a => ?_⟩
  refine (agreeUpToUnspecified_iff _ _).mpr ⟨rfl, rfl, (nomatch ·), (nomatch ·), fun c b k => ?_, fun c b k => ?_,
    fun c b k => (nomatch ·)⟩
  · simp only [lanesOf_get]
    rw [secOf_get, State.reset, resetOf_section]; rfl
  · simp only [lanesOf_get]
    rw [secOf_get, State.reset, resetOf_section]; rfl

end Sys2Proof.Machine
end
